-- ==== Sys2Proof/Word.lean ====
section
/-!
DEFINITION. The machine word (R4): a signed 64-bit integer. The bits are held in two's complement;
the integer a word stands for is `BitVec.toInt`.
-/
namespace Sys2Proof

/-- R4: every value the machine holds, moves or computes is a signed 64-bit word. -/
abbrev Word := BitVec 64

/-- The word congruent to an exact integer modulo `2^64`; for an integer in the word range, the word
that stands for that integer. -/
def Word.ofZ (z : Int) : Word := BitVec.ofInt 64 z

/-- The least integer a word stands for (R4). -/
def Word.minZ : Int := -9223372036854775808

/-- The greatest integer a word stands for (R4). -/
def Word.maxZ : Int := 9223372036854775807

/-- The three addressing modes, mode digits 0, 1 and 2 (R61). -/
inductive Mode where
  /-- digit 0: the parameter word is an address -/
  | position
  /-- digit 1: the parameter word is the value itself -/
  | immediate
  /-- digit 2: the parameter word is a signed offset from `rb` -/
  | relative
  deriving DecidableEq, Repr

end Sys2Proof
end

