-- ==== Sys2Proof/Syntax.lean ====
section
/-!
DEFINITION. The instructions as the Decoder gives them (R2: it "extracts an opcode and up to three
parameter addressing modes from one instruction word"): one constructor per row of
spec/opcode_table.json, with the mode of each parameter the opcode has, in parameter order. Parameter
words are not part of it: they are read from memory when the parameter is resolved (R66, R69 line 6).
-/
namespace Sys2Proof

/-- The ten instructions (R60). `m1`, `m2`, `m3` are the modes of parameters 1, 2 and 3. -/
inductive Instr where
  /-- opcode 1, value, value, destination (R80) -/
  | add (m1 m2 m3 : Mode)
  /-- opcode 2, value, value, destination (R81) -/
  | multiply (m1 m2 m3 : Mode)
  /-- opcode 3, destination (R85) -/
  | input (m1 : Mode)
  /-- opcode 4, value (R86) -/
  | output (m1 : Mode)
  /-- opcode 5, value, value (R90) -/
  | jumpTrue (m1 m2 : Mode)
  /-- opcode 6, value, value (R91) -/
  | jumpFalse (m1 m2 : Mode)
  /-- opcode 7, value, value, destination (R95) -/
  | lessThan (m1 m2 m3 : Mode)
  /-- opcode 8, value, value, destination (R96) -/
  | equal (m1 m2 m3 : Mode)
  /-- opcode 9, value (R100) -/
  | changeRelative (m1 : Mode)
  /-- opcode 99, no parameter (R105) -/
  | halt
  deriving DecidableEq, Repr

end Sys2Proof
end

