-- ==== Sys2Proof/WellFormed.lean ====
section
/-!
DEFINITION. What makes an instruction, and an instruction with its parameter words, well formed: a
destination is Position or Relative (R68, R71: "Immediate mode as a destination is a fatal program
error"), and there are exactly as many parameter words as the opcode has parameters (R60). An
instruction with an Immediate destination still decodes and still has a meaning (it raises
ImmediateDestination); the check says which instructions a correct program holds.
-/
namespace Sys2Proof

/-- What a parameter is to its instruction (R60, column "parameters"). -/
inductive Role where
  | value
  | destination
  deriving DecidableEq, Repr

/-- The parameters of an instruction, in order: role and mode (R60). -/
def Instr.params : Instr → List (Role × Mode)
  | .add m1 m2 m3 => [(.value, m1), (.value, m2), (.destination, m3)]
  | .multiply m1 m2 m3 => [(.value, m1), (.value, m2), (.destination, m3)]
  | .input m1 => [(.destination, m1)]
  | .output m1 => [(.value, m1)]
  | .jumpTrue m1 m2 => [(.value, m1), (.value, m2)]
  | .jumpFalse m1 m2 => [(.value, m1), (.value, m2)]
  | .lessThan m1 m2 m3 => [(.value, m1), (.value, m2), (.destination, m3)]
  | .equal m1 m2 m3 => [(.value, m1), (.value, m2), (.destination, m3)]
  | .changeRelative m1 => [(.value, m1)]
  | .halt => []

/-- R68, R71: a parameter may stand in its role. -/
def paramWf : Role × Mode → Bool
  | (.destination, .immediate) => false
  | (.destination, .position) => true
  | (.destination, .relative) => true
  | (.value, _) => true

/-- R68, R71: no destination of the instruction is Immediate. -/
def Instr.wf (i : Instr) : Bool := i.params.all paramWf

/-- R60: the parameter words that stand after an instruction word are as many as its parameters. -/
def Instr.wfWords (i : Instr) (ps : List Word) : Bool := i.wf && ps.length == i.params.length

end Sys2Proof
end

