-- ==== Sys2Proof/Decode.lean ====
section
/-!
DEFINITION. Decoding and encoding. Fields are decimal digits (R61). `decode` is total on every word and
rejects by name; `encode` is the formula of R74; `decodeWords` and `encodeWords` do the same for an
instruction with its parameter words in a list of words.
-/
namespace Sys2Proof

/-- Why a word is no instruction (R71). `truncated` is raised only on a list of words that ends inside an
instruction; memory never ends, so the machine never meets it. -/
inductive DecodeError where
  /-- R62, R63: negative word, or `w mod 100` not an opcode -/
  | invalidOpcode
  /-- R64: the mode digit of parameter `i` is 3 to 9, and it is the first such digit -/
  | invalidMode (i : Fin 4)
  /-- the list of words ends before the instruction does -/
  | truncated
  deriving DecidableEq, Repr

/-- R10: digit `k` of `n` is `(n div 10^k) mod 10`. -/
def digit (n k : Nat) : Nat := n / 10 ^ k % 10

/-- R61: `op = w mod 100`. -/
def opcodeField (n : Nat) : Nat := n % 100

/-- R61: mode digit values 0, 1, 2; any other value is invalid. -/
def modeOfDigit : Nat → Option Mode
  | 0 => some .position
  | 1 => some .immediate
  | 2 => some .relative
  | _ => none

/-- R60, R63: the instruction of a valid opcode, given the three modes; `none` for every other opcode. The
modes of parameters that the opcode does not have are dropped (R64). -/
def instrOfOpcode (op : Nat) (m1 m2 m3 : Mode) : Option Instr :=
  match op with
  | 1 => some (.add m1 m2 m3)
  | 2 => some (.multiply m1 m2 m3)
  | 3 => some (.input m1)
  | 4 => some (.output m1)
  | 5 => some (.jumpTrue m1 m2)
  | 6 => some (.jumpFalse m1 m2)
  | 7 => some (.lessThan m1 m2 m3)
  | 8 => some (.equal m1 m2 m3)
  | 9 => some (.changeRelative m1)
  | 99 => some .halt
  | _ => none

/-- R63: the valid opcodes. -/
def validOpcode (op : Nat) : Bool := (instrOfOpcode op .position .position .position).isSome

/-- R69 lines 3 to 5, on a word that is not negative: opcode first, then the mode digits in the order
`m1`, `m2`, `m3`. Digits 5 and up are not examined (R65). -/
def decodeNat (n : Nat) : Except DecodeError Instr :=
  if validOpcode (opcodeField n) then
    match modeOfDigit (digit n 2), modeOfDigit (digit n 3), modeOfDigit (digit n 4) with
    | none, _, _ => .error (.invalidMode 1)
    | some _, none, _ => .error (.invalidMode 2)
    | some _, some _, none => .error (.invalidMode 3)
    | some m1, some m2, some m3 =>
      match instrOfOpcode (opcodeField n) m1 m2 m3 with
      | some i => .ok i
      | none => .error .invalidOpcode
  else .error .invalidOpcode

/-- R69 lines 2 to 5: the instruction an instruction word stands for. A negative word is rejected before
any field is extracted (R62). -/
def decode (w : Word) : Except DecodeError Instr :=
  if w.toInt < 0 then .error .invalidOpcode else decodeNat w.toNat

/-- R60: the width of an instruction in words. -/
def Instr.width (i : Instr) : Nat := i.params.length + 1

/-- Decode the instruction at the head of a list of words: the instruction, its parameter words (R66)
and the words after it. Total; rejects by name. -/
def decodeWords : List Word → Except DecodeError (Instr × List Word × List Word)
  | [] => .error .truncated
  | w :: ws =>
    match decode w with
    | .error e => .error e
    | .ok i =>
      if i.params.length ≤ ws.length then
        .ok (i, ws.take i.params.length, ws.drop i.params.length)
      else .error .truncated

/-! ### The encoder -/

/-- R60, R61: the opcode of an instruction. -/
def Instr.opcode : Instr → Nat
  | .add _ _ _ => 1
  | .multiply _ _ _ => 2
  | .input _ => 3
  | .output _ => 4
  | .jumpTrue _ _ => 5
  | .jumpFalse _ _ => 6
  | .lessThan _ _ _ => 7
  | .equal _ _ _ => 8
  | .changeRelative _ => 9
  | .halt => 99

/-- R61: the mode digit of a mode. -/
def Mode.digit : Mode → Nat
  | .position => 0
  | .immediate => 1
  | .relative => 2

/-- R72, R74: the mode digit of parameter `k + 1`; 0 for a parameter the opcode does not have. -/
def Instr.modeDigit (i : Instr) (k : Nat) : Nat :=
  match i.params[k]? with
  | some p => p.2.digit
  | none => 0

/-- R74: `op + 100*m1 + 1000*m2 + 10000*m3`, as a number. -/
def encodeNat (i : Instr) : Nat :=
  i.opcode + 100 * i.modeDigit 0 + 1000 * i.modeDigit 1 + 10000 * i.modeDigit 2

/-- R74: the instruction word. -/
def encode (i : Instr) : Word := BitVec.ofNat 64 (encodeNat i)

/-- R74: the instruction word, followed by the parameter words in order. -/
def encodeWords (i : Instr) (ps : List Word) : List Word := encode i :: ps

/-! ### The notation of R72, for reading a program -/

/-- R72: the mnemonic of an instruction, the document's family name. -/
def Instr.mnemonic : Instr → String
  | .add _ _ _ => "Add"
  | .multiply _ _ _ => "Multiply"
  | .input _ => "Input"
  | .output _ => "Output"
  | .jumpTrue _ _ => "JumpTrue"
  | .jumpFalse _ _ => "JumpFalse"
  | .lessThan _ _ _ => "LessThan"
  | .equal _ _ _ => "Equal"
  | .changeRelative _ => "ChangeRelative"
  | .halt => "Halt"

/-- The decimal digits of a number, most significant first. -/
def natText (n : Nat) : String := String.ofList (Nat.toDigits 10 n)

/-- A signed decimal number. -/
def intText (z : Int) : String := if z < 0 then "-" ++ natText z.natAbs else natText z.natAbs

/-- R72: an operand is written `[n]`, `#n`, `[rb+n]` or `[rb-n]`. -/
def operandText (m : Mode) (w : Word) : String :=
  match m with
  | .position => "[" ++ intText w.toInt ++ "]"
  | .immediate => "#" ++ intText w.toInt
  | .relative =>
    if w.toInt < 0 then "[rb-" ++ natText w.toInt.natAbs ++ "]"
    else "[rb+" ++ natText w.toInt.natAbs ++ "]"

/-- R72: an instruction with its parameter words, in the spec's notation. -/
def instrText (i : Instr) (ps : List Word) : String :=
  let ops := (i.params.zip ps).map fun x => operandText x.1.2 x.2
  if ops.isEmpty then i.mnemonic else i.mnemonic ++ " " ++ ", ".intercalate ops

/-! ### Words numbered as the opcode table numbers them -/

/-- The longest instruction has four words (R60). -/
def maxWidth : Nat := 4

/-- The four 64-bit words of an instruction whose bits are the `nbits` low bits of `w`, bit 0 the least
significant bit of the first word, every bit above `nbits` zero. -/
def tableWords (nbits w : Nat) : List Word :=
  let n := w % 2 ^ nbits
  [BitVec.ofNat 64 n, BitVec.ofNat 64 (n >>> 64), BitVec.ofNat 64 (n >>> 128), BitVec.ofNat 64 (n >>> 192)]

/-- What the decoder reads from an instruction whose bits are `w`; `none` where it refuses. -/
def decodeTableWord (nbits w : Nat) : Option Instr :=
  match decodeWords (tableWords nbits w) with
  | .ok (i, _, _) => some i
  | .error _ => none

end Sys2Proof
end

