-- ==== Sys2Proof/Config.lean ====
section
/-!
DEFINITION. The parameters of the machine that R5 leaves to whoever builds it, with the spec's own
defaults. They stand in `State` as one record that no step writes (log 2), so a claim about every
state is a claim about every value of them.
-/
namespace Sys2Proof

/-- `OVF` (R5, R12): what Add, Multiply and ChangeRelative do with a result outside the word range. -/
inductive Ovf where
  /-- raise ArithmeticOverflow(0); the spec's default -/
  | fault
  /-- keep the word congruent to the result modulo `2^64` -/
  | wrap
  deriving DecidableEq, Repr

/-- `NET_MODE` (R141): the orchestrator's two modes. -/
inductive NetMode where
  /-- the run ends with the first `y` sent to the sentinel address -/
  | firstSolution
  /-- the run ends when the same held pair is delivered twice in a row -/
  | repeatValue
  deriving DecidableEq, Repr

/-- R5: the parameters of the core and its devices, with the spec's defaults. -/
structure Params where
  /-- `OVF` -/
  ovf : Ovf := .fault
  /-- `MEM_LIMIT`: valid addresses are `0 .. memLimit - 1` -/
  memLimit : Nat := 9223372036854775807
  /-- `NB_SENTINEL`: what the Non-blocking-with-status device answers on an empty queue -/
  nbSentinel : Word := -1
  deriving DecidableEq, Repr

/-- R5: the legal values of `MEM_LIMIT` are `1 .. 2^63 - 1`; the other parameters are legal at every
value of their type. -/
def Params.legal (p : Params) : Prop := 1 ≤ p.memLimit ∧ p.memLimit ≤ 9223372036854775807

end Sys2Proof
end

