-- ==== Sys2Proof/Machine/State.lean ====
section
/-!
DEFINITION. The state of the machine, as plain data: the machine instances with their devices, the
channels, the Connectors, the Network Orchestrator if there is one, the parameters, and the turns still
to be taken. Reset is `Load` of the empty program on the Inert device (R34, R180; log 8).
-/
namespace Sys2Proof.Machine

/-! ### One machine instance -/

/-- The six fatal faults (R150). -/
inductive FaultCode where
  /-- code 1: negative instruction word, or an opcode that is none (R151) -/
  | invalidOpcode
  /-- code 2: a mode digit is 3 to 9 (R152) -/
  | invalidMode
  /-- code 3: a destination parameter has mode Immediate (R153) -/
  | immediateDestination
  /-- code 4: an effective address or a taken jump's target is below 0 (R154) -/
  | negativeAddress
  /-- code 5: an address to be accessed is `MEM_LIMIT` or more (R155) -/
  | memoryLimit
  /-- code 6: a result outside the word range, with `OVF = fault` (R156) -/
  | arithmeticOverflow
  deriving DecidableEq, Repr

/-- What a `raise F(i)` carries (R13): the fault and the parameter index 0 to 3. -/
structure Raise where
  fault : FaultCode
  info : Fin 4
  deriving DecidableEq, Repr

/-- The status of a core (R32). -/
inductive Status where
  | running
  | halted
  | faulted
  deriving DecidableEq, Repr

/-- Memory: the cells that do not hold 0, as (address, word) pairs. The unit of access is one word (R40,
R41; log 1); an address that is not listed reads 0 (R42, R48). -/
abbrev Memory := List (Nat × Word)

/-- R123, R149: the shared `idle` cell, with what R54 needs of its past: a read may give any value it has held. -/
structure IdleCell where
  /-- the value it holds -/
  value : Bool
  /-- it held 1 before its last write; that it held 0 is always so, since it starts with 0 (R181) -/
  wasIdle : Bool
  deriving DecidableEq, Repr

/-- R181: the cell of a new device. -/
def IdleCell.fresh : IdleCell where
  value := false
  wasIdle := false

/-- The four devices a core's port can have (R120 to R123, R167), each with its own state. Channels are
numbered by their place in `State.chans`. -/
inductive Device where
  /-- R120: no state -/
  | inert
  /-- R121: consumer handle of channel `cin`, producer handle of channel `cout` -/
  | blocking (cin cout : Nat)
  /-- R122: the register `lv` -/
  | latest (lv : Word)
  /-- R123: the two handles, `first_done`, the shared cell `idle`, and the write of `idle` that the last
  `get` still owes (R123 makes it an atomic action of its own; log 10) -/
  | nonblocking (cin cout : Nat) (firstDone : Bool) (idle : IdleCell) (idleNext : Option Bool)
  deriving DecidableEq, Repr

/-- One machine instance (R20, R31). -/
structure CoreState where
  /-- R26: the Program Store -/
  mem : Memory
  /-- R27: the Program's current length -/
  mlen : Nat
  /-- R22: address of the next instruction word, `0 .. 2^63 - 1` -/
  pc : Nat
  /-- R23: the relative base -/
  rb : Word
  /-- R24 -/
  halted : Bool
  /-- R25: `none` is the code 0, no fault -/
  fcause : Option FaultCode
  /-- R25: parameter index of the fault, or 0 -/
  finfo : Fin 4
  /-- R126: the core has dropped its handles after stopping -/
  released : Bool
  /-- R183: `Run` has made the core an active agent -/
  started : Bool
  /-- R20: the device bound to the port at construction -/
  dev : Device
  deriving DecidableEq, Repr

/-- R34: an instance right after `Load` of the memory `mem` of length `n` on the device `d`. -/
def CoreState.fresh (mem : Memory) (n : Nat) (d : Device) : CoreState where
  mem := mem
  mlen := n
  pc := 0
  rb := 0#64
  halted := false
  fcause := none
  finfo := 0
  released := false
  started := false
  dev := d

/-! ### Channels, Connectors, the orchestrator -/

/-- The agent that holds a handle (R114: "a handle is held by exactly one agent"). -/
inductive Holder where
  | host
  /-- the device of machine instance `k` -/
  | device (k : Nat)
  /-- Connector `j` -/
  | connector (j : Nat)
  | orchestrator
  deriving DecidableEq, Repr

/-- R114: a channel, with who holds its two handles. -/
structure Channel where
  /-- the queue, oldest first -/
  q : List Word
  /-- 1 while the producer handle exists -/
  txAlive : Bool
  /-- 1 while the consumer handle exists -/
  rxAlive : Bool
  txHolder : Holder
  rxHolder : Holder
  deriving DecidableEq, Repr

/-- R114, R181: a new channel, with the holders it is made for. -/
def Channel.fresh (tx rx : Holder) : Channel where
  q := []
  txAlive := true
  rxAlive := true
  txHolder := tx
  rxHolder := rx

/-- What a handle to a channel that does not exist acts on: closed on both sides, nothing queued
(log 11). -/
def Channel.gone : Channel where
  q := []
  txAlive := false
  rxAlive := false
  txHolder := .host
  rxHolder := .host

/-- R131, R132: a Connector. -/
structure Connector where
  /-- consumer handle of the upstream channel -/
  up : Nat
  /-- producer handles of the downstream channels, in registration order -/
  down : List Nat
  /-- the word received and not yet sent to every downstream -/
  cur : Option Word
  /-- index of the next downstream to send `cur` to -/
  k : Nat
  /-- it has terminated -/
  done : Bool
  deriving DecidableEq, Repr

/-- Where the orchestrator stands in its loop (R144 to R146); each names its next atomic action (log 16). -/
inductive OrchPhase where
  /-- the next `TryRecv` of the sweep, on the output channel of machine `i` -/
  | drain (i : Nat)
  /-- routing a group of machine `i`: the next action sends `x` to machine `d` -/
  | sendX (i d : Nat) (x y : Word)
  /-- routing a group of machine `i`: the next action sends `y` to machine `d` -/
  | sendY (i d : Nat) (y : Word)
  /-- idle detection: the next action reads the idle flag of machine `i` -/
  | check (i : Nat)
  /-- delivering the held pair: the next action sends `x` to machine 0 -/
  | deliverX (x y : Word)
  /-- delivering the held pair: the next action sends `y` to machine 0 -/
  | deliverY (x y : Word)
  /-- the pause between two sweeps (R146) -/
  | pause
  /-- the run has ended with this answer -/
  | ended (answer : Word)
  deriving DecidableEq, Repr

/-- What the orchestrator holds for one machine (R142). -/
structure NetNode where
  /-- the instance whose `idle` flag it reads -/
  machine : Nat
  /-- the input channel, whose producer handle it holds -/
  inCh : Nat
  /-- the output channel, whose consumer handle it holds -/
  outCh : Nat
  /-- `part`: words received that do not yet make a group of three -/
  part : List Word
  deriving DecidableEq, Repr

/-- R141, R142: the Network Orchestrator. -/
structure Orchestrator where
  /-- `NET_SENTINEL_ADDR` -/
  sentinel : Word
  /-- `IDLE_THRESHOLD` -/
  threshold : Nat
  /-- `NET_MODE` -/
  mode : NetMode
  /-- the machines, in address order; `NET_N` is their number -/
  nodes : List NetNode
  /-- `idle_count` -/
  idleCount : Nat
  /-- the "idle broadcast" holding register -/
  held : Option (Word × Word)
  /-- the pair most recently delivered from `held` -/
  lastSent : Option (Word × Word)
  /-- this sweep has routed at least one group (asked by R145) -/
  routed : Bool
  phase : OrchPhase
  deriving DecidableEq, Repr

/-! ### Turns -/

/-- The device a host asks for in `Load` (R124, R180); the channels of the two channel devices are made
with them. -/
inductive DeviceKind where
  | inert
  /-- `LATEST_INIT` comes from the host (R122) -/
  | latest (init : Word)
  | blocking
  | nonblocking
  deriving DecidableEq, Repr

/-- What the host may do (R6, R124, R131, R143, R180, R183, R186). A host `TryRecv` changes the state exactly as
`recv` does, so it has no entry of its own. -/
inductive HostAction where
  /-- `Send` on a producer handle it holds -/
  | send (ch : Nat) (v : Word)
  /-- `Recv` on a consumer handle it holds -/
  | recv (ch : Nat)
  /-- `DropTx` on a producer handle it holds -/
  | dropTx (ch : Nat)
  /-- `DropRx` on a consumer handle it holds -/
  | dropRx (ch : Nat)
  /-- a new channel, both handles the host's -/
  | newChannel
  /-- `Load(P, device)`: a new machine instance -/
  | load (program : List Word) (kind : DeviceKind)
  /-- `Load` from program text (R73) -/
  | loadText (text : List Char) (kind : DeviceKind)
  /-- `Run` of machine instance `k` (R183) -/
  | run (k : Nat)
  /-- construct a Connector, moving the handles into it, and run it (R131; log 29) -/
  | connect (up : Nat) (down : List Nat)
  /-- boot the Network Orchestrator over `n` machines (R143) -/
  | bootNetwork (program : List Word) (n : Nat) (sentinel : Word) (threshold : Nat) (mode : NetMode)
  /-- hand the far handles of these machine instances, in address order, to a new Network Orchestrator
  (R124; log 28) -/
  | handOver (machines : List Nat) (sentinel : Word) (threshold : Nat) (mode : NetMode)
  deriving DecidableEq, Repr

/-- Which agent takes the next step (R9: "any agent that has an enabled step may take it next"). -/
inductive Turn where
  /-- machine instance `k` takes its next step (R69) -/
  | core (k : Nat)
  /-- the device of instance `k` makes the write of `idle` it owes (R123) -/
  | settleIdle (k : Nat)
  /-- instance `k`, Halted, drops its handles (R126) -/
  | release (k : Nat)
  /-- the input handle of instance `k`, Faulted, is dropped (R160: it may or may not be) -/
  | faultedDropRx (k : Nat)
  /-- the output handle of instance `k`, Faulted, is dropped (R160: it may or may not be) -/
  | faultedDropTx (k : Nat)
  /-- Connector `j` takes its next step (R133 to R135) -/
  | connector (j : Nat)
  /-- the orchestrator takes its next atomic action (R144 to R146); where it reads an `idle` flag, it gets `seen` if
  the cell has held that value at or before the read, else the value the cell holds (R54; log 26) -/
  | orchestrator (seen : Bool)
  /-- the host acts (R186) -/
  | host (a : HostAction)
  deriving DecidableEq, Repr

/-! ### The whole state -/

/-- Everything the spec gives the machine. The instances are the list `before ++ core :: after`; `core` is
the one that `exec` acts on (log 7). -/
structure State where
  /-- R5: the parameters, written by no step -/
  params : Params
  /-- the machine instances numbered below the one in focus -/
  before : List CoreState
  /-- the machine instance in focus -/
  core : CoreState
  /-- the machine instances numbered above the one in focus -/
  after : List CoreState
  /-- R114: the channels, numbered by their place -/
  chans : List Channel
  /-- R130: the Connectors, numbered by their place -/
  conns : List Connector
  /-- R140: the Network Orchestrator, if the host has booted one -/
  orch : Option Orchestrator
  /-- the model's own (log 20): what the host has received, oldest first, each with its channel -/
  received : List (Nat × Word)
  /-- the model's own (log 6): the turns still to be taken; when there is none left, the instance in focus
  takes the next step -/
  schedule : List Turn
  deriving DecidableEq, Repr

/-- Why a run of the whole system stops. The six fatal faults of R150 are not here: taking one is a next
state, with `fcause` and `finfo` written (R13, R159; log 4). -/
inductive Fault where
  /-- R147, U19: the orchestrator's turn raises it when a `Send` to a machine answers `Fail`, when a
  `TryRecv` answers `Closed`, or when a group names neither a machine nor the sentinel address, and the
  host's turn when the first `Send` to a machine handed over answers `Fail`; "propagated up as a hard failure
  of the whole network run". Safe: the run goes no further. -/
  | orchestratorFailure
  deriving DecidableEq, Repr

/-- Why the model does not take a step at all. -/
inductive Refusal where
  /-- an instruction that has no meaning yet; raised by `exec` for a refused arm, of which this model has
  none. Safe. -/
  | notModelled (mnemonic : String)
  /-- U23: raised by the host's turn when it uses or hands over a handle it does not hold, runs an instance
  that does not exist, makes a Connector without downstreams, or makes a network with parameters R141 does not
  allow; the spec says to refuse. Safe. -/
  | hostMisuse
  /-- U21, U22: raised by the host's turn when the text is no program or the program is longer than
  `MEM_LIMIT`; the spec says to refuse. Safe. -/
  | loadRefused
  deriving DecidableEq, Repr

/-- R34, R180: the machine right after `Load` of the empty program on the Inert device, with the spec's
default parameters, nothing else constructed, not yet run, and no turns planned (log 8). -/
def State.reset : State where
  params :=
    { ovf := .fault
      memLimit := 9223372036854775807
      nbSentinel := -1 }
  before := []
  core := CoreState.fresh [] 0 .inert
  after := []
  chans := []
  conns := []
  orch := none
  received := []
  schedule := []

end Sys2Proof.Machine
end

