-- ==== Sys2Proof/Machine/Ops.lean ====
section
/-!
DEFINITION. The operations every instruction is written over: memory with growth (R42 to R44), the
registers, taking a fatal fault (R13, R159), and the machine instances of a system.
-/
namespace Sys2Proof.Machine

/-! ### Memory -/

/-- The word at an address: 0 where nothing is listed (R42, R48). -/
def Memory.read : Memory → Nat → Word
  | [], _ => 0#64
  | (k, v) :: rest, a => if a = k then v else Memory.read rest a

/-- Store a word at an address (R43), keeping the canonical form: storing 0 removes the entry. -/
def Memory.write : Memory → Nat → Word → Memory
  | [], a, v => if v = 0#64 then [] else [(a, v)]
  | (k, w) :: rest, a, v =>
    if a < k then (if v = 0#64 then (k, w) :: rest else (a, v) :: (k, w) :: rest)
    else if a = k then (if v = 0#64 then rest else (a, v) :: rest)
    else (k, w) :: Memory.write rest a v

/-- The canonical form: addresses strictly rising, no entry 0. -/
def Memory.wf : Memory → Bool
  | [] => true
  | (k, v) :: rest =>
    decide (v ≠ 0#64) && (match rest with | [] => true | (k', _) :: _ => decide (k < k')) && Memory.wf rest

/-- The memory that holds the words of a program at consecutive addresses (R34). -/
def Memory.ofWords (a : Nat) : List Word → Memory
  | [] => []
  | w :: ws => if w = 0#64 then Memory.ofWords (a + 1) ws else (a, w) :: Memory.ofWords (a + 1) ws

/-- Store consecutive words. -/
def Memory.writeWords (m : Memory) (a : Nat) : List Word → Memory
  | [] => m
  | w :: ws => Memory.writeWords (m.write a w) (a + 1) ws

/-! ### One instance -/

/-- R42, R43: "if `a >= mlen` then `mlen <- a + 1`". -/
def CoreState.grow (c : CoreState) (a : Nat) : CoreState := { c with mlen := max c.mlen (a + 1) }

/-- R42, R45: `MemRead(a, 1)` on behalf of parameter `i` (0 for the fetch), at an address that is not
negative: the limit first, then growth, then the word. -/
def memRead (p : Params) (i : Fin 4) (a : Nat) (c : CoreState) : Except Raise (Word × CoreState) :=
  if p.memLimit ≤ a then .error ⟨.memoryLimit, i⟩ else .ok (c.mem.read a, c.grow a)

/-- R43: `MemWrite(a, 1, v)`. -/
def CoreState.memWrite (c : CoreState) (a : Nat) (v : Word) : CoreState :=
  { c.grow a with mem := c.mem.write a v }

/-- The instance after the fetch of its instruction word (R69 line 1): the fetch is an ordinary read, so
it grows the store (R44). -/
def CoreState.fetched (c : CoreState) : CoreState := c.grow c.pc

/-- R69 line 9: `pc <- pc + width`. -/
def CoreState.advance (c : CoreState) (n : Nat) : CoreState := { c with pc := c.pc + n }

/-- R69 line 9: `pc <- target`. -/
def CoreState.jump (c : CoreState) (t : Nat) : CoreState := { c with pc := t }

/-- R24: `halted <- 1`. -/
def CoreState.halt (c : CoreState) : CoreState := { c with halted := true }

/-- R100: `rb <- v`. -/
def CoreState.setRb (c : CoreState) (v : Word) : CoreState := { c with rb := v }

/-- R25, R150: the code a fault has in `fcause`. -/
def FaultCode.code : FaultCode → Nat
  | .invalidOpcode => 1
  | .invalidMode => 2
  | .immediateDestination => 3
  | .negativeAddress => 4
  | .memoryLimit => 5
  | .arithmeticOverflow => 6

/-- R25: the number in `fcause`. -/
def CoreState.fcauseCode (c : CoreState) : Nat :=
  match c.fcause with
  | none => 0
  | some f => f.code

/-- R32: the status of a core. -/
def CoreState.status (c : CoreState) : Status :=
  match c.fcause with
  | some _ => .faulted
  | none => if c.halted then .halted else .running

/-- R183: `Run` makes the core an active agent. -/
def CoreState.start (c : CoreState) : CoreState := { c with started := true }

/-- R32, R183: a core takes steps from its `Run` on, while its status is Running. -/
def CoreState.active (c : CoreState) : Bool := c.started && decide (c.status = .running)

/-- R13, R159: entering a fatal fault writes `fcause` and `finfo` and nothing else. -/
def CoreState.raise (c : CoreState) (e : Raise) : CoreState :=
  { c with fcause := some e.fault, finfo := e.info }

/-- R61 to R64, R150: the fault a rejected instruction word raises. Memory never ends, so a fetch meets no
truncated list; the arm stands for totality. -/
def decodeRaise : DecodeError → Raise
  | .invalidOpcode => ⟨.invalidOpcode, 0⟩
  | .invalidMode i => ⟨.invalidMode, i⟩
  | .truncated => ⟨.invalidOpcode, 0⟩

/-! ### The instance in focus, and the others -/

/-- Replace the instance in focus. -/
def State.setCore (s : State) (c : CoreState) : State := { s with core := c }

/-- TAKING A FATAL FAULT (R13, R159), the one operation for it: on the state as it was before the step, so
every change of the step is discarded; the core in focus gets `fcause` and `finfo`. There is no return from
it (R162). -/
def State.raise (s : State) (e : Raise) : State := s.setCore (s.core.raise e)

/-- The end of an instruction that uses no port: a fault discards everything the step did, otherwise the
instance as the instruction left it. -/
def complete (s : State) (r : Except Raise CoreState) : Host.Outcome State Fault Refusal :=
  match r with
  | .error e => .next (s.raise e)
  | .ok c => .next (s.setCore c)

/-- R168: all machine instances, in order. -/
def State.instances (s : State) : List CoreState := s.before ++ s.core :: s.after

/-- Put instance `k` in focus; nothing changes if there is no such instance. -/
def State.focus (s : State) (k : Nat) : State :=
  match s.instances[k]? with
  | some c => { s with before := s.instances.take k, core := c, after := s.instances.drop (k + 1) }
  | none => s

/-- Change instance `k`, leaving the focus where it is; nothing changes if there is no such instance. -/
def State.modifyInstance (s : State) (k : Nat) (f : CoreState → CoreState) : State :=
  if k < s.before.length then { s with before := s.before.modify k f }
  else if k = s.before.length then s.setCore (f s.core)
  else { s with after := s.after.modify (k - s.before.length - 1) f }

/-- A new instance, numbered after all others. -/
def State.addInstance (s : State) (c : CoreState) : State := { s with after := s.after ++ [c] }

end Sys2Proof.Machine
end

