-- ==== Sys2Proof/Machine/Flags.lean ====
section
/-!
DEFINITION. The results instructions compute. The machine has no condition codes (R28): comparisons give
the word 1 or 0, a jump tests an operand against zero, and the only way a result can fail to be a word is
the overflow of `alu` (R12).
-/
namespace Sys2Proof.Machine

/-- R12: the exact result is in the word range. -/
def fitsWord (z : Int) : Bool := decide (Word.minZ ≤ z ∧ z ≤ Word.maxZ)

/-- R12: `wrap64(z) = ((z + 2^63) mod 2^64) - 2^63`. -/
def wrap64 (z : Int) : Int := (z + 9223372036854775808) % 18446744073709551616 - 9223372036854775808

/-- R12: `alu(z)`. -/
def alu (p : Params) (z : Int) : Except Raise Word :=
  if fitsWord z then .ok (Word.ofZ z)
  else
    match p.ovf with
    | .wrap => .ok (Word.ofZ (wrap64 z))
    | .fault => .error ⟨.arithmeticOverflow, 0⟩

/-- R80: `alu(a + b)`, the sum exact. -/
def sumOf (p : Params) (a b : Word) : Except Raise Word := alu p (a.toInt + b.toInt)

/-- R81: `alu(a * b)`, the product exact and signed. -/
def productOf (p : Params) (a b : Word) : Except Raise Word := alu p (a.toInt * b.toInt)

/-- R95, R96: a comparison's result is the word 1 or the word 0. -/
def boolWord (b : Bool) : Word := if b then 1#64 else 0#64

/-- R95: `a < b`, signed; never a fault (R82 (e)). -/
def lessOf (a b : Word) : Word := boolWord (decide (a.toInt < b.toInt))

/-- R96: `a = b`, on the whole words. -/
def equalOf (a b : Word) : Word := boolWord (decide (a = b))

/-- R90, R91: the zero test of a jump's condition. -/
def isZero (a : Word) : Bool := decide (a = 0#64)

end Sys2Proof.Machine
end

