-- ==== Sys2Proof/Machine/Operands.lean ====
section
/-!
DEFINITION. Operand resolution: `param`, `val`, `dst` (R66, R67, R68), line by line as the spec writes
them. Each takes the instance as the parameters before it left it and gives it back with the growth of its
own reads (R44, R50).
-/
namespace Sys2Proof.Machine

/-- R66: `param(i) = MemRead(pc + i, 1)`, with MemoryLimit(i) on its address. -/
def param (p : Params) (i : Fin 4) (c : CoreState) : Except Raise (Word × CoreState) :=
  memRead p i (c.pc + i.val) c

/-- R67, R68: the effective address of a parameter word, an exact integer: the word itself in Position
mode, `word + rb` in Relative mode, never wrapped (D10). An Immediate parameter has no address; the arm
gives the word. -/
def effective (m : Mode) (w rb : Word) : Int :=
  match m with
  | .position => w.toInt
  | .immediate => w.toInt
  | .relative => w.toInt + rb.toInt

/-- R45 (a): a negative effective address raises NegativeAddress(i). -/
def nonNegative (i : Fin 4) (a : Int) : Except Raise Nat :=
  if a < 0 then .error ⟨.negativeAddress, i⟩ else .ok a.toNat

/-- R45 (b): an address of `MEM_LIMIT` or more raises MemoryLimit(i). -/
def belowLimit (p : Params) (i : Fin 4) (a : Nat) : Except Raise Nat :=
  if p.memLimit ≤ a then .error ⟨.memoryLimit, i⟩ else .ok a

/-- R67: `val(i)`. -/
def val (p : Params) (i : Fin 4) (m : Mode) (c : CoreState) : Except Raise (Word × CoreState) := do
  let (w, c) ← param p i c
  match m with
  | .immediate => pure (w, c)
  | .position =>
    let a ← nonNegative i (effective .position w c.rb)
    memRead p i a c
  | .relative =>
    let a ← nonNegative i (effective .relative w c.rb)
    memRead p i a c

/-- R68: `dst(i)`. The destination cell itself is not read. -/
def dst (p : Params) (i : Fin 4) (m : Mode) (c : CoreState) : Except Raise (Nat × CoreState) := do
  let (w, c) ← param p i c
  match m with
  | .immediate => .error ⟨.immediateDestination, i⟩
  | .position =>
    let a ← nonNegative i (effective .position w c.rb)
    let a ← belowLimit p i a
    pure (a, c)
  | .relative =>
    let a ← nonNegative i (effective .relative w c.rb)
    let a ← belowLimit p i a
    pure (a, c)

/-- The two values of JumpTrue, JumpFalse and of the three-parameter instructions, each resolved completely
before the next (R69 line 6). -/
def twoValues (p : Params) (m1 m2 : Mode) (c : CoreState) : Except Raise (Word × Word × CoreState) := do
  let (a, c) ← val p 1 m1 c
  let (b, c) ← val p 2 m2 c
  pure (a, b, c)

end Sys2Proof.Machine
end

