-- ==== Sys2Proof/Machine/Arithmetic.lean ====
section
/-!
DEFINITION. Add and Multiply (spec/40_arithmetic.md), and the shape they share with LessThan and Equal:
two values, a destination, one word stored.
-/
namespace Sys2Proof.Machine

/-- Format F3 (R60): resolve two values and a destination in order (R69 line 6), compute (line 7), store
(line 8), and pass the four words (line 9). -/
def storeResult (p : Params) (f : Word → Word → Except Raise Word) (m1 m2 m3 : Mode) (c : CoreState) :
    Except Raise CoreState := do
  let (a, b, c) ← twoValues p m1 m2 c
  let (d, c) ← dst p 3 m3 c
  let r ← f a b
  pure ((c.memWrite d r).advance 4)

/-- R80: Add. -/
def execAdd (m1 m2 m3 : Mode) (s : State) : Host.Outcome State Fault Refusal :=
  complete s (storeResult s.params (sumOf s.params) m1 m2 m3 s.core.fetched)

/-- R81: Multiply. -/
def execMultiply (m1 m2 m3 : Mode) (s : State) : Host.Outcome State Fault Refusal :=
  complete s (storeResult s.params (productOf s.params) m1 m2 m3 s.core.fetched)

end Sys2Proof.Machine
end

