-- ==== Sys2Proof/Machine/Base.lean ====
section
/-! DEFINITION. ChangeRelative (spec/44_base_adjust.md) and Halt (spec/45_halt.md). -/
namespace Sys2Proof.Machine

/-- R100: `rb <- alu(rb + val(1))`; a Relative operand uses the old `rb`. -/
def adjustBase (p : Params) (m1 : Mode) (c : CoreState) : Except Raise CoreState := do
  let (a, c) ← val p 1 m1 c
  let r ← sumOf p c.rb a
  pure ((c.setRb r).advance 2)

/-- R100: ChangeRelative. -/
def execChangeRelative (m1 : Mode) (s : State) : Host.Outcome State Fault Refusal :=
  complete s (adjustBase s.params m1 s.core.fetched)

/-- R105: Halt; no parameter word is read (D14), and `pc` passes the instruction (C8, D17). -/
def execHalt (s : State) : Host.Outcome State Fault Refusal :=
  complete s (.ok (s.core.fetched.halt.advance 1))

end Sys2Proof.Machine
end

