-- ==== Sys2Proof/Machine/Branch.lean ====
section
/-! DEFINITION. JumpTrue and JumpFalse (spec/42_branch.md). -/
namespace Sys2Proof.Machine

/-- R90, R91: both values are resolved whether or not the jump is taken (D12); a taken jump with a negative
target raises NegativeAddress(2) (D11); a target that is not taken is not checked. -/
def jumpWhen (p : Params) (taken : Word → Bool) (m1 m2 : Mode) (c : CoreState) : Except Raise CoreState := do
  let (a, t, c) ← twoValues p m1 m2 c
  if taken a then
    let t ← nonNegative 2 t.toInt
    pure (c.jump t)
  else pure (c.advance 3)

/-- R90: JumpTrue. -/
def execJumpTrue (m1 m2 : Mode) (s : State) : Host.Outcome State Fault Refusal :=
  complete s (jumpWhen s.params (fun a => !isZero a) m1 m2 s.core.fetched)

/-- R91: JumpFalse. -/
def execJumpFalse (m1 m2 : Mode) (s : State) : Host.Outcome State Fault Refusal :=
  complete s (jumpWhen s.params isZero m1 m2 s.core.fetched)

end Sys2Proof.Machine
end

