-- ==== Sys2Proof/Machine/Compare.lean ====
section
/-! DEFINITION. LessThan and Equal (spec/43_compare.md). -/
namespace Sys2Proof.Machine

/-- R95: LessThan. -/
def execLessThan (m1 m2 m3 : Mode) (s : State) : Host.Outcome State Fault Refusal :=
  complete s (storeResult s.params (fun a b => .ok (lessOf a b)) m1 m2 m3 s.core.fetched)

/-- R96: Equal. -/
def execEqual (m1 m2 m3 : Mode) (s : State) : Host.Outcome State Fault Refusal :=
  complete s (storeResult s.params (fun a b => .ok (equalOf a b)) m1 m2 m3 s.core.fetched)

end Sys2Proof.Machine
end

