-- ==== Sys2Proof/Machine/Port.lean ====
section
/-!
DEFINITION. Channels (R114 to R119), the four devices (R120 to R123) and the core's I/O port (R110 to
R113). A transaction answers `ok`, `fail` or `wait`; `wait` means that it cannot complete yet (R112).
-/
namespace Sys2Proof.Machine

/-- The answer of a port or channel transaction. -/
inductive Reply (α : Type) where
  /-- `Ok` -/
  | ok (a : α)
  /-- `Fail`: the peer is gone -/
  | fail
  /-- the transaction cannot complete yet (R112) -/
  | wait
  deriving DecidableEq, Repr

/-- The answer of `TryRecv` (R117). -/
inductive TryReply where
  | value (v : Word)
  | empty
  | closed
  deriving DecidableEq, Repr

/-! ### Channel operations -/

/-- R115: `Send(ch, v)`; it never waits. -/
def Channel.send (ch : Channel) (v : Word) : Reply Unit × Channel :=
  if ch.rxAlive then (.ok (), { ch with q := ch.q ++ [v] }) else (.fail, ch)

/-- R116: `Recv(ch)`; queued values are delivered before `Fail` is ever answered. -/
def Channel.recv (ch : Channel) : Reply Word × Channel :=
  match ch.q with
  | v :: rest => (.ok v, { ch with q := rest })
  | [] => if ch.txAlive then (.wait, ch) else (.fail, ch)

/-- R117: `TryRecv(ch)`; it never waits. -/
def Channel.tryRecv (ch : Channel) : TryReply × Channel :=
  match ch.q with
  | v :: rest => (.value v, { ch with q := rest })
  | [] => if ch.txAlive then (.empty, ch) else (.closed, ch)

/-- R118: `DropTx(ch)`. -/
def Channel.dropTx (ch : Channel) : Channel := { ch with txAlive := false }

/-- R118: `DropRx(ch)`; the queue is not emptied. -/
def Channel.dropRx (ch : Channel) : Channel := { ch with rxAlive := false }

/-! ### The channels of a system -/

/-- Channel number `i`; a handle to a channel that does not exist acts on a closed one (log 11). -/
def State.chan (s : State) (i : Nat) : Channel := s.chans.getD i Channel.gone

/-- Replace channel number `i`. -/
def State.setChan (s : State) (i : Nat) (ch : Channel) : State := { s with chans := s.chans.set i ch }

/-- Apply an operation to channel number `i`. -/
def State.modChan (s : State) (i : Nat) (f : Channel → Channel) : State := s.setChan i (f (s.chan i))

/-- `Send` on channel number `i`. -/
def State.send (s : State) (i : Nat) (v : Word) : Reply Unit × State :=
  match (s.chan i).send v with
  | (r, ch) => (r, s.setChan i ch)

/-- `Recv` on channel number `i`. -/
def State.recv (s : State) (i : Nat) : Reply Word × State :=
  match (s.chan i).recv with
  | (r, ch) => (r, s.setChan i ch)

/-- `TryRecv` on channel number `i`. -/
def State.tryRecv (s : State) (i : Nat) : TryReply × State :=
  match (s.chan i).tryRecv with
  | (r, ch) => (r, s.setChan i ch)

/-! ### The devices -/

/-- Replace the state of a core's device. -/
def CoreState.setDev (c : CoreState) (d : Device) : CoreState := { c with dev := d }

/-- Replace the state of the device of the core in focus. -/
def State.setDev (s : State) (d : Device) : State := s.setCore (s.core.setDev d)

/-- The two channels of a channel device, input first. -/
def Device.handles : Device → Option (Nat × Nat)
  | .inert => none
  | .blocking cin cout => some (cin, cout)
  | .latest _ => none
  | .nonblocking cin cout _ _ _ => some (cin, cout)

/-- R123, R149: a write of the shared `idle` cell. -/
def IdleCell.write (c : IdleCell) (b : Bool) : IdleCell where
  value := b
  wasIdle := c.wasIdle || c.value

/-- R54: the cell holds this value, or has held it. -/
def IdleCell.held (c : IdleCell) (b : Bool) : Bool := !b || c.value || c.wasIdle

/-- R54: a read of the cell gives some value it has held at or before the read: `seen`, if that is one of them, else
the value it holds (log 26). -/
def IdleCell.read (c : IdleCell) (seen : Bool) : Bool := if c.held seen then seen else c.value

/-- R123: the second action of a `get`, the write of the shared `idle` cell, if one is owed. -/
def Device.settle : Device → Device
  | .inert => .inert
  | .blocking cin cout => .blocking cin cout
  | .latest lv => .latest lv
  | .nonblocking cin cout first idle none => .nonblocking cin cout first idle none
  | .nonblocking cin cout first idle (some b) => .nonblocking cin cout first (idle.write b) none

/-- R123: the write of `idle` by the device of this instance. -/
def CoreState.settleIdle (c : CoreState) : CoreState := c.setDev c.dev.settle

/-- R123: the shared `idle` cell. Only the Non-blocking-with-status device has one; for the others it stands as
a new one would. -/
def Device.idleCell : Device → IdleCell
  | .inert => .fresh
  | .blocking _ _ => .fresh
  | .latest _ => .fresh
  | .nonblocking _ _ _ idle _ => idle

/-- R122: the register of the Latest-value device. -/
def Device.latestValue : Device → Option Word
  | .latest lv => some lv
  | .inert => none
  | .blocking _ _ => none
  | .nonblocking _ _ _ _ _ => none

/-- R123: the first, blocking `get` of the Non-blocking-with-status device; `first_done` is set when the
call answers. -/
def firstGet (s : State) (cin cout : Nat) (idle : IdleCell) (owed : Option Bool) : Reply Word × State :=
  match s.recv cin with
  | (.ok v, t) => (.ok v, t.setDev (.nonblocking cin cout true idle (some false)))
  | (.fail, t) => (.fail, t.setDev (.nonblocking cin cout true idle owed))
  | (.wait, _) => (.wait, s)

/-- R123: every later `get` of the Non-blocking-with-status device; it never waits. -/
def laterGet (s : State) (cin cout : Nat) (idle : IdleCell) : Reply Word × State :=
  match s.tryRecv cin with
  | (.value v, t) => (.ok v, t.setDev (.nonblocking cin cout true idle (some false)))
  | (.empty, t) => (.ok s.params.nbSentinel, t.setDev (.nonblocking cin cout true idle (some true)))
  | (.closed, _) => (.fail, s)

/-- R110: `IoGet()` on the port of the core in focus (R120 to R123). On `wait` nothing has changed. -/
def ioGet (s : State) : Reply Word × State :=
  match s.core.dev with
  | .inert => (.ok 0#64, s)
  | .blocking cin _ => s.recv cin
  | .latest lv => (.ok lv, s)
  | .nonblocking cin cout false idle owed => firstGet s cin cout idle owed
  | .nonblocking cin cout true idle _ => laterGet s cin cout idle

/-- R111: `IoPut(v)` on the port of the core in focus (R120 to R123). No device of the spec answers `wait`
here (R112, C11); the core's meaning of Output allows it all the same (log 22). -/
def ioPut (s : State) (v : Word) : Reply Unit × State :=
  match s.core.dev with
  | .inert => (.ok (), s)
  | .blocking _ cout => s.send cout v
  | .latest _ => (.ok (), s.setDev (.latest v))
  | .nonblocking _ cout _ _ _ => s.send cout v

end Sys2Proof.Machine
end

