-- ==== Sys2Proof/Machine/InputOutput.lean ====
section
/-!
DEFINITION. Input and Output (spec/41_io.md). All faults come before the one port transaction (D13); a
`Fail` halts the core with `pc` at the instruction (D17) and keeps the growth of the reads (D19); while the
port cannot answer, nothing changes (R112).
-/
namespace Sys2Proof.Machine

/-- R85: Input. -/
def execInput (m1 : Mode) (s : State) : Host.Outcome State Fault Refusal :=
  match dst s.params 1 m1 s.core.fetched with
  | .error e => .next (s.raise e)
  | .ok (d, c) =>
    match ioGet (s.setCore c) with
    | (.ok v, t) => .next (t.setCore ((t.core.memWrite d v).advance 2))
    | (.fail, t) => .next (t.setCore t.core.halt)
    | (.wait, _) => .next s

/-- R86: Output. -/
def execOutput (m1 : Mode) (s : State) : Host.Outcome State Fault Refusal :=
  match val s.params 1 m1 s.core.fetched with
  | .error e => .next (s.raise e)
  | .ok (a, c) =>
    match ioPut (s.setCore c) a with
    | (.ok _, t) => .next (t.setCore (t.core.advance 2))
    | (.fail, t) => .next (t.setCore t.core.halt)
    | (.wait, _) => .next s

end Sys2Proof.Machine
end

