-- ==== Sys2Proof/Machine/Dispatch.lean ====
section
/-! DEFINITION. One arm per constructor of Instr: the meaning of an instruction on the core in focus. -/
namespace Sys2Proof.Machine

def exec (i : Instr) (s : State) : Host.Outcome State Fault Refusal :=
  match i with
  | .add m1 m2 m3 => Sys2Proof.Machine.execAdd m1 m2 m3 s
  | .multiply m1 m2 m3 => Sys2Proof.Machine.execMultiply m1 m2 m3 s
  | .input m1 => Sys2Proof.Machine.execInput m1 s
  | .output m1 => Sys2Proof.Machine.execOutput m1 s
  | .jumpTrue m1 m2 => Sys2Proof.Machine.execJumpTrue m1 m2 s
  | .jumpFalse m1 m2 => Sys2Proof.Machine.execJumpFalse m1 m2 s
  | .lessThan m1 m2 m3 => Sys2Proof.Machine.execLessThan m1 m2 m3 s
  | .equal m1 m2 m3 => Sys2Proof.Machine.execEqual m1 m2 m3 s
  | .changeRelative m1 => Sys2Proof.Machine.execChangeRelative m1 s
  | .halt => Sys2Proof.Machine.execHalt s

end Sys2Proof.Machine
end

