-- ==== Sys2Proof/Machine/Cycle.lean ====
section
/-!
DEFINITION. The turn of a core: fetch, decode, execute (R69), only from `Run` on and in status Running (R32,
R183); and the turns that follow its end: Release (R126), and the drop of a Faulted core's handles (R160).
-/
namespace Sys2Proof.Machine

/-- R69 lines 2 to 5: the decoder's answer, a rejection as the fault it raises. -/
def decodeOrRaise (w : Word) : Except Raise Instr :=
  match decode w with
  | .ok i => .ok i
  | .error e => .error (decodeRaise e)

/-- R69 lines 1 to 5: fetch the instruction word at `pc` and decode it. -/
def fetch (p : Params) (c : CoreState) : Except Raise Instr := do
  let (w, _) ← memRead p 0 c.pc c
  decodeOrRaise w

/-- R69: one step of the core in focus, which is active. -/
def cycle (s : State) : Host.Outcome State Fault Refusal :=
  match fetch s.params s.core with
  | .error e => .next (s.raise e)
  | .ok i => exec i s

/-- The turn of the core in focus. A write of `idle` that its device owes comes first, since the `get` it
belongs to is over before the next instruction starts (log 10). A core that is not Running, or that has not
been run, has no step: its turn leaves the state as it is (R32, R183; log 5). -/
def coreTurn (s : State) : Host.Outcome State Fault Refusal :=
  if s.core.active then cycle (s.setCore s.core.settleIdle) else .next s

/-- The turn of instance `k`: it comes into focus and takes its step (R168). -/
def instanceTurn (s : State) (k : Nat) : Host.Outcome State Fault Refusal :=
  if k < s.instances.length then coreTurn (s.focus k) else .next s

/-- R126: whether `Release` is enabled for an instance: Halted, holding channel handles, not released. -/
def releaseHandles (c : CoreState) : Option (Nat × Nat) :=
  match c.status with
  | .halted => if c.released then none else c.dev.handles
  | .running => none
  | .faulted => none

/-- R126: `DropRx(cin)`, `DropTx(cout)`, `released <- 1`. -/
def releaseTurn (s : State) (k : Nat) : State :=
  match (s.instances[k]?).bind releaseHandles with
  | some (cin, cout) =>
    ((s.modChan cin Channel.dropRx).modChan cout Channel.dropTx).modifyInstance k
      fun c => { c with released := true }
  | none => s

/-- R160: the handles of a Faulted instance, which may or may not be dropped. -/
def faultedHandles (c : CoreState) : Option (Nat × Nat) :=
  match c.status with
  | .faulted => c.dev.handles
  | .running => none
  | .halted => none

/-- R160: the input handle of a Faulted instance is dropped. -/
def faultedDropRxTurn (s : State) (k : Nat) : State :=
  match (s.instances[k]?).bind faultedHandles with
  | some (cin, _) => s.modChan cin Channel.dropRx
  | none => s

/-- R160: the output handle of a Faulted instance is dropped. -/
def faultedDropTxTurn (s : State) (k : Nat) : State :=
  match (s.instances[k]?).bind faultedHandles with
  | some (_, cout) => s.modChan cout Channel.dropTx
  | none => s

end Sys2Proof.Machine
end

