-- ==== Sys2Proof/Machine/HostSide.lean ====
section
/-!
DEFINITION. The host's side: program text (R73), `Load` and `Run` (R34, R180, R183), channels, Connectors, the
boot of a network (R124, R131, R143), sends, receives and drops (R186), and what `Run` and `Inspect` answer
(R171, R184).
-/
namespace Sys2Proof.Machine

/-! ### Program text (R73) -/

/-- R73: remove every line break (line feed and carriage return; log 14). -/
def joinLines (text : List Char) : List Char := text.filter fun ch => ch ≠ '\n' ∧ ch ≠ '\r'

/-- R73: split at every comma. -/
def splitCommas : List Char → List (List Char)
  | [] => [[]]
  | ch :: rest =>
    match splitCommas rest with
    | [] => [[ch]]
    | piece :: pieces => if ch = ',' then [] :: piece :: pieces else (ch :: piece) :: pieces

/-- R73: spaces and tabs around a piece. -/
def isBlank (ch : Char) : Bool := ch = ' ' || ch = '\t'

/-- R73: strip spaces and tabs around a piece. -/
def stripBlanks (cs : List Char) : List Char := ((cs.dropWhile isBlank).reverse.dropWhile isBlank).reverse

/-- The value of a decimal digit. -/
def digitValue (ch : Char) : Option Nat :=
  if '0' ≤ ch ∧ ch ≤ '9' then some (ch.toNat - '0'.toNat) else none

/-- Read decimal digits after those that gave `acc`. -/
def readDigits (acc : Nat) : List Char → Option Nat
  | [] => some acc
  | ch :: rest =>
    match digitValue ch with
    | some d => readDigits (acc * 10 + d) rest
    | none => none

/-- R73: one or more decimal digits. -/
def readNat : List Char → Option Nat
  | [] => none
  | ch :: rest => readDigits 0 (ch :: rest)

/-- R73: an optional `-` followed by one or more decimal digits. -/
def readInt : List Char → Option Int
  | '-' :: rest => (readNat rest).map fun n => -(n : Int)
  | cs => (readNat cs).map fun n => (n : Int)

/-- R73: one piece as a word; `none` where it denotes no integer of the word range. -/
def readPiece (cs : List Char) : Option Word :=
  match readInt (stripBlanks cs) with
  | some z => if Word.minZ ≤ z ∧ z ≤ Word.maxZ then some (Word.ofZ z) else none
  | none => none

/-- R73: the words of a program text; `none` where the text is not a program. -/
def parseProgram (text : List Char) : Option (List Word) := (splitCommas (joinLines text)).mapM readPiece

/-! ### Load -/

/-- R34, R180: a machine instance right after `Load(P, d)`. -/
def CoreState.load (program : List Word) (d : Device) : CoreState :=
  CoreState.fresh (Memory.ofWords 0 program) program.length d

/-- R180: a system of one machine instance, right after `Load(P, d)` of a device without channels. -/
def State.loaded (p : Params) (program : List Word) (d : Device) : State :=
  { State.reset with params := p, core := CoreState.load program d }

/-- Append a channel; its number is the number of channels before it. -/
def State.addChan (s : State) (ch : Channel) : State := { s with chans := s.chans ++ [ch] }

/-- R124: the device the host asks for. A channel device gets the consumer handle of a new input channel and
the producer handle of a new output channel; the host gets the other two. -/
def attach (s : State) (kind : DeviceKind) : State × Device :=
  match kind with
  | .inert => (s, .inert)
  | .latest v => (s, .latest v)
  | .blocking =>
    ((s.addChan (Channel.fresh .host (.device s.instances.length))).addChan
        (Channel.fresh (.device s.instances.length) .host),
      .blocking s.chans.length (s.chans.length + 1))
  | .nonblocking =>
    ((s.addChan (Channel.fresh .host (.device s.instances.length))).addChan
        (Channel.fresh (.device s.instances.length) .host),
      .nonblocking s.chans.length (s.chans.length + 1) false .fresh none)

/-- R180: `Load(P, device)` makes a new machine instance, numbered after all others. -/
def State.loadInstance (s : State) (program : List Word) (kind : DeviceKind) : State :=
  match attach s kind with
  | (t, d) => t.addInstance (CoreState.load program d)

/-- R180, U22: `Load` requires the program to fit below `MEM_LIMIT`. -/
def hostLoad (s : State) (program : List Word) (kind : DeviceKind) : Host.Outcome State Fault Refusal :=
  if program.length ≤ s.params.memLimit then .next (s.loadInstance program kind)
  else .refused .loadRefused

/-- R183: `Run` of instance `k`. A core that has stopped takes no step for it. -/
def hostRun (s : State) (k : Nat) : Host.Outcome State Fault Refusal :=
  if k < s.instances.length then .next (s.modifyInstance k CoreState.start) else .refused .hostMisuse

/-! ### Handles -/

/-- The host holds the producer handle of channel `i` (R186: it uses no handle it has moved away). -/
def State.hostTx (s : State) (i : Nat) : Bool := (s.chan i).txHolder = .host && (s.chan i).txAlive

/-- The host holds the consumer handle of channel `i`. -/
def State.hostRx (s : State) (i : Nat) : Bool := (s.chan i).rxHolder = .host && (s.chan i).rxAlive

/-- R186: the host receives on channel `i`; what it gets is kept, oldest first. While the channel cannot
answer, or answers `Fail`, nothing changes. -/
def hostRecv (s : State) (i : Nat) : State :=
  match s.recv i with
  | (.ok v, t) => { t with received := t.received ++ [(i, v)] }
  | (.fail, _) => s
  | (.wait, _) => s

/-- R131: move the handles of a new Connector `j` into it. -/
def moveTx (s : State) (h : Holder) : List Nat → State
  | [] => s
  | d :: rest => moveTx (s.modChan d fun ch => { ch with txHolder := h }) h rest

/-- R131: a Connector can be made of a consumer handle and one or more distinct producer handles, all of
them the host's. -/
def State.canConnect (s : State) (up : Nat) (down : List Nat) : Bool :=
  s.hostRx up && !down.isEmpty && decide down.Nodup && down.all s.hostTx

/-- R131, R132: the host constructs a Connector, which may act from then on: constructing it and running it
(R131, R188) are one action of the host (DESIGN CHOICE, log 29). -/
def hostConnect (s : State) (up : Nat) (down : List Nat) : Host.Outcome State Fault Refusal :=
  if s.canConnect up down then
    let j := s.conns.length
    let t := moveTx (s.modChan up fun ch => { ch with rxHolder := .connector j }) (.connector j) down
    .next { t with conns := t.conns ++ [{ up := up, down := down, cur := none, k := 0, done := false }] }
  else .refused .hostMisuse

/-! ### The network -/

/-- R143: the machine of node `n` joins a network at address `i`: the orchestrator takes the far handles of its
device, sends it the address, and the machine is run as an agent of its own. -/
def enrol (s : State) (i : Nat) (n : NetNode) : State :=
  (((s.modChan n.inCh fun ch => { ch with txHolder := .orchestrator }).modChan n.outCh fun ch =>
      { ch with rxHolder := .orchestrator }).send n.inCh (BitVec.ofNat 64 i)).2.modifyInstance n.machine
    CoreState.start

/-- R143: the machines of these nodes join at the addresses from `i` on. -/
def enrolAll (s : State) (i : Nat) : List NetNode → State
  | [] => s
  | n :: rest => enrolAll (enrol s i n) (i + 1) rest

/-- R142, R143, R181: a network of these machines, the orchestrator at the start of its first sweep. -/
def openNetwork (s : State) (nodes : List NetNode) (sentinel : Word) (threshold : Nat) (mode : NetMode) :
    State :=
  { enrolAll s 0 nodes with
    orch := some
      { sentinel := sentinel
        threshold := threshold
        mode := mode
        nodes := nodes
        idleCount := 0
        held := none
        lastSent := none
        routed := false
        phase := .drain 0 } }

/-- R141: a network of `n` machines with this sentinel address may be made: there is no orchestrator yet,
`NET_N >= 1`, every address `0 .. NET_N - 1` is a word, and the sentinel address is none of them. -/
def State.canOpen (s : State) (n : Nat) (sentinel : Word) : Bool :=
  s.orch.isNone && decide (1 ≤ n ∧ n ≤ 9223372036854775808) &&
    !(decide (0 ≤ sentinel.toInt) && decide (sentinel.toInt < (n : Int)))

/-- R143: `n` instances of one program, each on a Non-blocking-with-status device of its own. -/
def State.loadMachines (s : State) (program : List Word) : Nat → State
  | 0 => s
  | n + 1 => (s.loadInstance program .nonblocking).loadMachines program n

/-- R142: the orchestrator's record of machine `i` of the machines loaded when there were `instances` instances
and `chans` channels. -/
def bootNode (instances chans i : Nat) : NetNode where
  machine := instances + i
  inCh := chans + 2 * i
  outCh := chans + 2 * i + 1
  part := []

/-- R143: the orchestrator boots a network of `n` machines that it constructs itself. -/
def bootNetwork (s : State) (program : List Word) (n : Nat) (sentinel : Word) (threshold : Nat)
    (mode : NetMode) : Host.Outcome State Fault Refusal :=
  if s.canOpen n sentinel then
    if program.length ≤ s.params.memLimit then
      .next (openNetwork (s.loadMachines program n)
        ((List.range n).map (bootNode s.instances.length s.chans.length)) sentinel threshold mode)
    else .refused .loadRefused
  else .refused .hostMisuse

/-- The orchestrator's record of instance `k`, if its device is Non-blocking-with-status (R140). -/
def State.nodeOf (s : State) (k : Nat) : Option NetNode :=
  match (s.instances[k]?).map CoreState.dev with
  | some (.nonblocking cin cout _ _ _) => some { machine := k, inCh := cin, outCh := cout, part := [] }
  | some .inert => none
  | some (.blocking _ _) => none
  | some (.latest _) => none
  | none => none

/-- R124: the host hands the far handles of machines that it constructed itself to the orchestrator, which then
boots as it does over machines of its own (log 28): the address is sent, and a `Send` that answers `Fail` is
the failure of R147. -/
def handOver (s : State) (machines : List Nat) (sentinel : Word) (threshold : Nat) (mode : NetMode) :
    Host.Outcome State Fault Refusal :=
  let nodes := machines.filterMap s.nodeOf
  if s.canOpen machines.length sentinel && decide machines.Nodup &&
      decide (nodes.length = machines.length) && nodes.all fun n => s.hostTx n.inCh && s.hostRx n.outCh then
    if nodes.all fun n => (s.chan n.inCh).rxAlive then .next (openNetwork s nodes sentinel threshold mode)
    else .fault .orchestratorFailure
  else .refused .hostMisuse

/-! ### The host's turn -/

/-- R6, R186: what the host does in its turn. Use of a handle it does not hold is refused (U23). -/
def hostTurn (s : State) (a : HostAction) : Host.Outcome State Fault Refusal :=
  match a with
  | .send ch v => if s.hostTx ch then .next (s.send ch v).2 else .refused .hostMisuse
  | .recv ch => if s.hostRx ch then .next (hostRecv s ch) else .refused .hostMisuse
  | .dropTx ch => if s.hostTx ch then .next (s.modChan ch Channel.dropTx) else .refused .hostMisuse
  | .dropRx ch => if s.hostRx ch then .next (s.modChan ch Channel.dropRx) else .refused .hostMisuse
  | .newChannel => .next (s.addChan (Channel.fresh .host .host))
  | .load program kind => hostLoad s program kind
  | .loadText text kind =>
    match parseProgram text with
    | some program => hostLoad s program kind
    | none => .refused .loadRefused
  | .connect up down => hostConnect s up down
  | .run k => hostRun s k
  | .bootNetwork program n sentinel threshold mode => bootNetwork s program n sentinel threshold mode
  | .handOver machines sentinel threshold mode => handOver s machines sentinel threshold mode

/-! ### What the host is told -/

/-- R171, R183: what `Run` of an instance returns. -/
inductive RunResult where
  | halted
  | faulted (cause : FaultCode) (info : Fin 4)
  deriving DecidableEq, Repr

/-- R171, R183: what the `Run` of an instance has returned: it returns when the core is Halted or Faulted, and
never while it is Running. -/
def CoreState.runResult (c : CoreState) : Option RunResult :=
  if c.started then
    match c.status with
    | .running => none
    | .halted => some .halted
    | .faulted => c.fcause.map fun f => .faulted f c.finfo
  else none

/-- R184: `Inspect` of cell `a` after the run: 0 for a cell past `mlen`, without growth; `none` before the
run has ended, when the host does not inspect. -/
def CoreState.inspect (c : CoreState) (a : Nat) : Option Word :=
  match c.runResult with
  | none => none
  | some _ => some (if a < c.mlen then c.mem.read a else 0#64)

/-- R184: the length of the store after the run; `none` before its end. -/
def CoreState.inspectLength (c : CoreState) : Option Nat :=
  match c.runResult with
  | none => none
  | some _ => some c.mlen

/-- R184: the Latest-value register after the run; `none` before its end, and for the other devices. -/
def CoreState.inspectLatest (c : CoreState) : Option Word :=
  match c.runResult with
  | none => none
  | some _ => c.dev.latestValue

end Sys2Proof.Machine
end

