-- ==== Sys2Proof/Machine/Network.lean ====
section
/-!
DEFINITION. The Network Orchestrator (spec/48_network_orchestrator.md), a host-side agent: one turn is one
atomic action, a `TryRecv`, a `Send`, the read of one `idle` flag, or the bookkeeping between sweeps
(log 16).
-/
namespace Sys2Proof.Machine

/-- Replace the orchestrator. -/
def State.setOrch (s : State) (o : Orchestrator) : State := { s with orch := some o }

/-- R142: store `part[i]`. -/
def Orchestrator.setPart (o : Orchestrator) (i : Nat) (ws : List Word) : Orchestrator :=
  { o with nodes := o.nodes.modify i fun n => { n with part := ws } }

/-- R147, R141: the machine a destination names, if it names one: addresses are `0 .. NET_N - 1`. -/
def Orchestrator.machineAt (o : Orchestrator) (dest : Word) : Option Nat :=
  if 0 ≤ dest.toInt ∧ dest.toInt < (o.nodes.length : Int) then some dest.toInt.toNat else none

/-- R144: route one group `(dest, x, y)` of machine `i`; `none` is the failure of R147. -/
def Orchestrator.route (o : Orchestrator) (i : Nat) (dest x y : Word) : Option Orchestrator :=
  if dest = o.sentinel then
    match o.mode with
    | .firstSolution => some { o with routed := true, phase := .ended y }
    | .repeatValue => some { o with routed := true, held := some (x, y), phase := .drain i }
  else
    match o.machineAt dest with
    | some d => some { o with routed := true, phase := .sendX i d x y }
    | none => none

/-- R144: a word received from machine `i`; whenever `part[i]` holds three words, they are removed and
routed. -/
def Orchestrator.receive (o : Orchestrator) (i : Nat) (ws : List Word) : Option Orchestrator :=
  match ws with
  | [dest, x, y] => (o.setPart i []).route i dest x y
  | _ => some { o.setPart i ws with phase := .drain i }

/-- R145: the end of a sweep. After one that routed a group the count is 0; after one that routed none it
grows, and once it is past the threshold with a pair held, the idle flags are read. -/
def Orchestrator.sweepEnd (o : Orchestrator) : Orchestrator :=
  if o.routed then { o with idleCount := 0, phase := .pause }
  else if o.threshold < o.idleCount + 1 ∧ o.held.isSome then
    { o with idleCount := o.idleCount + 1, phase := .check 0 }
  else { o with idleCount := o.idleCount + 1, phase := .pause }

/-- R145: every idle flag has been read as 1 with a pair held: the same pair a second time ends the run,
otherwise it is delivered to address 0. -/
def Orchestrator.allIdle (o : Orchestrator) : Orchestrator :=
  match o.held with
  | some (x, y) =>
    if o.lastSent = some (x, y) then { o with phase := .ended y } else { o with phase := .deliverX x y }
  | none => { o with phase := .pause }

/-- R142: the shared `idle` cell of instance `k`; of an instance that does not exist, as a new one (log 11). -/
def State.idleCell (s : State) (k : Nat) : IdleCell :=
  match s.instances[k]? with
  | some c => c.dev.idleCell
  | none => .fresh

/-- R144: the next `TryRecv` of the sweep, or the end of it. -/
def sweepTurn (s : State) (o : Orchestrator) (i : Nat) : Host.Outcome State Fault Refusal :=
  match o.nodes[i]? with
  | none => .next (s.setOrch o.sweepEnd)
  | some n =>
    match s.tryRecv n.outCh with
    | (.value v, t) =>
      match o.receive i (n.part ++ [v]) with
      | some o' => .next (t.setOrch o')
      | none => .fault .orchestratorFailure
    | (.empty, t) => .next (t.setOrch { o with phase := .drain (i + 1) })
    | (.closed, _) => .fault .orchestratorFailure

/-- R144, R145, R147: `Send(in[d], v)`, then the phase after it; a `Fail` is the orchestrator's failure. -/
def netSend (s : State) (o : Orchestrator) (d : Nat) (v : Word) (after : Orchestrator) :
    Host.Outcome State Fault Refusal :=
  match o.nodes[d]? with
  | none => .fault .orchestratorFailure
  | some n =>
    match s.send n.inCh v with
    | (.ok _, t) => .next (t.setOrch after)
    | (.fail, _) => .fault .orchestratorFailure
    | (.wait, _) => .next s

/-- R145: read one idle flag; which of the values it has held the read gives, `seen` says (R54; log 26). -/
def checkTurn (s : State) (o : Orchestrator) (i : Nat) (seen : Bool) : State :=
  match o.nodes[i]? with
  | none => s.setOrch o.allIdle
  | some n =>
    if (s.idleCell n.machine).read seen then s.setOrch { o with phase := .check (i + 1) }
    else s.setOrch { o with phase := .pause }

/-- R144 to R146: the orchestrator's next atomic action. One whose run has ended with an answer acts no more and
keeps its handles: the spec says nothing of dropping them (DESIGN CHOICE, log 27). -/
def orchestratorTurn (s : State) (seen : Bool) : Host.Outcome State Fault Refusal :=
  match s.orch with
  | none => .next s
  | some o =>
    match o.phase with
    | .drain i => sweepTurn s o i
    | .sendX i d x y => netSend s o d x { o with phase := .sendY i d y }
    | .sendY i d y => netSend s o d y { o with phase := .drain i }
    | .check i => .next (checkTurn s o i seen)
    | .deliverX x y => netSend s o 0 x { o with phase := .deliverY x y }
    | .deliverY x y => netSend s o 0 y { o with lastSent := some (x, y), idleCount := 0, phase := .pause }
    | .pause => .next (s.setOrch { o with routed := false, phase := .drain 0 })
    | .ended _ => .next s

/-- R145: the answer a network run has ended with. -/
def State.networkAnswer (s : State) : Option Word :=
  match s.orch with
  | none => none
  | some o =>
    match o.phase with
    | .ended y => some y
    | .drain _ => none
    | .sendX _ _ _ _ => none
    | .sendY _ _ _ => none
    | .check _ => none
    | .deliverX _ _ => none
    | .deliverY _ _ => none
    | .pause => none

end Sys2Proof.Machine
end

