-- ==== Sys2Proof/Machine/Relay.lean ====
section
/-! DEFINITION. The Connector (spec/47_connector.md): receive, send and terminate steps. -/
namespace Sys2Proof.Machine

/-- Replace Connector number `j`. -/
def State.setConn (s : State) (j : Nat) (c : Connector) : State := { s with conns := s.conns.set j c }

/-- Drop the producer handle of each of these channels (R135). -/
def State.dropAllTx (s : State) : List Nat → State
  | [] => s
  | d :: rest => (s.modChan d Channel.dropTx).dropAllTx rest

/-- R133: the receive step; R135: the terminate step, when `Recv(up)` answers `Fail`. While it cannot
answer, the Connector waits. -/
def connectorReceive (s : State) (j : Nat) (c : Connector) : State :=
  match s.recv c.up with
  | (.ok v, t) => t.setConn j { c with cur := some v, k := 0 }
  | (.fail, t) => ((t.modChan c.up Channel.dropRx).dropAllTx c.down).setConn j { c with done := true }
  | (.wait, _) => s

/-- R134: the send step, one downstream at a time; the result of the `Send` is ignored (D24). -/
def connectorSend (s : State) (j : Nat) (c : Connector) (v : Word) : State :=
  match c.down[c.k]? with
  | some d =>
    (s.send d v).2.setConn j
      { c with cur := if c.k + 1 = c.down.length then none else some v, k := c.k + 1 }
  | none => s

/-- R133, R134, R135: the turn of Connector `j`; a terminated one has no step. R133 and R134 ask for no `Run` before
it, and the model has none for a Connector (DESIGN CHOICE, log 29). -/
def connectorTurn (s : State) (j : Nat) : State :=
  match s.conns[j]? with
  | some c =>
    if c.done then s
    else
      match c.cur with
      | none => connectorReceive s j c
      | some v => connectorSend s j c v
  | none => s

end Sys2Proof.Machine
end

