-- ==== Sys2Proof/Machine/Step.lean ====
section
/-!
DEFINITION. One step of the machine: the next turn of the schedule, or, when no turn is planned, the next
step of the core in focus (R9; log 6).
-/
namespace Sys2Proof.Machine

/-- One turn of one agent. -/
def takeTurn (t : Turn) (s : State) : Host.Outcome State Fault Refusal :=
  match t with
  | .core k => instanceTurn s k
  | .settleIdle k => .next (s.modifyInstance k CoreState.settleIdle)
  | .release k => .next (releaseTurn s k)
  | .faultedDropRx k => .next (faultedDropRxTurn s k)
  | .faultedDropTx k => .next (faultedDropTxTurn s k)
  | .connector j => .next (connectorTurn s j)
  | .orchestrator seen => orchestratorTurn s seen
  | .host a => hostTurn s a

/-- One step. -/
def step (s : State) : Host.Outcome State Fault Refusal :=
  match s.schedule with
  | [] => coreTurn s
  | t :: rest => takeTurn t { s with schedule := rest }

/-- The state in which the very next step fetches and runs the instruction whose bits are the `nbits` low
bits of `w` (log 23): its four words stored at `pc`, the store long enough to hold them, the core in focus
run and Running with nothing owed, and no turn planned before it. -/
def State.withFetchWord (s : State) (nbits w : Nat) : State :=
  { s with
    core :=
      { s.core.settleIdle with
        mem := s.core.mem.writeWords s.core.pc (tableWords nbits w)
        mlen := max s.core.mlen (s.core.pc + maxWidth)
        halted := false
        fcause := none
        finfo := 0
        released := false
        started := true }
    schedule := [] }

end Sys2Proof.Machine
end

