-- ==== Sys2Proof/Safety.lean ====
section
/-!
DEFINITION. The terms claims are stated in: what an instruction's operands and faults are, read directly off
the instance before the step; the invariant of the machine; when a run has ended and when it was safe.
Nothing in the machine uses these.
-/
namespace Sys2Proof.Machine

/-! ### Operands, read off the instance before the instruction

The reads of an instruction change nothing but `mlen` (R44) and all of them come before its write (R50,
R52), so every operand is what the instance held when the instruction started. -/

/-- R66: parameter word `i` of the instruction at `pc`. -/
def CoreState.paramWord (c : CoreState) (i : Fin 4) : Word := c.mem.read (c.pc + i.val)

/-- R67, R68: the effective address of parameter `i`, an exact integer. -/
def CoreState.paramAddr (c : CoreState) (i : Fin 4) (m : Mode) : Int := effective m (c.paramWord i) c.rb

/-- R67: the value parameter `i` denotes. -/
def CoreState.operand (c : CoreState) (i : Fin 4) (m : Mode) : Word :=
  match m with
  | .immediate => c.paramWord i
  | .position => c.mem.read (c.paramAddr i .position).toNat
  | .relative => c.mem.read (c.paramAddr i .relative).toNat

/-- R68: the destination address parameter `i` denotes. -/
def CoreState.destAddr (c : CoreState) (i : Fin 4) (m : Mode) : Nat := (c.paramAddr i m).toNat

/-- The addresses that resolving value parameter `i` reads, in order (R47). -/
def CoreState.valueReads (c : CoreState) (i : Fin 4) (m : Mode) : List Nat :=
  match m with
  | .immediate => [c.pc + i.val]
  | .position => [c.pc + i.val, (c.paramAddr i .position).toNat]
  | .relative => [c.pc + i.val, (c.paramAddr i .relative).toNat]

/-- R42 to R44: the length of the store after accesses at these addresses. -/
def CoreState.lengthAfter (c : CoreState) (addrs : List Nat) : Nat :=
  addrs.foldl (fun n a => if n ≤ a then a + 1 else n) c.mlen

/-- The instance after reads at these addresses: only the length has changed (R44). -/
def CoreState.reading (c : CoreState) (addrs : List Nat) : CoreState :=
  { c with mlen := c.lengthAfter addrs }

/-- R47: the addresses an instruction reads, in order: the fetch, then for each parameter its word and, for
a value in Position or Relative mode, its cell. A destination's cell is not read. -/
def instrReads (c : CoreState) (i : Instr) : List Nat :=
  match i with
  | .add m1 m2 _ => c.pc :: c.valueReads 1 m1 ++ c.valueReads 2 m2 ++ [c.pc + 3]
  | .multiply m1 m2 _ => c.pc :: c.valueReads 1 m1 ++ c.valueReads 2 m2 ++ [c.pc + 3]
  | .input _ => [c.pc, c.pc + 1]
  | .output m1 => c.pc :: c.valueReads 1 m1
  | .jumpTrue m1 m2 => c.pc :: c.valueReads 1 m1 ++ c.valueReads 2 m2
  | .jumpFalse m1 m2 => c.pc :: c.valueReads 1 m1 ++ c.valueReads 2 m2
  | .lessThan m1 m2 _ => c.pc :: c.valueReads 1 m1 ++ c.valueReads 2 m2 ++ [c.pc + 3]
  | .equal m1 m2 _ => c.pc :: c.valueReads 1 m1 ++ c.valueReads 2 m2 ++ [c.pc + 3]
  | .changeRelative m1 => c.pc :: c.valueReads 1 m1
  | .halt => [c.pc]

/-! ### Faults, in the order of R158 -/

/-- R45: the fault of an effective address: negative first, then the limit. -/
def addrFault (p : Params) (i : Fin 4) (a : Int) : Option Raise :=
  if a < 0 then some ⟨.negativeAddress, i⟩
  else if (p.memLimit : Int) ≤ a then some ⟨.memoryLimit, i⟩
  else none

/-- R158 (4): the fault of value parameter `i`. -/
def CoreState.valueFault (p : Params) (c : CoreState) (i : Fin 4) (m : Mode) : Option Raise :=
  if p.memLimit ≤ c.pc + i.val then some ⟨.memoryLimit, i⟩
  else
    match m with
    | .immediate => none
    | .position => addrFault p i (c.paramAddr i .position)
    | .relative => addrFault p i (c.paramAddr i .relative)

/-- R158 (4): the fault of destination parameter `i`. -/
def CoreState.destFault (p : Params) (c : CoreState) (i : Fin 4) (m : Mode) : Option Raise :=
  if p.memLimit ≤ c.pc + i.val then some ⟨.memoryLimit, i⟩
  else
    match m with
    | .immediate => some ⟨.immediateDestination, i⟩
    | .position => addrFault p i (c.paramAddr i .position)
    | .relative => addrFault p i (c.paramAddr i .relative)

/-- R12, R156: the fault of an exact result. -/
def overflowFault (p : Params) (z : Int) : Option Raise :=
  if Word.minZ ≤ z ∧ z ≤ Word.maxZ then none
  else
    match p.ovf with
    | .fault => some ⟨.arithmeticOverflow, 0⟩
    | .wrap => none

/-- R12: the word an arithmetic instruction stores when it does not fault: the word of the exact result where
that is in range, else the word of `wrap64`. -/
def aluWord (z : Int) : Word := Word.ofZ (if Word.minZ ≤ z ∧ z ≤ Word.maxZ then z else wrap64 z)

/-- R90, R91: the fault of a jump's target. -/
def targetFault (taken : Bool) (t : Word) : Option Raise :=
  if taken ∧ t.toInt < 0 then some ⟨.negativeAddress, 2⟩ else none

/-- R158 (4): the parameters' faults, in index order. -/
def paramFaults (p : Params) (c : CoreState) (i : Instr) : List (Option Raise) :=
  match i with
  | .add m1 m2 m3 => [c.valueFault p 1 m1, c.valueFault p 2 m2, c.destFault p 3 m3]
  | .multiply m1 m2 m3 => [c.valueFault p 1 m1, c.valueFault p 2 m2, c.destFault p 3 m3]
  | .input m1 => [c.destFault p 1 m1]
  | .output m1 => [c.valueFault p 1 m1]
  | .jumpTrue m1 m2 => [c.valueFault p 1 m1, c.valueFault p 2 m2]
  | .jumpFalse m1 m2 => [c.valueFault p 1 m1, c.valueFault p 2 m2]
  | .lessThan m1 m2 m3 => [c.valueFault p 1 m1, c.valueFault p 2 m2, c.destFault p 3 m3]
  | .equal m1 m2 m3 => [c.valueFault p 1 m1, c.valueFault p 2 m2, c.destFault p 3 m3]
  | .changeRelative m1 => [c.valueFault p 1 m1]
  | .halt => []

/-- R158 (5): ArithmeticOverflow, or NegativeAddress(2) for a taken jump's target. -/
def executeFault (p : Params) (c : CoreState) (i : Instr) : Option Raise :=
  match i with
  | .add m1 m2 _ => overflowFault p ((c.operand 1 m1).toInt + (c.operand 2 m2).toInt)
  | .multiply m1 m2 _ => overflowFault p ((c.operand 1 m1).toInt * (c.operand 2 m2).toInt)
  | .input _ => none
  | .output _ => none
  | .jumpTrue m1 m2 => targetFault (decide (c.operand 1 m1 ≠ 0#64)) (c.operand 2 m2)
  | .jumpFalse m1 m2 => targetFault (decide (c.operand 1 m1 = 0#64)) (c.operand 2 m2)
  | .lessThan _ _ _ => none
  | .equal _ _ _ => none
  | .changeRelative m1 => overflowFault p (c.rb.toInt + (c.operand 1 m1).toInt)
  | .halt => none

/-- The first fault of a list, if there is one. -/
def firstFault : List (Option Raise) → Option Raise
  | [] => none
  | some e :: _ => some e
  | none :: rest => firstFault rest

/-- R158 (4), (5): the fault of an instruction that has been decoded. -/
def instrFault (p : Params) (c : CoreState) (i : Instr) : Option Raise :=
  firstFault (paramFaults p c i ++ [executeFault p c i])

/-- R158: the fault of the step of a Running core. -/
def CoreState.stepFault (p : Params) (c : CoreState) : Option Raise :=
  if p.memLimit ≤ c.pc then some ⟨.memoryLimit, 0⟩
  else
    match decode (c.mem.read c.pc) with
    | .error .invalidOpcode => some ⟨.invalidOpcode, 0⟩
    | .error (.invalidMode i) => some ⟨.invalidMode, i⟩
    | .error .truncated => none
    | .ok i => instrFault p c i

/-! ### The invariant of the machine -/

/-- R25, R150: which `finfo` goes with which `fcause`. -/
def finfoFits : Option FaultCode → Fin 4 → Bool
  | none, n => n = 0
  | some .invalidOpcode, n => n = 0
  | some .invalidMode, n => n ≠ 0
  | some .immediateDestination, n => n = 1 || n = 3
  | some .negativeAddress, n => n ≠ 0
  | some .memoryLimit, _ => true
  | some .arithmeticOverflow, n => n = 0

/-- What holds of every machine instance: its memory is in canonical form, every cell at or past `mlen` is
0 and `mlen` is within the limit (R27), `pc` is within its 63 bits (R22), a halted core has no fault (R32),
`finfo` fits `fcause` (R150), only a halted core has released its handles (R126), and a core that has not been
run is Running (R183). -/
structure CoreState.Inv (p : Params) (c : CoreState) : Prop where
  canonical : c.mem.wf = true
  zeroPast : ∀ a, c.mlen ≤ a → c.mem.read a = 0#64
  lengthLe : c.mlen ≤ p.memLimit
  pcLe : c.pc ≤ 9223372036854775807
  haltedClean : c.halted = true → c.fcause = none
  infoFits : finfoFits c.fcause c.finfo = true
  releasedHalted : c.released = true → c.halted = true
  unrunRunning : c.started = false → c.status = .running

/-- The invariant of the whole machine: legal parameters (R5), and `CoreState.Inv` of every instance. -/
structure State.Inv (s : State) : Prop where
  legal : s.params.legal
  each : ∀ c ∈ s.instances, c.Inv s.params

/-! ### Frames -/

/-- Everything outside the instance in focus is the same in both states. -/
structure State.SameOutside (s t : State) : Prop where
  params : t.params = s.params
  before : t.before = s.before
  after : t.after = s.after
  chans : t.chans = s.chans
  conns : t.conns = s.conns
  orch : t.orch = s.orch
  received : t.received = s.received
  schedule : t.schedule = s.schedule

/-- Everything outside the instance in focus and the channels is the same in both states. -/
structure State.SameOutsidePort (s t : State) : Prop where
  params : t.params = s.params
  before : t.before = s.before
  after : t.after = s.after
  conns : t.conns = s.conns
  orch : t.orch = s.orch
  received : t.received = s.received
  schedule : t.schedule = s.schedule

/-- R20: what of a device is "a fixed connection": which of the four it is, and its handles. -/
def Device.binding : Device → DeviceKind × Option (Nat × Nat)
  | .inert => (.inert, none)
  | .blocking cin cout => (.blocking, some (cin, cout))
  | .latest _ => (.latest 0#64, none)
  | .nonblocking cin cout _ _ _ => (.nonblocking, some (cin, cout))

/-- The registers and the memory of an instance are the same in both; its device may differ in its own
state. -/
structure CoreState.SameRegisters (c d : CoreState) : Prop where
  mem : d.mem = c.mem
  mlen : d.mlen = c.mlen
  pc : d.pc = c.pc
  rb : d.rb = c.rb
  halted : d.halted = c.halted
  fcause : d.fcause = c.fcause
  finfo : d.finfo = c.finfo

/-! ### Steps of a core -/

/-- The step of `s` is that of the core in focus of `u`: either no turn is planned and `u` is `s`, or the turn of
an instance is the next one planned and `u` is `s` without it, that instance in focus. -/
inductive State.CoreStep (s : State) : State → Prop where
  | unplanned (h : s.schedule = []) : CoreStep s s
  | planned (k : Nat) (rest : List Turn) (h : s.schedule = .core k :: rest) (hk : k < s.instances.length) :
      CoreStep s (State.focus { s with schedule := rest } k)

/-- R52: the next step of `t` is the step of a core that fetches the word `w`: `exec` of the instruction it
decodes to, or the fault it raises. -/
structure State.FetchesNext (t : State) (w : Word) : Prop where
  runs : ∀ i, decodeOrRaise w = .ok i → step t = exec i (t.setCore t.core.settleIdle)
  faults : ∀ e, decodeOrRaise w = .error e → step t = .next ((t.setCore t.core.settleIdle).raise e)

/-! ### Runs -/

/-- R160: no core of the system has faulted. -/
def State.noFault (s : State) : Bool := s.instances.all fun c => c.fcause.isNone

/-- R185: the run of a core has ended: Halted, and released if it holds channel handles. -/
def CoreState.ended (c : CoreState) : Bool :=
  match c.status with
  | .halted => c.released || c.dev.handles.isNone
  | .running => false
  | .faulted => false

/-- The cores of the system: every instance, but for the one that `State.reset` stands with while it is as reset
left it, never run, and another instance has been loaded: no host has loaded that one (R180; DESIGN CHOICE,
log 8). -/
def State.systemCores (s : State) : List CoreState :=
  match s.instances with
  | [] => []
  | [c] => [c]
  | c :: d :: rest => if c = State.reset.core then d :: rest else c :: d :: rest

/-- R185: the run of the system has ended: every core, also one that has not been run, and every Connector has
ended, and the host, whose own condition on what it has received is `waited`, has what it waits for. -/
def State.ended (s : State) (waited : List (Nat × Word) → Bool) : Bool :=
  s.systemCores.all CoreState.ended && s.conns.all Connector.done && waited s.received

/-- `n` turns of Connector `j`, with no other agent in between. -/
def connectorTurns (j : Nat) : Nat → State → State
  | 0, s => s
  | n + 1, s => connectorTurns j n (connectorTurn s j)

/-- Turns of the orchestrator, each with what it reads of an idle flag, with no other agent in between, up to the
first stop. -/
def orchestratorTurns : List Bool → State → Host.Outcome State Fault Refusal
  | [], s => .next s
  | seen :: rest, s =>
    match orchestratorTurn s seen with
    | .next t => orchestratorTurns rest t
    | .fault r => .fault r
    | .refused r => .refused r

/-- Send these words, in order (R115). -/
def Channel.sendAll (ch : Channel) : List Word → Channel
  | [] => ch
  | v :: vs => (ch.send v).2.sendAll vs

/-- The answers of `n` `Recv`s in a row, and the channel after them (R116). -/
def Channel.recvMany : Nat → Channel → List (Reply Word) × Channel
  | 0, ch => ([], ch)
  | n + 1, ch =>
    let (r, ch) := ch.recv
    let (rs, ch) := Channel.recvMany n ch
    (r :: rs, ch)

/-! ### Program text -/

/-- R73: a program as its text, one line of comma-separated decimal numbers. -/
def programText : List Word → List Char
  | [] => []
  | [w] => (intText w.toInt).toList
  | w :: ws => (intText w.toInt).toList ++ ',' :: programText ws

/-- R73: the characters a program text may hold. -/
def programChar (ch : Char) : Bool :=
  (digitValue ch).isSome || ch = '-' || ch = ',' || isBlank ch || ch = '\n' || ch = '\r'

/-- R73: a decimal digit. -/
def decimalDigit (ch : Char) : Bool := decide ('0' ≤ ch ∧ ch ≤ '9')

/-- R73: one or more decimal digits. -/
def digitsText (cs : List Char) : Bool := !cs.isEmpty && cs.all decimalDigit

/-- R73: "an optional `-` followed by one or more decimal digits". -/
def numberText : List Char → Bool
  | '-' :: ds => digitsText ds
  | ds => digitsText ds

/-- The number decimal digits stand for. -/
def natValue (ds : List Char) : Nat := ds.foldl (fun n ch => 10 * n + (ch.toNat - '0'.toNat)) 0

/-- The integer a number text stands for. -/
def numberValue : List Char → Int
  | '-' :: ds => -(natValue ds : Int)
  | ds => (natValue ds : Int)

/-- R73: the pieces of a program text: line breaks removed, split at commas, blanks stripped. -/
def programPieces (text : List Char) : List (List Char) := (splitCommas (joinLines text)).map stripBlanks

end Sys2Proof.Machine
end

