-- ==== Sys2Proof/Certificates/Slice0/Obligations.lean ====
section
/-!
DEFINITION. The statements about the machine, from the spec's numbered rules. Operands, faults and lengths
are read off the state before the instruction by the functions of Sys2Proof/Safety.lean.
-/

open Sys2Proof Sys2Proof.Machine

/-! ### Encoding -/

/-- R74: encoding an instruction with its parameter words and decoding the words gives them back, whatever
follows; the instruction word is `op + 100*m1 + 1000*m2 + 10000*m3`; and R74's three examples. -/
def Obligations.DecodeOfEncodedWordsGivesInstruction : Prop :=
  (∀ (i : Instr) (ps rest : List Word), ps.length = i.params.length →
    decodeWords (encodeWords i ps ++ rest) = .ok (i, ps, rest)) ∧
  (∀ (i : Instr) (ps : List Word), encodeWords i ps = encode i :: ps) ∧
  (∀ i : Instr,
    (encode i).toInt =
      ((i.opcode + 100 * i.modeDigit 0 + 1000 * i.modeDigit 1 + 10000 * i.modeDigit 2 : Nat) : Int)) ∧
  encodeWords (.add .immediate .immediate .relative) [7, 8, 0] = [21101, 7, 8, 0] ∧
  encodeWords (.output .relative) [Word.ofZ (-1)] = [204, Word.ofZ (-1)] ∧
  encodeWords .halt [] = [99]

/-- R61: of a word that decodes, the opcode is `w mod 100` and the mode of parameter `k + 1` is decimal digit
`k + 2`. -/
def Obligations.DecodedFieldsAreDecimalDigits : Prop :=
  ∀ (w : Word) (i : Instr), decode w = .ok i →
    0 ≤ w.toInt ∧ i.opcode = w.toNat % 100 ∧
      ∀ k, k < i.params.length → i.modeDigit k = w.toNat / 10 ^ (k + 2) % 10

/-- R62, R63, R64: a negative word and an opcode that is none raise InvalidOpcode(0); with a valid opcode,
the first mode digit of 3 to 9, in the order `m1`, `m2`, `m3` and whether or not the opcode has that parameter,
raises InvalidMode with its index; every other word decodes, to an instruction of its opcode. -/
def Obligations.DecodeRejectsByName : Prop :=
  ∀ w : Word,
    (w.toInt < 0 → decodeOrRaise w = .error ⟨.invalidOpcode, 0⟩) ∧
    (0 ≤ w.toInt → w.toNat % 100 ∉ [1, 2, 3, 4, 5, 6, 7, 8, 9, 99] →
      decodeOrRaise w = .error ⟨.invalidOpcode, 0⟩) ∧
    (0 ≤ w.toInt → w.toNat % 100 ∈ [1, 2, 3, 4, 5, 6, 7, 8, 9, 99] →
      (2 < w.toNat / 100 % 10 → decodeOrRaise w = .error ⟨.invalidMode, 1⟩) ∧
      (w.toNat / 100 % 10 ≤ 2 → 2 < w.toNat / 1000 % 10 →
        decodeOrRaise w = .error ⟨.invalidMode, 2⟩) ∧
      (w.toNat / 100 % 10 ≤ 2 → w.toNat / 1000 % 10 ≤ 2 → 2 < w.toNat / 10000 % 10 →
        decodeOrRaise w = .error ⟨.invalidMode, 3⟩) ∧
      (w.toNat / 100 % 10 ≤ 2 → w.toNat / 1000 % 10 ≤ 2 → w.toNat / 10000 % 10 ≤ 2 →
        ∃ i, decodeOrRaise w = .ok i ∧ i.opcode = w.toNat % 100))

/-- R65: digits 5 and up are not examined; R65's two examples. -/
def Obligations.DecodeIgnoresHigherDigits : Prop :=
  (∀ w w' : Word, 0 ≤ w.toInt → 0 ≤ w'.toInt → w.toNat % 100000 = w'.toNat % 100000 →
    decode w = decode w') ∧
  decode 100001 = decode 1 ∧ decode 1234599 = decode 34599

/-- R72, R74: the encoder gives back every word below 100000 that decodes and holds 0 in the mode digits of
the parameters its opcode does not have. -/
def Obligations.EncodeGivesBackCanonicalWord : Prop :=
  ∀ (w : Word) (i : Instr), decode w = .ok i → w.toNat < 100000 →
    (∀ k, i.params.length ≤ k → k < 3 → w.toNat / 10 ^ (k + 2) % 10 = 0) → encode i = w

/-- R75: the seventeen rows of the spec's table of decode examples. -/
def Obligations.DecodeOfSpecExamples : Prop :=
  decode 1 = .ok (.add .position .position .position) ∧
  decode 1002 = .ok (.multiply .position .immediate .position) ∧
  decode 1101 = .ok (.add .immediate .immediate .position) ∧
  decode 21101 = .ok (.add .immediate .immediate .relative) ∧
  decode 204 = .ok (.output .relative) ∧
  decode 109 = .ok (.changeRelative .immediate) ∧
  decode 203 = .ok (.input .relative) ∧
  decode 1005 = .ok (.jumpTrue .position .immediate) ∧
  decode 2207 = .ok (.lessThan .relative .relative .position) ∧
  decode 99 = .ok .halt ∧
  decode 33 = .error .invalidOpcode ∧
  decode 0 = .error .invalidOpcode ∧
  decode 301 = .error (.invalidMode 1) ∧
  decode 30099 = .error (.invalidMode 3) ∧
  decode 10001 = .ok (.add .position .position .immediate) ∧
  (∀ (p : Params) (c : CoreState), c.pc + 3 < p.memLimit →
    dst p 3 .immediate c = .error ⟨.immediateDestination, 3⟩) ∧
  decode 100001 = .ok (.add .position .position .position) ∧
  decode (Word.ofZ (-1)) = .error .invalidOpcode

/-! ### Memory and arithmetic -/

/-- R43, R44: after `MemWrite(a, 1, v)` cell `a` holds `v` and every other cell what it held, the store has
grown to `a + 1` if it was shorter, every cell created by the growth but `a` reads 0, the memory keeps its
canonical form, and no register changes. -/
def Obligations.WriteThenReadAndGrowth : Prop :=
  ∀ (c : CoreState) (a : Nat) (v : Word), c.mem.wf = true →
    (c.memWrite a v).mem.read a = v ∧
    (∀ b, b ≠ a → (c.memWrite a v).mem.read b = c.mem.read b) ∧
    (c.memWrite a v).mlen = (if c.mlen ≤ a then a + 1 else c.mlen) ∧
    ((∀ b, c.mlen ≤ b → c.mem.read b = 0#64) →
      ∀ b, c.mlen ≤ b → b ≠ a → (c.memWrite a v).mem.read b = 0#64) ∧
    (c.memWrite a v).mem.wf = true ∧
    (c.memWrite a v).pc = c.pc ∧ (c.memWrite a v).rb = c.rb ∧ (c.memWrite a v).halted = c.halted ∧
    (c.memWrite a v).fcause = c.fcause ∧ (c.memWrite a v).finfo = c.finfo

/-- R42, R45: a read at `a` on behalf of parameter `i` raises MemoryLimit(i) at or past the limit; below it,
it answers the cell and grows the store to `a + 1` if it was shorter, and changes no cell and no register; past
the length, where the cells read 0, it answers 0, and the cells the growth makes exist hold 0. -/
def Obligations.ReadGrowsOnlyTheLength : Prop :=
  ∀ (p : Params) (i : Fin 4) (a : Nat) (c : CoreState),
    (p.memLimit ≤ a → memRead p i a c = .error ⟨.memoryLimit, i⟩) ∧
    (a < p.memLimit →
      memRead p i a c =
        .ok (c.mem.read a, { c with mlen := if c.mlen ≤ a then a + 1 else c.mlen })) ∧
    (a < p.memLimit → c.mlen ≤ a → (∀ b, c.mlen ≤ b → c.mem.read b = 0#64) →
      ∃ c', memRead p i a c = .ok (0#64, c') ∧ c'.mlen = a + 1 ∧
        ∀ b, c.mlen ≤ b → b ≤ a → c'.mem.read b = 0#64)

/-- The canonical form of memory is one: two memories in it that read the same at every address are the same
list. (The form is the model's own, log 1.) -/
def Obligations.EqualReadsMeanEqualMemories : Prop :=
  ∀ m n : Memory, m.wf = true → n.wf = true → (∀ a, m.read a = n.read a) → m = n

/-- R12: `wrap64(z)` is the unique integer of the word range congruent to `z` modulo `2^64`; `alu(z)` is `z`
in range, otherwise `wrap64(z)` with `OVF = wrap` and ArithmeticOverflow(0) with `OVF = fault`. -/
def Obligations.AluResultAndWrap : Prop :=
  (∀ z : Int,
    Word.minZ ≤ wrap64 z ∧ wrap64 z ≤ Word.maxZ ∧ wrap64 z % 2 ^ 64 = z % 2 ^ 64 ∧
      ∀ y : Int, Word.minZ ≤ y → y ≤ Word.maxZ → y % 2 ^ 64 = z % 2 ^ 64 → y = wrap64 z) ∧
  (∀ (p : Params) (z : Int),
    (Word.minZ ≤ z → z ≤ Word.maxZ → alu p z = .ok (aluWord z) ∧ (aluWord z).toInt = z) ∧
    (¬ (Word.minZ ≤ z ∧ z ≤ Word.maxZ) → p.ovf = .wrap →
      alu p z = .ok (aluWord z) ∧ (aluWord z).toInt = wrap64 z) ∧
    (¬ (Word.minZ ≤ z ∧ z ≤ Word.maxZ) → p.ovf = .fault → alu p z = .error ⟨.arithmeticOverflow, 0⟩))

/-! ### The instructions: faults in their order, and the one next state otherwise -/

/-- R80: Add. -/
def Obligations.AddResult : Prop :=
  ∀ (m1 m2 m3 : Mode) (s : State),
    (∀ e,
      firstFault
          [s.core.valueFault s.params 1 m1, s.core.valueFault s.params 2 m2, s.core.destFault s.params 3 m3,
            overflowFault s.params ((s.core.operand 1 m1).toInt + (s.core.operand 2 m2).toInt)] = some e →
        exec (.add m1 m2 m3) s = .next (s.raise e)) ∧
    (firstFault
          [s.core.valueFault s.params 1 m1, s.core.valueFault s.params 2 m2, s.core.destFault s.params 3 m3,
            overflowFault s.params ((s.core.operand 1 m1).toInt + (s.core.operand 2 m2).toInt)] = none →
      exec (.add m1 m2 m3) s =
        .next
          { s with
            core :=
              { s.core with
                mem :=
                  s.core.mem.write (s.core.destAddr 3 m3)
                    (aluWord ((s.core.operand 1 m1).toInt + (s.core.operand 2 m2).toInt))
                mlen :=
                  s.core.lengthAfter (instrReads s.core (.add m1 m2 m3) ++ [s.core.destAddr 3 m3])
                pc := s.core.pc + 4 } })

/-- R81: Multiply. -/
def Obligations.MultiplyResult : Prop :=
  ∀ (m1 m2 m3 : Mode) (s : State),
    (∀ e,
      firstFault
          [s.core.valueFault s.params 1 m1, s.core.valueFault s.params 2 m2, s.core.destFault s.params 3 m3,
            overflowFault s.params ((s.core.operand 1 m1).toInt * (s.core.operand 2 m2).toInt)] = some e →
        exec (.multiply m1 m2 m3) s = .next (s.raise e)) ∧
    (firstFault
          [s.core.valueFault s.params 1 m1, s.core.valueFault s.params 2 m2, s.core.destFault s.params 3 m3,
            overflowFault s.params ((s.core.operand 1 m1).toInt * (s.core.operand 2 m2).toInt)] = none →
      exec (.multiply m1 m2 m3) s =
        .next
          { s with
            core :=
              { s.core with
                mem :=
                  s.core.mem.write (s.core.destAddr 3 m3)
                    (aluWord ((s.core.operand 1 m1).toInt * (s.core.operand 2 m2).toInt))
                mlen :=
                  s.core.lengthAfter (instrReads s.core (.multiply m1 m2 m3) ++ [s.core.destAddr 3 m3])
                pc := s.core.pc + 4 } })

/-- R95: LessThan; the comparison is signed and there is no overflow. -/
def Obligations.LessThanResult : Prop :=
  ∀ (m1 m2 m3 : Mode) (s : State),
    (∀ e,
      firstFault
          [s.core.valueFault s.params 1 m1, s.core.valueFault s.params 2 m2,
            s.core.destFault s.params 3 m3] = some e →
        exec (.lessThan m1 m2 m3) s = .next (s.raise e)) ∧
    (firstFault
          [s.core.valueFault s.params 1 m1, s.core.valueFault s.params 2 m2,
            s.core.destFault s.params 3 m3] = none →
      exec (.lessThan m1 m2 m3) s =
        .next
          { s with
            core :=
              { s.core with
                mem :=
                  s.core.mem.write (s.core.destAddr 3 m3)
                    (if (s.core.operand 1 m1).toInt < (s.core.operand 2 m2).toInt then 1#64 else 0#64)
                mlen :=
                  s.core.lengthAfter (instrReads s.core (.lessThan m1 m2 m3) ++ [s.core.destAddr 3 m3])
                pc := s.core.pc + 4 } })

/-- R96: Equal; the equality is of the whole words. -/
def Obligations.EqualResult : Prop :=
  ∀ (m1 m2 m3 : Mode) (s : State),
    (∀ e,
      firstFault
          [s.core.valueFault s.params 1 m1, s.core.valueFault s.params 2 m2,
            s.core.destFault s.params 3 m3] = some e →
        exec (.equal m1 m2 m3) s = .next (s.raise e)) ∧
    (firstFault
          [s.core.valueFault s.params 1 m1, s.core.valueFault s.params 2 m2,
            s.core.destFault s.params 3 m3] = none →
      exec (.equal m1 m2 m3) s =
        .next
          { s with
            core :=
              { s.core with
                mem :=
                  s.core.mem.write (s.core.destAddr 3 m3)
                    (if (s.core.operand 1 m1).toInt = (s.core.operand 2 m2).toInt then 1#64 else 0#64)
                mlen :=
                  s.core.lengthAfter (instrReads s.core (.equal m1 m2 m3) ++ [s.core.destAddr 3 m3])
                pc := s.core.pc + 4 } })

/-- R90: JumpTrue; both values are resolved whether or not the jump is taken, and a target that is not taken
is not checked. -/
def Obligations.JumpTrueResult : Prop :=
  ∀ (m1 m2 : Mode) (s : State),
    (∀ e, firstFault [s.core.valueFault s.params 1 m1, s.core.valueFault s.params 2 m2] = some e →
      exec (.jumpTrue m1 m2) s = .next (s.raise e)) ∧
    (firstFault [s.core.valueFault s.params 1 m1, s.core.valueFault s.params 2 m2] = none →
      ((s.core.operand 1 m1).toInt ≠ 0 → (s.core.operand 2 m2).toInt < 0 →
        exec (.jumpTrue m1 m2) s = .next (s.raise ⟨.negativeAddress, 2⟩)) ∧
      ((s.core.operand 1 m1).toInt ≠ 0 → 0 ≤ (s.core.operand 2 m2).toInt →
        exec (.jumpTrue m1 m2) s =
          .next
            { s with
              core :=
                { s.core with
                  mlen := s.core.lengthAfter (instrReads s.core (.jumpTrue m1 m2))
                  pc := (s.core.operand 2 m2).toInt.toNat } }) ∧
      ((s.core.operand 1 m1).toInt = 0 →
        exec (.jumpTrue m1 m2) s =
          .next
            { s with
              core :=
                { s.core with
                  mlen := s.core.lengthAfter (instrReads s.core (.jumpTrue m1 m2))
                  pc := s.core.pc + 3 } }))

/-- R91: JumpFalse, with the condition inverted. -/
def Obligations.JumpFalseResult : Prop :=
  ∀ (m1 m2 : Mode) (s : State),
    (∀ e, firstFault [s.core.valueFault s.params 1 m1, s.core.valueFault s.params 2 m2] = some e →
      exec (.jumpFalse m1 m2) s = .next (s.raise e)) ∧
    (firstFault [s.core.valueFault s.params 1 m1, s.core.valueFault s.params 2 m2] = none →
      ((s.core.operand 1 m1).toInt = 0 → (s.core.operand 2 m2).toInt < 0 →
        exec (.jumpFalse m1 m2) s = .next (s.raise ⟨.negativeAddress, 2⟩)) ∧
      ((s.core.operand 1 m1).toInt = 0 → 0 ≤ (s.core.operand 2 m2).toInt →
        exec (.jumpFalse m1 m2) s =
          .next
            { s with
              core :=
                { s.core with
                  mlen := s.core.lengthAfter (instrReads s.core (.jumpFalse m1 m2))
                  pc := (s.core.operand 2 m2).toInt.toNat } }) ∧
      ((s.core.operand 1 m1).toInt ≠ 0 →
        exec (.jumpFalse m1 m2) s =
          .next
            { s with
              core :=
                { s.core with
                  mlen := s.core.lengthAfter (instrReads s.core (.jumpFalse m1 m2))
                  pc := s.core.pc + 3 } }))

/-- R100: ChangeRelative; a Relative operand uses the old `rb`. -/
def Obligations.ChangeRelativeResult : Prop :=
  ∀ (m1 : Mode) (s : State),
    (∀ e,
      firstFault
          [s.core.valueFault s.params 1 m1,
            overflowFault s.params (s.core.rb.toInt + (s.core.operand 1 m1).toInt)] = some e →
        exec (.changeRelative m1) s = .next (s.raise e)) ∧
    (firstFault
          [s.core.valueFault s.params 1 m1,
            overflowFault s.params (s.core.rb.toInt + (s.core.operand 1 m1).toInt)] = none →
      exec (.changeRelative m1) s =
        .next
          { s with
            core :=
              { s.core with
                rb := aluWord (s.core.rb.toInt + (s.core.operand 1 m1).toInt)
                mlen := s.core.lengthAfter (instrReads s.core (.changeRelative m1))
                pc := s.core.pc + 2 } })

/-- R105: Halt reads no parameter word, sets `halted` and passes its one word; it always completes. -/
def Obligations.HaltResult : Prop :=
  ∀ s : State,
    exec .halt s =
      .next
        { s with
          core :=
            { s.core with
              halted := true
              mlen := s.core.lengthAfter [s.core.pc]
              pc := s.core.pc + 1 } }

/-- R85: Input. Faults come before the port is asked; on `Ok(v)` the value is stored at the destination and
`pc` passes two words; on `Fail` the core halts with `pc` at the instruction and no cell changed. `t` is the
state the port transaction leaves. (While the port cannot answer R85 has the step not enabled; that `exec` then
answers the state itself is the model's convention, log 5.) -/
def Obligations.InputResult : Prop :=
  ∀ (m1 : Mode) (s : State),
    (∀ e, s.core.destFault s.params 1 m1 = some e → exec (.input m1) s = .next (s.raise e)) ∧
    (s.core.destFault s.params 1 m1 = none →
      (∀ v t, ioGet s = (.ok v, t) →
        exec (.input m1) s =
          .next
            { s with
              chans := t.chans
              core :=
                { s.core with
                  dev := t.core.dev
                  mem := s.core.mem.write (s.core.destAddr 1 m1) v
                  mlen :=
                    s.core.lengthAfter (instrReads s.core (.input m1) ++ [s.core.destAddr 1 m1])
                  pc := s.core.pc + 2 } }) ∧
      (∀ t, ioGet s = (.fail, t) →
        exec (.input m1) s =
          .next
            { s with
              chans := t.chans
              core :=
                { s.core with
                  dev := t.core.dev
                  halted := true
                  mlen := s.core.lengthAfter (instrReads s.core (.input m1)) } }) ∧
      (∀ t, ioGet s = (.wait, t) → exec (.input m1) s = .next s))

/-- R86: Output. Faults come before the port is asked; on `Ok` `pc` passes two words; on `Fail` the core halts
with `pc` at the instruction. `t` is the state the port transaction leaves; no port of the spec waits. -/
def Obligations.OutputResult : Prop :=
  ∀ (m1 : Mode) (s : State),
    (∀ e, s.core.valueFault s.params 1 m1 = some e → exec (.output m1) s = .next (s.raise e)) ∧
    (s.core.valueFault s.params 1 m1 = none →
      (∀ t, ioPut s (s.core.operand 1 m1) = (.ok (), t) →
        exec (.output m1) s =
          .next
            { s with
              chans := t.chans
              core :=
                { s.core with
                  dev := t.core.dev
                  mlen := s.core.lengthAfter (instrReads s.core (.output m1))
                  pc := s.core.pc + 2 } }) ∧
      (∀ t, ioPut s (s.core.operand 1 m1) = (.fail, t) →
        exec (.output m1) s =
          .next
            { s with
              chans := t.chans
              core :=
                { s.core with
                  dev := t.core.dev
                  halted := true
                  mlen := s.core.lengthAfter (instrReads s.core (.output m1)) } }))

/-! ### Frames -/

/-- Add, Multiply, LessThan, Equal: when they do not fault, every cell but the destination, every register but
`pc` and `mlen`, the device, and everything outside the core are as before. -/
def Obligations.StoringInstructionsFrame : Prop :=
  ∀ (m1 m2 m3 : Mode) (i : Instr) (s t : State),
    i ∈ [Instr.add m1 m2 m3, Instr.multiply m1 m2 m3, Instr.lessThan m1 m2 m3, Instr.equal m1 m2 m3] →
    exec i s = .next t →
      (∃ e, t = s.raise e) ∨
        ((∀ a, a ≠ s.core.destAddr 3 m3 → t.core.mem.read a = s.core.mem.read a) ∧
          t.core.rb = s.core.rb ∧ t.core.halted = s.core.halted ∧ t.core.fcause = s.core.fcause ∧
          t.core.finfo = s.core.finfo ∧ t.core.released = s.core.released ∧
          t.core.started = s.core.started ∧ t.core.dev = s.core.dev ∧ s.SameOutside t)

/-- JumpTrue, JumpFalse, ChangeRelative, Halt: when they do not fault, memory, the device and everything
outside the core are as before, and of the registers `rb` changes only by ChangeRelative and `halted` only by
Halt (`pc` and `mlen` apart). -/
def Obligations.RegisterInstructionsFrame : Prop :=
  ∀ (m1 m2 : Mode) (i : Instr) (s t : State),
    i ∈ [Instr.jumpTrue m1 m2, Instr.jumpFalse m1 m2, Instr.changeRelative m1, Instr.halt] →
    exec i s = .next t →
      (∃ e, t = s.raise e) ∨
        ((∀ a, t.core.mem.read a = s.core.mem.read a) ∧ t.core.mem = s.core.mem ∧
          (i ≠ .changeRelative m1 → t.core.rb = s.core.rb) ∧
          (i ≠ .halt → t.core.halted = s.core.halted) ∧
          t.core.fcause = s.core.fcause ∧ t.core.finfo = s.core.finfo ∧
          t.core.released = s.core.released ∧ t.core.started = s.core.started ∧
          t.core.dev = s.core.dev ∧ s.SameOutside t)

/-- Input: when it does not fault, every cell but the destination, `rb`, the fault registers, `released`,
`started`, the binding of the device, every channel but the device's input channel, and everything else outside
the core are as before. -/
def Obligations.InputFrame : Prop :=
  ∀ (m1 : Mode) (s t : State), exec (.input m1) s = .next t →
    (∃ e, t = s.raise e) ∨
      ((∀ a, a ≠ s.core.destAddr 1 m1 → t.core.mem.read a = s.core.mem.read a) ∧
        t.core.rb = s.core.rb ∧ t.core.fcause = s.core.fcause ∧ t.core.finfo = s.core.finfo ∧
        t.core.released = s.core.released ∧ t.core.started = s.core.started ∧
        t.core.dev.binding = s.core.dev.binding ∧
        (∀ n, (∀ h, s.core.dev.handles = some h → n ≠ h.1) → t.chan n = s.chan n) ∧
        s.SameOutsidePort t)

/-- Output: when it does not fault, memory, `rb`, the fault registers, `released`, `started`, the binding of
the device, every channel but the device's output channel, and everything else outside the core are as before. -/
def Obligations.OutputFrame : Prop :=
  ∀ (m1 : Mode) (s t : State), exec (.output m1) s = .next t →
    (∃ e, t = s.raise e) ∨
      ((∀ a, t.core.mem.read a = s.core.mem.read a) ∧ t.core.mem = s.core.mem ∧
        t.core.rb = s.core.rb ∧ t.core.fcause = s.core.fcause ∧ t.core.finfo = s.core.finfo ∧
        t.core.released = s.core.released ∧ t.core.started = s.core.started ∧
        t.core.dev.binding = s.core.dev.binding ∧
        (∀ n, (∀ h, s.core.dev.handles = some h → n ≠ h.2) → t.chan n = s.chan n) ∧
        s.SameOutsidePort t)

/-- R20, R23, R24, R92: over all instructions, only ChangeRelative changes `rb`, only Halt, Input and Output
change `halted`, only Add, Multiply, Input, LessThan and Equal change memory, and only JumpTrue and JumpFalse
set `pc` to anything but `pc` or `pc + width`. -/
def Obligations.OnlyTheNamedInstructionsWrite : Prop :=
  ∀ (i : Instr) (s t : State), exec i s = .next t →
    (t.core.rb ≠ s.core.rb → ∃ m, i = .changeRelative m) ∧
    (t.core.halted ≠ s.core.halted → i = .halt ∨ (∃ m, i = .input m) ∨ ∃ m, i = .output m) ∧
    (t.core.mem ≠ s.core.mem →
      (∃ m1 m2 m3, i = .add m1 m2 m3 ∨ i = .multiply m1 m2 m3 ∨ i = .lessThan m1 m2 m3 ∨
        i = .equal m1 m2 m3) ∨ ∃ m, i = .input m) ∧
    (t.core.pc ≠ s.core.pc → t.core.pc ≠ s.core.pc + i.width →
      ∃ m1 m2, i = .jumpTrue m1 m2 ∨ i = .jumpFalse m1 m2)

/-! ### Faults -/

/-- R13, R159: a step of an active core that ends in a fault, planned or not, has set `fcause` and `finfo` to the
first fault of that step in the order of R158, and has left every other register, every cell and everything
outside the core as before. (A write of `idle` that the device still owes is made first: the model's form of
R123, log 10.) -/
def Obligations.FaultEntryIsPrecise : Prop :=
  ∀ s u t : State, s.CoreStep u → u.core.active = true → step s = .next t → t.core.fcause ≠ none →
    (∃ e : Raise, u.core.stepFault u.params = some e ∧ t.core.fcause = some e.fault ∧
      t.core.finfo = e.info) ∧
    t.core.mem = u.core.mem ∧ t.core.mlen = u.core.mlen ∧ t.core.pc = u.core.pc ∧
    t.core.rb = u.core.rb ∧ t.core.halted = u.core.halted ∧ t.core.released = u.core.released ∧
    t.core.started = u.core.started ∧ t.core.dev = u.core.dev.settle ∧ u.SameOutside t

/-- R158: the step of an active core, planned or not, takes the first fault in the order of R158: the fetch, the
opcode, the mode digits, the parameters in index order, the execution; with none of them it ends in a next state
without a fault. (A write of `idle` that the device still owes is made first: the model's form of R123,
log 10. That a core blocked at an Input, which has no enabled step by R112, answers a next state, the same one, is
the model's convention, log 5.) -/
def Obligations.FirstFaultInOrderIsTaken : Prop :=
  ∀ s u : State, s.CoreStep u → u.core.active = true →
    (∀ e, u.core.stepFault u.params = some e →
      step s = .next ((u.setCore u.core.settleIdle).raise e)) ∧
    (u.core.stepFault u.params = none → ∃ t, step s = .next t ∧ t.core.fcause = none)

/-- R150: the codes of the six faults; the `finfo` that goes with the fault a step takes; and which instructions
raise ImmediateDestination (with which index) and ArithmeticOverflow. -/
def Obligations.FaultCodesAndInfo : Prop :=
  FaultCode.invalidOpcode.code = 1 ∧ FaultCode.invalidMode.code = 2 ∧
  FaultCode.immediateDestination.code = 3 ∧ FaultCode.negativeAddress.code = 4 ∧
  FaultCode.memoryLimit.code = 5 ∧ FaultCode.arithmeticOverflow.code = 6 ∧
  (∀ (s u t : State) (f : FaultCode), s.CoreStep u → u.core.active = true → step s = .next t →
    t.core.fcause = some f →
      t.core.fcauseCode = f.code ∧ finfoFits (some f) t.core.finfo = true ∧
      (f = .immediateDestination →
        (∃ m1 m2, t.core.finfo = 3 ∧
          decode (u.core.mem.read u.core.pc) ∈
            [.ok (Instr.add m1 m2 .immediate), .ok (Instr.multiply m1 m2 .immediate),
              .ok (Instr.lessThan m1 m2 .immediate), .ok (Instr.equal m1 m2 .immediate)]) ∨
        (t.core.finfo = 1 ∧ decode (u.core.mem.read u.core.pc) = .ok (.input .immediate))) ∧
      (f = .arithmeticOverflow →
        u.params.ovf = .fault ∧
        ∃ m1 m2 m3,
          decode (u.core.mem.read u.core.pc) ∈
            [.ok (Instr.add m1 m2 m3), .ok (Instr.multiply m1 m2 m3), .ok (Instr.changeRelative m1)]))

/-! ### The step -/

/-- R69: when the word at `pc` decodes to `i`, the step of an active core is `exec i`: with no turn planned, and
equally when the turn of any instance is the next one planned, which then comes into focus with no instance, channel
or other agent changed. A write of `idle` that the device owes is made first (log 10); with none owed and no turn
planned the step is exactly `exec i s`. -/
def Obligations.StepRunsDecodedInstruction : Prop :=
  (∀ (s u : State) (i : Instr), s.CoreStep u → u.core.active = true → u.core.pc < u.params.memLimit →
    decode (u.core.mem.read u.core.pc) = .ok i → step s = exec i (u.setCore u.core.settleIdle)) ∧
  (∀ (s : State) (i : Instr), s.schedule = [] → s.core.active = true → s.core.pc < s.params.memLimit →
    decode (s.core.mem.read s.core.pc) = .ok i → s.core.dev.settle = s.core.dev → step s = exec i s) ∧
  (∀ (s : State) (k : Nat) (rest : List Turn) (c : CoreState),
    s.schedule = .core k :: rest → s.instances[k]? = some c →
      ∃ u, s.CoreStep u ∧ u.core = c ∧ u.before.length = k ∧ u.instances = s.instances ∧
        u.params = s.params ∧ u.chans = s.chans ∧ u.conns = s.conns ∧ u.orch = s.orch ∧
        u.received = s.received ∧ u.schedule = rest)

/-- R52: a store is seen by the very next fetch: when Add, Multiply, LessThan, Equal or Input stores at the
address its `pc` passes to, the next step fetches the word it stored, and runs the instruction it decodes to or
takes the fault it raises. (A write of `idle` that the `get` of an Input owes is made first, log 10.) -/
def Obligations.StoreSeenByNextFetch : Prop :=
  ∀ s : State, s.core.active = true → s.schedule = [] → s.core.mem.wf = true →
    (∀ m1 m2 m3 : Mode, s.core.destAddr 3 m3 = s.core.pc + 4 →
      (instrFault s.params s.core (.add m1 m2 m3) = none →
        ∃ t, exec (.add m1 m2 m3) s = .next t ∧
          t.FetchesNext (aluWord ((s.core.operand 1 m1).toInt + (s.core.operand 2 m2).toInt))) ∧
      (instrFault s.params s.core (.multiply m1 m2 m3) = none →
        ∃ t, exec (.multiply m1 m2 m3) s = .next t ∧
          t.FetchesNext (aluWord ((s.core.operand 1 m1).toInt * (s.core.operand 2 m2).toInt))) ∧
      (instrFault s.params s.core (.lessThan m1 m2 m3) = none →
        ∃ t, exec (.lessThan m1 m2 m3) s = .next t ∧
          t.FetchesNext
            (if (s.core.operand 1 m1).toInt < (s.core.operand 2 m2).toInt then 1#64 else 0#64)) ∧
      (instrFault s.params s.core (.equal m1 m2 m3) = none →
        ∃ t, exec (.equal m1 m2 m3) s = .next t ∧
          t.FetchesNext
            (if (s.core.operand 1 m1).toInt = (s.core.operand 2 m2).toInt then 1#64 else 0#64))) ∧
    (∀ (m1 : Mode) (v : Word), s.core.destAddr 1 m1 = s.core.pc + 2 →
      instrFault s.params s.core (.input m1) = none → (ioGet s).1 = .ok v →
        ∃ t, exec (.input m1) s = .next t ∧ t.FetchesNext v)

/-- R32, R160, R183: a core that is Halted or Faulted, or that has not been run, takes no step: its turn, planned
or not, changes no instance, no channel and nothing else that any agent sees. (That the model's `step` then
answers the state itself is its own convention, log 5.) -/
def Obligations.StoppedCoreTakesNoStep : Prop :=
  ∀ s : State,
    (s.schedule = [] → s.core.status ≠ .running ∨ s.core.started = false → step s = .next s) ∧
    (∀ k rest c, s.schedule = .core k :: rest → s.instances[k]? = some c →
      c.status ≠ .running ∨ c.started = false →
        ∃ t, step s = .next t ∧ t.instances = s.instances ∧ t.params = s.params ∧ t.chans = s.chans ∧
          t.conns = s.conns ∧ t.orch = s.orch ∧ t.received = s.received ∧ t.schedule = rest)

/-! ### Channels and devices -/

/-- R115, R116: what is sent on a channel with a live consumer is received in the order sent, after what was
queued, and even after the producer has dropped its handle; only then does `Recv` fail. A send to a dropped
consumer fails and queues nothing; an empty channel with a live producer makes the receiver wait. -/
def Obligations.ChannelDeliversInOrder : Prop :=
  (∀ (ch : Channel) (vs : List Word), ch.rxAlive = true →
    ∃ ch', Channel.recvMany (ch.q.length + vs.length) (ch.sendAll vs).dropTx =
        ((ch.q ++ vs).map Reply.ok, ch') ∧
      ch'.recv = (.fail, ch')) ∧
  (∀ (ch : Channel) (v : Word), ch.rxAlive = false → ch.send v = (.fail, ch)) ∧
  (∀ (ch : Channel) (v : Word), ch.rxAlive = true →
    ch.send v = (.ok (), { ch with q := ch.q ++ [v] })) ∧
  (∀ ch : Channel, ch.q = [] → ch.txAlive = true → ch.recv = (.wait, ch)) ∧
  (∀ ch : Channel, ch.q = [] → ch.txAlive = false → ch.recv = (.fail, ch)) ∧
  (∀ (ch : Channel) (v : Word) (rest : List Word), ch.q = v :: rest →
    ch.recv = (.ok v, { ch with q := rest }))

/-- R117: `TryRecv` answers at once: the oldest value, or `Closed` or `Empty` as the producer is gone or not. -/
def Obligations.TryRecvNeverWaits : Prop :=
  (∀ (ch : Channel) (v : Word) (rest : List Word), ch.q = v :: rest →
    ch.tryRecv = (.value v, { ch with q := rest })) ∧
  (∀ ch : Channel, ch.q = [] → ch.txAlive = false → ch.tryRecv = (.closed, ch)) ∧
  (∀ ch : Channel, ch.q = [] → ch.txAlive = true → ch.tryRecv = (.empty, ch))

/-- R120, R122: the Inert device answers 0 and accepts everything, without state; the Latest-value device
answers the last value put, and a `get` does not consume it. -/
def Obligations.InertAndLatestValueDevices : Prop :=
  (∀ (s : State) (v : Word), s.core.dev = .inert → ioGet s = (.ok 0#64, s) ∧ ioPut s v = (.ok (), s)) ∧
  (∀ (s : State) (lv v : Word), s.core.dev = .latest lv →
    ioGet s = (.ok lv, s) ∧
    ∃ t, ioPut s v = (.ok (), t) ∧ t.core.dev = .latest v ∧ t.chans = s.chans ∧ ioGet t = (.ok v, t))

/-- R121: the Blocking-channel device receives on its input channel and sends on its output channel; what
completes changes that queue alone, and what fails or waits changes nothing. -/
def Obligations.BlockingDeviceUsesItsChannels : Prop :=
  ∀ (s : State) (cin cout : Nat), s.core.dev = .blocking cin cout →
    cin < s.chans.length → cout < s.chans.length →
      (∀ v rest, (s.chan cin).q = v :: rest →
        ∃ t, ioGet s = (.ok v, t) ∧ t.chan cin = { s.chan cin with q := rest } ∧ t.core = s.core ∧
          (∀ n, n ≠ cin → t.chan n = s.chan n) ∧ s.SameOutsidePort t) ∧
      ((s.chan cin).q = [] → (s.chan cin).txAlive = false → ioGet s = (.fail, s)) ∧
      ((s.chan cin).q = [] → (s.chan cin).txAlive = true → ioGet s = (.wait, s)) ∧
      (∀ v, (s.chan cout).rxAlive = true →
        ∃ t, ioPut s v = (.ok (), t) ∧ t.chan cout = { s.chan cout with q := (s.chan cout).q ++ [v] } ∧
          t.core = s.core ∧ (∀ n, n ≠ cout → t.chan n = s.chan n) ∧ s.SameOutsidePort t) ∧
      (∀ v, (s.chan cout).rxAlive = false → ioPut s v = (.fail, s))

/-- R123: the Non-blocking-with-status device. Its first `get` receives and may wait; every later one never
waits: the oldest value, or `NB_SENTINEL` on an empty queue with a live producer, or `Fail`; the first answer, a
`Fail` too, sets `first_done`. Its `put` sends on `cout`. The write of `idle` is an action of its own: until the
device has made it, in its own turn or before the next step of its core, the cell is as before; then 0 has been
written to it after a value and 1 after the sentinel. (That the write is held as owed is the model's form of it,
log 10.) -/
def Obligations.NonblockingDeviceGet : Prop :=
  (∀ (s : State) (cin cout : Nat) (first : Bool) (idle : IdleCell) (owed : Option Bool),
    s.core.dev = .nonblocking cin cout first idle owed → cin < s.chans.length → cout < s.chans.length →
      (∀ v rest, (s.chan cin).q = v :: rest →
        ∃ t, ioGet s = (.ok v, t) ∧ t.chan cin = { s.chan cin with q := rest } ∧
          (∀ n, n ≠ cin → t.chan n = s.chan n) ∧ s.SameOutsidePort t ∧ t.core.dev.idleCell = idle ∧
          t.core.settleIdle.dev = .nonblocking cin cout true (idle.write false) none) ∧
      ((s.chan cin).q = [] → (s.chan cin).txAlive = false →
        (first = true → ioGet s = (.fail, s)) ∧
        (first = false → ioGet s = (.fail, s.setDev (.nonblocking cin cout true idle owed)))) ∧
      ((s.chan cin).q = [] → (s.chan cin).txAlive = true →
        (first = false → ioGet s = (.wait, s)) ∧
        (first = true →
          ∃ t, ioGet s = (.ok s.params.nbSentinel, t) ∧ t.chans = s.chans ∧ s.SameOutsidePort t ∧
            t.core.dev.idleCell = idle ∧
            t.core.settleIdle.dev = .nonblocking cin cout true (idle.write true) none)) ∧
      (∀ v, (s.chan cout).rxAlive = true →
        ∃ t, ioPut s v = (.ok (), t) ∧ t.chan cout = { s.chan cout with q := (s.chan cout).q ++ [v] } ∧
          t.core = s.core ∧ (∀ n, n ≠ cout → t.chan n = s.chan n) ∧ s.SameOutsidePort t) ∧
      (∀ v, (s.chan cout).rxAlive = false → ioPut s v = (.fail, s))) ∧
  (∀ (s : State) (k : Nat) (rest : List Turn) (c : CoreState),
    s.schedule = .settleIdle k :: rest → s.instances[k]? = some c →
      ∃ t, step s = .next t ∧ t.instances = s.instances.set k c.settleIdle ∧ t.chans = s.chans ∧
        t.params = s.params ∧ t.conns = s.conns ∧ t.orch = s.orch ∧ t.received = s.received ∧
        ∀ cin cout first idle owed, c.dev = .nonblocking cin cout first idle owed →
          c.settleIdle = { c with dev := .nonblocking cin cout first (owed.elim idle idle.write) none })

/-- R112, R170: a `put` never waits on any device, and a `get` waits only on a channel device, while its input
queue is empty and its producer alive, for the Non-blocking-with-status device only on its first call; an
active core whose Input waits keeps every register, every cell and every channel. (That its turn is a step that
changes nothing is the model's convention, log 5.) -/
def Obligations.BlockedCoreWaitsUnchanged : Prop :=
  (∀ (s : State) (v : Word), (ioPut s v).1 ≠ .wait) ∧
  (∀ s : State, (ioGet s).1 = .wait →
    ∃ cin cout, s.core.dev.handles = some (cin, cout) ∧ (s.chan cin).q = [] ∧
      (s.chan cin).txAlive = true ∧ ∀ idle owed, s.core.dev ≠ .nonblocking cin cout true idle owed) ∧
  (∀ (s u : State) (m1 : Mode), s.CoreStep u → u.core.active = true →
    u.core.dev.settle = u.core.dev → u.core.pc < u.params.memLimit →
    decode (u.core.mem.read u.core.pc) = .ok (.input m1) → u.core.destFault u.params 1 m1 = none →
    (ioGet u).1 = .wait → step s = .next u)

/-- R157: a failed port transaction is no fault: a Running core becomes Halted, with `fcause` still 0, `pc` at
the instruction, no cell changed, and for Output no channel changed. -/
def Obligations.IoFailureHaltsWithoutFault : Prop :=
  ∀ (m1 : Mode) (s : State), s.core.status = .running →
    (s.core.destFault s.params 1 m1 = none → (ioGet s).1 = .fail →
      ∃ t, exec (.input m1) s = .next t ∧ t.core.status = .halted ∧ t.core.fcause = none ∧
        t.core.pc = s.core.pc ∧ t.core.mem = s.core.mem) ∧
    (s.core.valueFault s.params 1 m1 = none → (ioPut s (s.core.operand 1 m1)).1 = .fail →
      ∃ t, exec (.output m1) s = .next t ∧ t.core.status = .halted ∧ t.core.fcause = none ∧
        t.core.pc = s.core.pc ∧ t.core.mem = s.core.mem ∧ ∀ n, t.chan n = s.chan n)

/-- R126: `Release` of a Halted, unreleased instance with channel handles drops its consumer and its producer
handle and sets `released`, and changes neither the registers, the memory and the device of any instance nor
any queue; it is enabled for no other instance. R160: each of the two handles of a Faulted instance may be
dropped, in a turn of its own, which changes nothing else (log 18), and of no other instance. (A turn that is not
enabled changes nothing, log 5.) -/
def Obligations.ReleaseDropsBothHandles : Prop :=
  ∀ (s : State) (k : Nat) (rest : List Turn) (c : CoreState), s.instances[k]? = some c →
    (s.schedule = .release k :: rest →
      (∀ cin cout, c.status = .halted → c.released = false → c.dev.handles = some (cin, cout) →
        ∃ t, step s = .next t ∧ t.instances = s.instances.set k { c with released := true } ∧
          (t.chan cin).rxAlive = false ∧ (t.chan cout).txAlive = false ∧
          (∀ n, (t.chan n).q = (s.chan n).q) ∧
          (∀ n, n ≠ cin → n ≠ cout → t.chan n = s.chan n)) ∧
      (c.status ≠ .halted ∨ c.released = true ∨ c.dev.handles = none →
        step s = .next { s with schedule := rest })) ∧
    (s.schedule = .faultedDropRx k :: rest →
      (∀ cin cout, c.status = .faulted → c.dev.handles = some (cin, cout) →
        ∃ t, step s = .next t ∧ t.instances = s.instances ∧ t.chan cin = (s.chan cin).dropRx ∧
          ∀ n, n ≠ cin → t.chan n = s.chan n) ∧
      (c.status ≠ .faulted ∨ c.dev.handles = none → step s = .next { s with schedule := rest })) ∧
    (s.schedule = .faultedDropTx k :: rest →
      (∀ cin cout, c.status = .faulted → c.dev.handles = some (cin, cout) →
        ∃ t, step s = .next t ∧ t.instances = s.instances ∧ t.chan cout = (s.chan cout).dropTx ∧
          ∀ n, n ≠ cout → t.chan n = s.chan n) ∧
      (c.status ≠ .faulted ∨ c.dev.handles = none → step s = .next { s with schedule := rest }))

/-! ### The Connector -/

/-- R134: with a value in hand, a Connector's step sends it to the next downstream, whether or not that has a
consumer, and keeps the value until it has been sent to the last. -/
def Obligations.ConnectorSendsToNextDownstream : Prop :=
  ∀ (s : State) (j : Nat) (rest : List Turn) (c : Connector) (v : Word) (d : Nat),
    s.schedule = .connector j :: rest → s.conns[j]? = some c → c.done = false → c.cur = some v →
    c.down[c.k]? = some d → d < s.chans.length →
      ∃ t, step s = .next t ∧
        (t.chan d).q = (if (s.chan d).rxAlive then (s.chan d).q ++ [v] else (s.chan d).q) ∧
        (∀ n, n ≠ d → t.chan n = s.chan n) ∧
        t.conns[j]? =
          some { c with cur := if c.k + 1 = c.down.length then none else some v, k := c.k + 1 } ∧
        t.instances = s.instances

/-- R136: a Connector left to itself sends every value queued upstream to every downstream whose consumer is
alive, in order, without loss or duplication, and holds none back. -/
def Obligations.ConnectorRelaysWholeStream : Prop :=
  ∀ (s : State) (j : Nat) (c : Connector),
    s.conns[j]? = some c → c.done = false → c.cur = none → c.down ≠ [] → c.down.Nodup →
    c.up ∉ c.down → c.up < s.chans.length → (∀ d ∈ c.down, d < s.chans.length) →
      ∃ t, connectorTurns j ((s.chan c.up).q.length * (c.down.length + 1)) s = t ∧
        (t.chan c.up).q = [] ∧
        (∀ d ∈ c.down,
          (t.chan d).q =
            if (s.chan d).rxAlive then (s.chan d).q ++ (s.chan c.up).q else (s.chan d).q) ∧
        (∀ n, (t.chan n).txAlive = (s.chan n).txAlive ∧ (t.chan n).rxAlive = (s.chan n).rxAlive) ∧
        ∃ k, t.conns[j]? = some { c with k := k }

/-- R133, R135: with no value in hand, a Connector whose upstream is empty and closed terminates, dropping its
consumer handle and every producer handle, and leaves every other channel as it is; one whose upstream is empty
and open waits; a terminated one has no step (log 5). -/
def Obligations.ConnectorTerminatesOnClosedUpstream : Prop :=
  ∀ (s : State) (j : Nat) (rest : List Turn) (c : Connector),
    s.schedule = .connector j :: rest → s.conns[j]? = some c → c.cur = none →
    (s.chan c.up).q = [] →
      (c.done = false → (s.chan c.up).txAlive = false →
        ∃ t, step s = .next t ∧ t.conns[j]? = some { c with done := true } ∧
          (t.chan c.up).rxAlive = false ∧ (∀ d ∈ c.down, (t.chan d).txAlive = false) ∧
          (∀ n, (t.chan n).q = (s.chan n).q) ∧
          (∀ n, n ≠ c.up → n ∉ c.down → t.chan n = s.chan n) ∧ t.instances = s.instances) ∧
      (c.done = false → (s.chan c.up).txAlive = true → step s = .next { s with schedule := rest }) ∧
      (c.done = true → step s = .next { s with schedule := rest })

/-! ### The Network Orchestrator -/

/-- R144: a word drained from a machine joins its part; the third makes a group, which goes to the holding
register or ends the run when its destination is the sentinel address, and otherwise is sent, `x` then `y`, to
the machine addressed; an empty queue passes the sweep on to the next machine. -/
def Obligations.OrchestratorRoutesGroups : Prop :=
  ∀ (s : State) (o : Orchestrator) (i : Nat) (n : NetNode) (v : Word) (rest : List Word)
    (seen seen₁ seen₂ : Bool),
    s.orch = some o → o.phase = .drain i → o.nodes[i]? = some n →
      ((s.chan n.outCh).q = v :: rest → n.outCh < s.chans.length →
        (n.part.length < 2 →
          ∃ t o', orchestratorTurn s seen = .next t ∧ t.orch = some o' ∧ o'.phase = .drain i ∧
            o'.nodes[i]? = some { n with part := n.part ++ [v] } ∧ (t.chan n.outCh).q = rest) ∧
        (∀ dest x, n.part = [dest, x] →
          (dest = o.sentinel → o.mode = .firstSolution →
            ∃ t, orchestratorTurn s seen = .next t ∧ t.networkAnswer = some v) ∧
          (dest = o.sentinel → o.mode = .repeatValue →
            ∃ t o', orchestratorTurn s seen = .next t ∧ t.orch = some o' ∧ o'.held = some (x, v) ∧
              o'.phase = .drain i ∧ o'.routed = true ∧ o'.nodes[i]? = some { n with part := [] }) ∧
          (∀ (d : Nat) (m : NetNode), dest ≠ o.sentinel → dest.toInt = (d : Int) → o.nodes[d]? = some m →
            m.inCh < s.chans.length → m.inCh ≠ n.outCh → (s.chan m.inCh).rxAlive = true →
              ∃ t o', orchestratorTurns [seen, seen₁, seen₂] s = .next t ∧ t.orch = some o' ∧
                (t.chan m.inCh).q = (s.chan m.inCh).q ++ [x, v] ∧ o'.phase = .drain i ∧
                o'.routed = true ∧ o'.nodes[i]? = some { n with part := [] }))) ∧
      ((s.chan n.outCh).q = [] → (s.chan n.outCh).txAlive = true →
        ∃ t, orchestratorTurn s seen = .next t ∧ t.orch = some { o with phase := .drain (i + 1) } ∧
          ∀ m, t.chan m = s.chan m)

/-- R145: at the end of a sweep the idle count is reset by a routed group and grows otherwise; past the
threshold with a pair held the idle flags are read; one that reads 0 ends the attempt; when all read 1, the
pair delivered the time before ends the run with its `y`, and any other pair is delivered to address 0,
`x` then `y`, and recorded. R146: after its pause the orchestrator starts the next sweep at machine 0 with no group
routed. R54: a read of a flag gives some value it has held at or before the read, and may give any of them: 0, with
which a new flag starts, and whatever was written to it. (That the schedule's turn says which is the model's form of
it, log 26; one that has ended acts no more and keeps its handles, log 27.) -/
def Obligations.OrchestratorDetectsIdleness : Prop :=
  (∀ (c : IdleCell) (b v : Bool),
    c.held (c.read b) = true ∧ (c.held b = true → c.read b = b) ∧ c.held c.value = true ∧
      (IdleCell.fresh.held b = true ↔ b = false) ∧
      (c.write v).value = v ∧ ((c.write v).held b = true ↔ b = v ∨ c.held b = true)) ∧
  ∀ (s : State) (o : Orchestrator) (seen seen₁ seen₂ : Bool), s.orch = some o →
    (∀ i, o.phase = .drain i → o.nodes.length ≤ i →
      ∃ t o', orchestratorTurn s seen = .next t ∧ t.orch = some o' ∧
        o'.idleCount = (if o.routed then 0 else o.idleCount + 1) ∧
        o'.phase =
          (if o.routed = false ∧ o.threshold < o.idleCount + 1 ∧ o.held ≠ none then .check 0
            else .pause)) ∧
    (∀ i n, o.phase = .check i → o.nodes[i]? = some n →
      ∃ t o', orchestratorTurn s seen = .next t ∧ t.orch = some o' ∧
        o'.phase = (if (s.idleCell n.machine).read seen then .check (i + 1) else .pause)) ∧
    (∀ i x y, o.phase = .check i → o.nodes.length ≤ i → o.held = some (x, y) →
      (o.lastSent = some (x, y) → ∃ t, orchestratorTurn s seen = .next t ∧ t.networkAnswer = some y) ∧
      (∀ m, o.lastSent ≠ some (x, y) → o.nodes[0]? = some m → m.inCh < s.chans.length →
        (s.chan m.inCh).rxAlive = true →
          ∃ t o', orchestratorTurns [seen, seen₁, seen₂] s = .next t ∧ t.orch = some o' ∧
            (t.chan m.inCh).q = (s.chan m.inCh).q ++ [x, y] ∧ o'.lastSent = some (x, y) ∧
            o'.held = some (x, y) ∧ o'.idleCount = 0 ∧ o'.phase = .pause)) ∧
    (o.phase = .pause →
      ∃ t, orchestratorTurn s seen = .next t ∧ t.orch = some { o with routed := false, phase := .drain 0 } ∧
        t.instances = s.instances ∧ t.chans = s.chans ∧ t.conns = s.conns ∧ t.received = s.received) ∧
    (∀ y, o.phase = .ended y → orchestratorTurn s seen = .next s)

/-- R147, R144: a machine's output found closed, a send to a machine that fails, and a destination that is
neither a machine nor the sentinel address end the network run in failure. -/
def Obligations.OrchestratorFailureEndsRun : Prop :=
  ∀ (s : State) (o : Orchestrator) (seen : Bool), s.orch = some o →
    (∀ i n, o.phase = .drain i → o.nodes[i]? = some n → (s.chan n.outCh).q = [] →
      (s.chan n.outCh).txAlive = false → orchestratorTurn s seen = .fault .orchestratorFailure) ∧
    (∀ i n dest x y rest, o.phase = .drain i → o.nodes[i]? = some n → n.part = [dest, x] →
      (s.chan n.outCh).q = y :: rest → dest ≠ o.sentinel →
      (dest.toInt < 0 ∨ (o.nodes.length : Int) ≤ dest.toInt) →
        orchestratorTurn s seen = .fault .orchestratorFailure) ∧
    (∀ i d m x y, o.phase = .sendX i d x y ∨ o.phase = .sendY i d y → o.nodes[d]? = some m →
      (s.chan m.inCh).rxAlive = false → orchestratorTurn s seen = .fault .orchestratorFailure) ∧
    (∀ m x y, o.phase = .deliverX x y ∨ o.phase = .deliverY x y → o.nodes[0]? = some m →
      (s.chan m.inCh).rxAlive = false → orchestratorTurn s seen = .fault .orchestratorFailure)

/-! ### Reset, the host, and runs -/

/-- R34: after `Load(P, d)`, cell `a` holds `P[a]` below the length of `P` and 0 past it, the length is that of
`P`, and `pc`, `rb`, `halted`, `fcause`, `finfo`, `released` are 0. -/
def Obligations.LoadIsReset : Prop :=
  ∀ (p : Params) (program : List Word) (d : Device),
    (∀ a, (State.loaded p program d).core.mem.read a = program.getD a 0#64) ∧
    (State.loaded p program d).core.mlen = program.length ∧
    (State.loaded p program d).core.pc = 0 ∧ (State.loaded p program d).core.rb = 0#64 ∧
    (State.loaded p program d).core.halted = false ∧ (State.loaded p program d).core.fcauseCode = 0 ∧
    (State.loaded p program d).core.finfo = 0 ∧ (State.loaded p program d).core.released = false ∧
    (State.loaded p program d).core.dev = d

/-- R73: the reader of program text. A text is the program `ws` exactly when its pieces, line breaks removed,
split at every comma, spaces and tabs around each stripped, are number texts of the words of `ws` in order; it is
no program exactly when some piece is no number text or stands for no word; and what removing, splitting and
stripping do. A program printed as comma-separated decimal numbers is read back word for word; a text with a
character that is none of the spec's is refused. (Which characters are line breaks is log 14.) -/
def Obligations.ProgramTextIsReadBack : Prop :=
  (∀ ws : List Word, ws ≠ [] → parseProgram (programText ws) = some ws) ∧
  (∀ (text : List Char) (ws : List Word), parseProgram text = some ws ↔
    List.Forall₂ (fun piece w => numberText piece = true ∧ numberValue piece = w.toInt)
      (programPieces text) ws) ∧
  (∀ text : List Char, parseProgram text = none ↔
    ∃ piece ∈ programPieces text,
      numberText piece = false ∨ numberValue piece < Word.minZ ∨ Word.maxZ < numberValue piece) ∧
  (∀ text : List Char, (∃ ch ∈ text, programChar ch = false) → parseProgram text = none) ∧
  (∀ a b : List Char, joinLines (a ++ '\n' :: b) = joinLines (a ++ b) ∧
    joinLines (a ++ '\r' :: b) = joinLines (a ++ b) ∧
    ('\n' ∉ a → '\r' ∉ a → joinLines a = a)) ∧
  (∀ piece rest : List Char, ',' ∉ piece →
    splitCommas piece = [piece] ∧ splitCommas (piece ++ ',' :: rest) = piece :: splitCommas rest) ∧
  (∀ l cs r : List Char, (∀ ch ∈ l ++ r, ch = ' ' ∨ ch = '\t') →
    stripBlanks (l ++ cs ++ r) = stripBlanks cs ∧ (numberText cs = true → stripBlanks cs = cs)) ∧
  parseProgram "1002,4,3,4,33".toList = some [1002, 4, 3, 4, 33] ∧
  parseProgram "1002, 4,3\n,4 ,\t-33".toList = some [1002, 4, 3, 4, Word.ofZ (-33)] ∧
  parseProgram "1,,2".toList = none ∧ parseProgram "".toList = none ∧ parseProgram "+1".toList = none ∧
  parseProgram "1-2".toList = none ∧ parseProgram "--1".toList = none ∧ parseProgram "-".toList = none ∧
  parseProgram "9223372036854775808".toList = none

/-- R186: the host's send, receive and drop act on handles it holds and are refused on any other. -/
def Obligations.HostUsesOnlyItsHandles : Prop :=
  ∀ (s : State) (n : Nat) (rest : List Turn) (v : Word),
    (s.schedule = .host (.send n v) :: rest →
      (s.hostTx n = true → step s = .next (({ s with schedule := rest }).send n v).2) ∧
      (s.hostTx n = false → step s = .refused .hostMisuse)) ∧
    (s.schedule = .host (.dropTx n) :: rest →
      (s.hostTx n = true →
        step s = .next (({ s with schedule := rest }).modChan n Channel.dropTx)) ∧
      (s.hostTx n = false → step s = .refused .hostMisuse)) ∧
    (s.schedule = .host (.dropRx n) :: rest →
      (s.hostRx n = true →
        step s = .next (({ s with schedule := rest }).modChan n Channel.dropRx)) ∧
      (s.hostRx n = false → step s = .refused .hostMisuse)) ∧
    (s.schedule = .host (.recv n) :: rest →
      (∀ w q, s.hostRx n = true → (s.chan n).q = w :: q → n < s.chans.length →
        ∃ t, step s = .next t ∧ t.received = s.received ++ [(n, w)] ∧ (t.chan n).q = q) ∧
      (s.hostRx n = false → step s = .refused .hostMisuse))

/-- R124, R180, R181: the host's `Load` appends a new instance on a new device of the kind asked for, and is
refused for a program longer than the limit; R73: from text it is the load of the program the text is, and refused
for a text that is none. A channel device is made with two new channels, each empty with both flags 1: the device
has the consumer handle of its input and the producer handle of its output channel, the host the other two;
`first_done` and `idle` are 0; a Latest-value device starts with the value the host gives; a new channel is
empty with both handles the host's. (Constructing and loading are one action in the model, log 13.) -/
def Obligations.ConstructionGivesFreshDevices : Prop :=
  ∀ (s : State) (program : List Word) (rest : List Turn),
    (program.length ≤ s.params.memLimit →
      (s.schedule = .host (.load program .inert) :: rest →
        ∃ t, step s = .next t ∧ t.chans = s.chans ∧
          t.instances = s.instances ++ [CoreState.load program .inert]) ∧
      (s.schedule = .host (.load program .blocking) :: rest →
        ∃ t, step s = .next t ∧
          t.instances =
            s.instances ++ [CoreState.load program (.blocking s.chans.length (s.chans.length + 1))] ∧
          t.chans =
            s.chans ++
              [⟨[], true, true, .host, .device s.instances.length⟩,
                ⟨[], true, true, .device s.instances.length, .host⟩]) ∧
      (s.schedule = .host (.load program .nonblocking) :: rest →
        ∃ t, step s = .next t ∧
          t.instances =
            s.instances ++
              [CoreState.load program (.nonblocking s.chans.length (s.chans.length + 1) false .fresh none)] ∧
          t.chans =
            s.chans ++
              [⟨[], true, true, .host, .device s.instances.length⟩,
                ⟨[], true, true, .device s.instances.length, .host⟩]) ∧
      (∀ v, s.schedule = .host (.load program (.latest v)) :: rest →
        ∃ t, step s = .next t ∧ t.chans = s.chans ∧
          t.instances = s.instances ++ [CoreState.load program (.latest v)])) ∧
    (∀ kind, s.params.memLimit < program.length →
      s.schedule = .host (.load program kind) :: rest → step s = .refused .loadRefused) ∧
    (∀ kind text, s.schedule = .host (.loadText text kind) :: rest →
      (parseProgram text = some program →
        step s = step { s with schedule := .host (.load program kind) :: rest }) ∧
      (parseProgram text = none → step s = .refused .loadRefused)) ∧
    (s.schedule = .host .newChannel :: rest →
      ∃ t, step s = .next t ∧ t.instances = s.instances ∧
        t.chans = s.chans ++ [⟨[], true, true, .host, .host⟩])

/-- R131, R132: the host makes a Connector of a consumer handle and one or more distinct producer handles that
it holds; the handles move into it, which closes none of them, and it starts with nothing in hand. Without a
downstream, or with a handle that is not the host's, it cannot be made. (That it may act from then on, with
no `Run` of its own, is log 29.) -/
def Obligations.ConnectMovesTheHandles : Prop :=
  ∀ (s : State) (up : Nat) (down : List Nat) (rest : List Turn),
    s.schedule = .host (.connect up down) :: rest →
      (s.hostRx up = true → down ≠ [] → down.Nodup → (∀ d ∈ down, s.hostTx d = true) →
        ∃ t, step s = .next t ∧
          t.conns = s.conns ++ [{ up := up, down := down, cur := none, k := 0, done := false }] ∧
          (t.chan up).rxHolder = .connector s.conns.length ∧ t.hostRx up = false ∧
          (∀ d ∈ down, (t.chan d).txHolder = .connector s.conns.length ∧ t.hostTx d = false) ∧
          (∀ n, (t.chan n).q = (s.chan n).q ∧ (t.chan n).txAlive = (s.chan n).txAlive ∧
            (t.chan n).rxAlive = (s.chan n).rxAlive) ∧
          t.instances = s.instances) ∧
      (down = [] ∨ s.hostRx up = false ∨ (∃ d ∈ down, s.hostTx d = false) →
        step s = .refused .hostMisuse)

/-- R143, R142, R181: the boot of a network of `n` machines: each a load of the same program on a
Non-blocking-with-status device whose far handles are the orchestrator's, with its address queued as its
first input, and run; the orchestrator starts with every part empty, nothing held and a count of 0. The
parameters R141 does not allow, and a program that does not fit, are refused (log 13). -/
def Obligations.BootSendsEachAddress : Prop :=
  ∀ (s : State) (program : List Word) (n : Nat) (sentinel : Word) (threshold : Nat) (mode : NetMode)
    (rest : List Turn),
    s.schedule = .host (.bootNetwork program n sentinel threshold mode) :: rest →
      (s.orch = none → 1 ≤ n → n ≤ 9223372036854775808 → program.length ≤ s.params.memLimit →
        (sentinel.toInt < 0 ∨ (n : Int) ≤ sentinel.toInt) →
        ∃ t o, step s = .next t ∧ t.orch = some o ∧ o.nodes.length = n ∧ o.sentinel = sentinel ∧
          o.threshold = threshold ∧ o.mode = mode ∧ o.idleCount = 0 ∧ o.held = none ∧
          o.lastSent = none ∧ o.routed = false ∧ o.phase = .drain 0 ∧
          t.instances.length = s.instances.length + n ∧
          ∀ i, i < n → ∃ (m : NetNode) (a : Word), o.nodes[i]? = some m ∧ m.part = [] ∧
            t.instances[m.machine]? =
              some (CoreState.load program (.nonblocking m.inCh m.outCh false .fresh none)).start ∧
            a.toInt = (i : Int) ∧
            t.chans[m.inCh]? = some ⟨[a], true, true, .orchestrator, .device m.machine⟩ ∧
            t.chans[m.outCh]? = some ⟨[], true, true, .device m.machine, .orchestrator⟩) ∧
      (s.orch ≠ none ∨ n = 0 ∨ 9223372036854775808 < n ∨
        (0 ≤ sentinel.toInt ∧ sentinel.toInt < (n : Int)) → step s = .refused .hostMisuse) ∧
      (s.orch = none → 1 ≤ n → n ≤ 9223372036854775808 → s.params.memLimit < program.length →
        (sentinel.toInt < 0 ∨ (n : Int) ≤ sentinel.toInt) → step s = .refused .loadRefused)

/-- R124, R143: the host hands to the orchestrator the far handles of machines that it constructed itself, each on
a Non-blocking-with-status device: the handles are then the orchestrator's, the address of each machine is queued
after what the host had primed, the machine is run, and the orchestrator starts as after a boot; where a machine has
dropped its input, the `Send` of its address is the failure of R147. A handle that is not the host's and an
instance on another device are refused. (What the orchestrator does with handles handed to it is the model's
choice, log 28.) -/
def Obligations.HandOverMakesTheNetwork : Prop :=
  ∀ (s : State) (nodes : List NetNode) (sentinel : Word) (threshold : Nat) (mode : NetMode)
    (rest : List Turn),
    s.schedule = .host (.handOver (nodes.map NetNode.machine) sentinel threshold mode) :: rest →
      (s.orch = none → nodes ≠ [] → nodes.length ≤ 9223372036854775808 →
        (sentinel.toInt < 0 ∨ (nodes.length : Int) ≤ sentinel.toInt) →
        (nodes.map NetNode.machine).Nodup → (nodes.map NetNode.inCh).Nodup →
        (∀ m ∈ nodes, m.part = [] ∧ s.hostTx m.inCh = true ∧ s.hostRx m.outCh = true ∧
          ∃ c first idle owed, s.instances[m.machine]? = some c ∧
            c.dev = .nonblocking m.inCh m.outCh first idle owed) →
        ((∃ m ∈ nodes, (s.chan m.inCh).rxAlive = false) → step s = .fault .orchestratorFailure) ∧
        ((∀ m ∈ nodes, (s.chan m.inCh).rxAlive = true) →
        ∃ t o, step s = .next t ∧ t.orch = some o ∧ o.nodes = nodes ∧ o.sentinel = sentinel ∧
          o.threshold = threshold ∧ o.mode = mode ∧ o.idleCount = 0 ∧ o.held = none ∧
          o.lastSent = none ∧ o.routed = false ∧ o.phase = .drain 0 ∧
          ∀ (i : Nat) (m : NetNode) (c : CoreState), nodes[i]? = some m →
            s.instances[m.machine]? = some c →
              ∃ a : Word, a.toInt = (i : Int) ∧ t.instances[m.machine]? = some c.start ∧
                (t.chan m.inCh).q = (s.chan m.inCh).q ++ [a] ∧ t.hostTx m.inCh = false ∧
                (t.chan m.inCh).txHolder = .orchestrator ∧ t.hostRx m.outCh = false ∧
                (t.chan m.outCh).rxHolder = .orchestrator)) ∧
      ((∃ m ∈ nodes, ∀ c, s.instances[m.machine]? = some c →
          (∀ cin cout first idle owed, c.dev = .nonblocking cin cout first idle owed →
            s.hostTx cin = false ∨ s.hostRx cout = false)) → step s = .refused .hostMisuse)

/-- R183: `Run` of an instance makes it an active agent and changes nothing else. (A `Run` of an instance that does
not exist is refused as host misuse: the model's, log 12.) R171, R184: `Run` has returned nothing while the core is
Running or has not been run; a Halted core returns `Halted`, a Faulted one its two fault registers; `Inspect` then
reads the cells, 0 past the length, the length, and the Latest-value register. R185: the run of the system has ended
when every core, run or not, and every Connector has ended and the host has what it waits for. (That the results are
read off the state is log 25; that the instance `State.reset` stands with is none of the system's cores, while it is
as reset left it and the host has loaded another, is log 8.) -/
def Obligations.RunReturnsAndInspectReads : Prop :=
  (∀ (s : State) (k : Nat) (rest : List Turn), s.schedule = .host (.run k) :: rest →
    (∀ c, s.instances[k]? = some c →
      ∃ t, step s = .next t ∧ t.instances = s.instances.set k { c with started := true } ∧
        t.params = s.params ∧ t.chans = s.chans ∧ t.conns = s.conns ∧ t.orch = s.orch ∧
        t.received = s.received ∧ t.schedule = rest) ∧
    (s.instances.length ≤ k → step s = .refused .hostMisuse)) ∧
  (∀ c : CoreState,
    (c.status = .running ∨ c.started = false →
      c.runResult = none ∧ (∀ a, c.inspect a = none) ∧ c.inspectLength = none ∧ c.inspectLatest = none) ∧
    (c.started = true → c.status = .halted → c.runResult = some .halted) ∧
    (∀ f, c.started = true → c.fcause = some f →
      c.status = .faulted ∧ c.runResult = some (.faulted f c.finfo)) ∧
    (c.started = true → c.status ≠ .running →
      (∀ a, (a < c.mlen → c.inspect a = some (c.mem.read a)) ∧ (c.mlen ≤ a → c.inspect a = some 0#64)) ∧
      c.inspectLength = some c.mlen ∧ ∀ lv, c.dev = .latest lv → c.inspectLatest = some lv)) ∧
  (∀ (s : State) (waited : List (Nat × Word) → Bool), s.ended waited = true ↔
    (∀ (k : Nat) (c : CoreState), s.instances[k]? = some c →
      ¬ (k = 0 ∧ c = State.reset.core ∧ 1 < s.instances.length) →
      c.status = .halted ∧ (c.released = true ∨ c.dev.handles = none)) ∧
    (∀ j ∈ s.conns, j.done = true) ∧ waited s.received = true)

/-! ### Invariants and whole-machine rules -/

/-- The invariant holds at reset, which is a load of the empty program, and right after every load that fits.
(The program and the device of `State.reset` are the model's choice, log 8; the canonical form of memory in the
invariant is the model's own, log 1.) -/
def Obligations.ResetMeetsInvariant : Prop :=
  State.reset.Inv ∧ (∃ p d, State.reset = State.loaded p [] d) ∧
  ∀ (p : Params) (program : List Word) (d : Device), p.legal → program.length ≤ p.memLimit →
    (State.loaded p program d).Inv

/-- R22, R27, R32: from every state that meets the invariant, every step of every agent gives a state that
meets it: legal parameters; memory in canonical form (log 1), 0 past `mlen`, `mlen` within the limit; `pc` within 63
bits; no core both halted and faulted; `finfo` as R150 has it for `fcause`; only halted cores released; a core that
has not been run Running. -/
def Obligations.StepKeepsInvariant : Prop :=
  ∀ s t : State, s.Inv → step s = .next t → t.Inv

/-- R5, R20: no step changes the parameters, removes an instance, or changes which device is bound to one and
with which handles. -/
def Obligations.ParametersAndBindingsNeverChange : Prop :=
  ∀ s t : State, step s = .next t →
    t.params = s.params ∧
    ∀ (k : Nat) (c : CoreState), s.instances[k]? = some c →
      ∃ c' : CoreState, t.instances[k]? = some c' ∧ c'.dev.binding = c.dev.binding

/-- R25, R160: once an instance has faulted, no step of any agent changes its fault registers, nor anything
else of it but the shared `idle` cell of its device; a `Run` of it takes no step (R183). -/
def Obligations.FaultIsSticky : Prop :=
  ∀ (s t : State) (k : Nat) (c : CoreState), step s = .next t → s.instances[k]? = some c →
    c.fcause ≠ none →
      ∃ c', t.instances[k]? = some c' ∧ c.SameRegisters c' ∧ c'.released = c.released ∧
        (c' = c ∨ c' = c.settleIdle ∨ c' = { c with started := true })

/-- R33, R53: no step of any other agent, another core, a Connector, the orchestrator or the host, changes the
memory or a register of an instance. -/
def Obligations.OtherAgentsLeaveCoreAlone : Prop :=
  ∀ (s t : State) (k : Nat) (c : CoreState), step s = .next t → s.instances[k]? = some c →
    (s.schedule = [] → k ≠ s.before.length) → (∀ rest, s.schedule ≠ .core k :: rest) →
      ∃ c', t.instances[k]? = some c' ∧ c.SameRegisters c'

/-- R24, R27, R183: no step makes an instance's store shorter, clears its halted flag, takes back a release or takes
back a `Run`. R54: a value that the `idle` cell of its device has held stays one that a read of it may give. -/
def Obligations.LengthGrowsAndHaltedStays : Prop :=
  ∀ (s t : State) (k : Nat) (c : CoreState), step s = .next t → s.instances[k]? = some c →
    ∃ c', t.instances[k]? = some c' ∧ c.mlen ≤ c'.mlen ∧ (c.halted = true → c'.halted = true) ∧
      (c.released = true → c'.released = true) ∧ (c.started = true → c'.started = true) ∧
      ∀ b, c.dev.idleCell.held b = true → c'.dev.idleCell.held b = true

/-- R192: an instruction's effect on its core depends on that core, the parameters and the port's answer alone:
in two states that agree on these, it leaves the same memory, registers and faults. -/
def Obligations.CoreDependsOnlyOnItselfAndPort : Prop :=
  ∀ (i : Instr) (s s' t : State), s'.core = s.core → s'.params = s.params →
    (ioGet s').1 = (ioGet s).1 → (∀ v, (ioPut s' v).1 = (ioPut s v).1) → exec i s = .next t →
      ∃ t', exec i s' = .next t' ∧ t.core.SameRegisters t'.core
end

