-- ==== Sys2Proof/Laws/Decoding.lean ====
section
/-!
SUPPORT. What the parts of the decoder do: mode digits, opcodes, and what a word that decodes is made of.
-/
namespace Sys2Proof

theorem modeOfDigit_digit {n : Nat} {m : Mode} (h : modeOfDigit n = some m) : m.digit = n := by
  rcases n with _ | _ | _ | n <;> simp_all [modeOfDigit] <;> subst h <;> rfl

/-- R61: a mode digit of 0, 1 or 2 is a mode; any other is none. -/
theorem modeOfDigit_isSome (n : Nat) : (modeOfDigit n).isSome = decide (n ≤ 2) := by
  rcases n with _ | _ | _ | n <;> simp [modeOfDigit]

theorem instrOfOpcode_opcode {op : Nat} {m1 m2 m3 : Mode} {i : Instr}
    (h : instrOfOpcode op m1 m2 m3 = some i) : i.opcode = op := by
  unfold instrOfOpcode at h
  split at h <;> simp at h <;> subst h <;> rfl

/-- R63: the valid opcodes. -/
theorem validOpcode_iff (op : Nat) :
    validOpcode op = true ↔ op ∈ [1, 2, 3, 4, 5, 6, 7, 8, 9, 99] := by
  unfold validOpcode instrOfOpcode
  split <;> simp_all

theorem instrOfOpcode_isSome (op : Nat) (m1 m2 m3 : Mode) :
    (instrOfOpcode op m1 m2 m3).isSome = validOpcode op := by
  unfold validOpcode instrOfOpcode
  split <;> simp_all

/-- R61: what a word that decodes is made of. -/
theorem decodeNat_ok {n : Nat} {i : Instr} (h : decodeNat n = .ok i) :
    ∃ m1 m2 m3, modeOfDigit (digit n 2) = some m1 ∧ modeOfDigit (digit n 3) = some m2 ∧
      modeOfDigit (digit n 4) = some m3 ∧ instrOfOpcode (opcodeField n) m1 m2 m3 = some i := by
  unfold decodeNat at h
  split at h
  · split at h <;> try contradiction
    split at h <;> simp at h
    subst h
    exact ⟨_, _, _, ‹_›, ‹_›, ‹_›, ‹_›⟩
  · simp at h

/-- The decoder of one word never finds it truncated. -/
theorem decode_not_truncated (w : Word) : decode w ≠ .error .truncated := by
  unfold decode
  split
  · simp
  · unfold decodeNat
    split
    · split <;> simp
      split <;> simp
    · simp

theorem encodeNat_lt (i : Instr) : encodeNat i < 100000 := by
  have hd : ∀ m : Mode, m.digit ≤ 2 := fun m => by cases m <;> decide
  have hk : ∀ k, i.modeDigit k ≤ 2 := fun k => by
    unfold Instr.modeDigit
    split
    · exact hd _
    · exact Nat.zero_le _
  have ho : i.opcode ≤ 99 := by cases i <;> simp [Instr.opcode]
  have h0 := hk 0
  have h1 := hk 1
  have h2 := hk 2
  unfold encodeNat
  omega

theorem encode_toInt (i : Instr) : (encode i).toInt = (encodeNat i : Int) := by
  have := encodeNat_lt i
  rw [encode, BitVec.toInt_eq_toNat_of_lt] <;> rw [BitVec.toNat_ofNat] <;> omega

end Sys2Proof
end

