-- ==== Sys2Proof/Laws/State.lean ====
section
/-!
SUPPORT. One lemma per field per update of an instance and of the state, each true by unfolding, so that no
proof unfolds a record update.
-/
namespace Sys2Proof.Machine

/-! ### `CoreState.grow` -/

@[simp] theorem CoreState.grow_mem (c : CoreState) (a : Nat) :
    (c.grow a).mem = c.mem := rfl
@[simp] theorem CoreState.grow_mlen (c : CoreState) (a : Nat) :
    (c.grow a).mlen = max c.mlen (a + 1) := rfl
@[simp] theorem CoreState.grow_pc (c : CoreState) (a : Nat) :
    (c.grow a).pc = c.pc := rfl
@[simp] theorem CoreState.grow_rb (c : CoreState) (a : Nat) :
    (c.grow a).rb = c.rb := rfl
@[simp] theorem CoreState.grow_halted (c : CoreState) (a : Nat) :
    (c.grow a).halted = c.halted := rfl
@[simp] theorem CoreState.grow_fcause (c : CoreState) (a : Nat) :
    (c.grow a).fcause = c.fcause := rfl
@[simp] theorem CoreState.grow_finfo (c : CoreState) (a : Nat) :
    (c.grow a).finfo = c.finfo := rfl
@[simp] theorem CoreState.grow_released (c : CoreState) (a : Nat) :
    (c.grow a).released = c.released := rfl
@[simp] theorem CoreState.grow_started (c : CoreState) (a : Nat) :
    (c.grow a).started = c.started := rfl
@[simp] theorem CoreState.grow_dev (c : CoreState) (a : Nat) :
    (c.grow a).dev = c.dev := rfl

/-! ### `CoreState.memWrite` -/

@[simp] theorem CoreState.memWrite_mem (c : CoreState) (a : Nat) (v : Word) :
    (c.memWrite a v).mem = c.mem.write a v := rfl
@[simp] theorem CoreState.memWrite_mlen (c : CoreState) (a : Nat) (v : Word) :
    (c.memWrite a v).mlen = max c.mlen (a + 1) := rfl
@[simp] theorem CoreState.memWrite_pc (c : CoreState) (a : Nat) (v : Word) :
    (c.memWrite a v).pc = c.pc := rfl
@[simp] theorem CoreState.memWrite_rb (c : CoreState) (a : Nat) (v : Word) :
    (c.memWrite a v).rb = c.rb := rfl
@[simp] theorem CoreState.memWrite_halted (c : CoreState) (a : Nat) (v : Word) :
    (c.memWrite a v).halted = c.halted := rfl
@[simp] theorem CoreState.memWrite_fcause (c : CoreState) (a : Nat) (v : Word) :
    (c.memWrite a v).fcause = c.fcause := rfl
@[simp] theorem CoreState.memWrite_finfo (c : CoreState) (a : Nat) (v : Word) :
    (c.memWrite a v).finfo = c.finfo := rfl
@[simp] theorem CoreState.memWrite_released (c : CoreState) (a : Nat) (v : Word) :
    (c.memWrite a v).released = c.released := rfl
@[simp] theorem CoreState.memWrite_started (c : CoreState) (a : Nat) (v : Word) :
    (c.memWrite a v).started = c.started := rfl
@[simp] theorem CoreState.memWrite_dev (c : CoreState) (a : Nat) (v : Word) :
    (c.memWrite a v).dev = c.dev := rfl

/-! ### `CoreState.advance` -/

@[simp] theorem CoreState.advance_mem (c : CoreState) (n : Nat) :
    (c.advance n).mem = c.mem := rfl
@[simp] theorem CoreState.advance_mlen (c : CoreState) (n : Nat) :
    (c.advance n).mlen = c.mlen := rfl
@[simp] theorem CoreState.advance_pc (c : CoreState) (n : Nat) :
    (c.advance n).pc = c.pc + n := rfl
@[simp] theorem CoreState.advance_rb (c : CoreState) (n : Nat) :
    (c.advance n).rb = c.rb := rfl
@[simp] theorem CoreState.advance_halted (c : CoreState) (n : Nat) :
    (c.advance n).halted = c.halted := rfl
@[simp] theorem CoreState.advance_fcause (c : CoreState) (n : Nat) :
    (c.advance n).fcause = c.fcause := rfl
@[simp] theorem CoreState.advance_finfo (c : CoreState) (n : Nat) :
    (c.advance n).finfo = c.finfo := rfl
@[simp] theorem CoreState.advance_released (c : CoreState) (n : Nat) :
    (c.advance n).released = c.released := rfl
@[simp] theorem CoreState.advance_started (c : CoreState) (n : Nat) :
    (c.advance n).started = c.started := rfl
@[simp] theorem CoreState.advance_dev (c : CoreState) (n : Nat) :
    (c.advance n).dev = c.dev := rfl

/-! ### `CoreState.jump` -/

@[simp] theorem CoreState.jump_mem (c : CoreState) (t : Nat) :
    (c.jump t).mem = c.mem := rfl
@[simp] theorem CoreState.jump_mlen (c : CoreState) (t : Nat) :
    (c.jump t).mlen = c.mlen := rfl
@[simp] theorem CoreState.jump_pc (c : CoreState) (t : Nat) :
    (c.jump t).pc = t := rfl
@[simp] theorem CoreState.jump_rb (c : CoreState) (t : Nat) :
    (c.jump t).rb = c.rb := rfl
@[simp] theorem CoreState.jump_halted (c : CoreState) (t : Nat) :
    (c.jump t).halted = c.halted := rfl
@[simp] theorem CoreState.jump_fcause (c : CoreState) (t : Nat) :
    (c.jump t).fcause = c.fcause := rfl
@[simp] theorem CoreState.jump_finfo (c : CoreState) (t : Nat) :
    (c.jump t).finfo = c.finfo := rfl
@[simp] theorem CoreState.jump_released (c : CoreState) (t : Nat) :
    (c.jump t).released = c.released := rfl
@[simp] theorem CoreState.jump_started (c : CoreState) (t : Nat) :
    (c.jump t).started = c.started := rfl
@[simp] theorem CoreState.jump_dev (c : CoreState) (t : Nat) :
    (c.jump t).dev = c.dev := rfl

/-! ### `CoreState.halt` -/

@[simp] theorem CoreState.halt_mem (c : CoreState) :
    c.halt.mem = c.mem := rfl
@[simp] theorem CoreState.halt_mlen (c : CoreState) :
    c.halt.mlen = c.mlen := rfl
@[simp] theorem CoreState.halt_pc (c : CoreState) :
    c.halt.pc = c.pc := rfl
@[simp] theorem CoreState.halt_rb (c : CoreState) :
    c.halt.rb = c.rb := rfl
@[simp] theorem CoreState.halt_halted (c : CoreState) :
    c.halt.halted = true := rfl
@[simp] theorem CoreState.halt_fcause (c : CoreState) :
    c.halt.fcause = c.fcause := rfl
@[simp] theorem CoreState.halt_finfo (c : CoreState) :
    c.halt.finfo = c.finfo := rfl
@[simp] theorem CoreState.halt_released (c : CoreState) :
    c.halt.released = c.released := rfl
@[simp] theorem CoreState.halt_started (c : CoreState) :
    c.halt.started = c.started := rfl
@[simp] theorem CoreState.halt_dev (c : CoreState) :
    c.halt.dev = c.dev := rfl

/-! ### `CoreState.setRb` -/

@[simp] theorem CoreState.setRb_mem (c : CoreState) (v : Word) :
    (c.setRb v).mem = c.mem := rfl
@[simp] theorem CoreState.setRb_mlen (c : CoreState) (v : Word) :
    (c.setRb v).mlen = c.mlen := rfl
@[simp] theorem CoreState.setRb_pc (c : CoreState) (v : Word) :
    (c.setRb v).pc = c.pc := rfl
@[simp] theorem CoreState.setRb_rb (c : CoreState) (v : Word) :
    (c.setRb v).rb = v := rfl
@[simp] theorem CoreState.setRb_halted (c : CoreState) (v : Word) :
    (c.setRb v).halted = c.halted := rfl
@[simp] theorem CoreState.setRb_fcause (c : CoreState) (v : Word) :
    (c.setRb v).fcause = c.fcause := rfl
@[simp] theorem CoreState.setRb_finfo (c : CoreState) (v : Word) :
    (c.setRb v).finfo = c.finfo := rfl
@[simp] theorem CoreState.setRb_released (c : CoreState) (v : Word) :
    (c.setRb v).released = c.released := rfl
@[simp] theorem CoreState.setRb_started (c : CoreState) (v : Word) :
    (c.setRb v).started = c.started := rfl
@[simp] theorem CoreState.setRb_dev (c : CoreState) (v : Word) :
    (c.setRb v).dev = c.dev := rfl

/-! ### `CoreState.raise` -/

@[simp] theorem CoreState.raise_mem (c : CoreState) (e : Raise) :
    (c.raise e).mem = c.mem := rfl
@[simp] theorem CoreState.raise_mlen (c : CoreState) (e : Raise) :
    (c.raise e).mlen = c.mlen := rfl
@[simp] theorem CoreState.raise_pc (c : CoreState) (e : Raise) :
    (c.raise e).pc = c.pc := rfl
@[simp] theorem CoreState.raise_rb (c : CoreState) (e : Raise) :
    (c.raise e).rb = c.rb := rfl
@[simp] theorem CoreState.raise_halted (c : CoreState) (e : Raise) :
    (c.raise e).halted = c.halted := rfl
@[simp] theorem CoreState.raise_fcause (c : CoreState) (e : Raise) :
    (c.raise e).fcause = some e.fault := rfl
@[simp] theorem CoreState.raise_finfo (c : CoreState) (e : Raise) :
    (c.raise e).finfo = e.info := rfl
@[simp] theorem CoreState.raise_released (c : CoreState) (e : Raise) :
    (c.raise e).released = c.released := rfl
@[simp] theorem CoreState.raise_started (c : CoreState) (e : Raise) :
    (c.raise e).started = c.started := rfl
@[simp] theorem CoreState.raise_dev (c : CoreState) (e : Raise) :
    (c.raise e).dev = c.dev := rfl

/-! ### `CoreState.start` -/

@[simp] theorem CoreState.start_mem (c : CoreState) :
    c.start.mem = c.mem := rfl
@[simp] theorem CoreState.start_mlen (c : CoreState) :
    c.start.mlen = c.mlen := rfl
@[simp] theorem CoreState.start_pc (c : CoreState) :
    c.start.pc = c.pc := rfl
@[simp] theorem CoreState.start_rb (c : CoreState) :
    c.start.rb = c.rb := rfl
@[simp] theorem CoreState.start_halted (c : CoreState) :
    c.start.halted = c.halted := rfl
@[simp] theorem CoreState.start_fcause (c : CoreState) :
    c.start.fcause = c.fcause := rfl
@[simp] theorem CoreState.start_finfo (c : CoreState) :
    c.start.finfo = c.finfo := rfl
@[simp] theorem CoreState.start_released (c : CoreState) :
    c.start.released = c.released := rfl
@[simp] theorem CoreState.start_started (c : CoreState) :
    c.start.started = true := rfl
@[simp] theorem CoreState.start_dev (c : CoreState) :
    c.start.dev = c.dev := rfl
@[simp] theorem CoreState.start_start (c : CoreState) : c.start.start = c.start := rfl
@[simp] theorem CoreState.start_status (c : CoreState) : c.start.status = c.status := rfl

/-! ### `CoreState.setDev` -/

@[simp] theorem CoreState.setDev_mem (c : CoreState) (d : Device) :
    (c.setDev d).mem = c.mem := rfl
@[simp] theorem CoreState.setDev_mlen (c : CoreState) (d : Device) :
    (c.setDev d).mlen = c.mlen := rfl
@[simp] theorem CoreState.setDev_pc (c : CoreState) (d : Device) :
    (c.setDev d).pc = c.pc := rfl
@[simp] theorem CoreState.setDev_rb (c : CoreState) (d : Device) :
    (c.setDev d).rb = c.rb := rfl
@[simp] theorem CoreState.setDev_halted (c : CoreState) (d : Device) :
    (c.setDev d).halted = c.halted := rfl
@[simp] theorem CoreState.setDev_fcause (c : CoreState) (d : Device) :
    (c.setDev d).fcause = c.fcause := rfl
@[simp] theorem CoreState.setDev_finfo (c : CoreState) (d : Device) :
    (c.setDev d).finfo = c.finfo := rfl
@[simp] theorem CoreState.setDev_released (c : CoreState) (d : Device) :
    (c.setDev d).released = c.released := rfl
@[simp] theorem CoreState.setDev_started (c : CoreState) (d : Device) :
    (c.setDev d).started = c.started := rfl
@[simp] theorem CoreState.setDev_dev (c : CoreState) (d : Device) :
    (c.setDev d).dev = d := rfl

/-! ### `CoreState.settleIdle` -/

@[simp] theorem CoreState.settleIdle_mem (c : CoreState) :
    c.settleIdle.mem = c.mem := rfl
@[simp] theorem CoreState.settleIdle_mlen (c : CoreState) :
    c.settleIdle.mlen = c.mlen := rfl
@[simp] theorem CoreState.settleIdle_pc (c : CoreState) :
    c.settleIdle.pc = c.pc := rfl
@[simp] theorem CoreState.settleIdle_rb (c : CoreState) :
    c.settleIdle.rb = c.rb := rfl
@[simp] theorem CoreState.settleIdle_halted (c : CoreState) :
    c.settleIdle.halted = c.halted := rfl
@[simp] theorem CoreState.settleIdle_fcause (c : CoreState) :
    c.settleIdle.fcause = c.fcause := rfl
@[simp] theorem CoreState.settleIdle_finfo (c : CoreState) :
    c.settleIdle.finfo = c.finfo := rfl
@[simp] theorem CoreState.settleIdle_released (c : CoreState) :
    c.settleIdle.released = c.released := rfl
@[simp] theorem CoreState.settleIdle_started (c : CoreState) :
    c.settleIdle.started = c.started := rfl
@[simp] theorem CoreState.settleIdle_dev (c : CoreState) :
    c.settleIdle.dev = c.dev.settle := rfl

/-! ### `CoreState.fetched` -/

@[simp] theorem CoreState.fetched_mem (c : CoreState) :
    c.fetched.mem = c.mem := rfl
@[simp] theorem CoreState.fetched_mlen (c : CoreState) :
    c.fetched.mlen = max c.mlen (c.pc + 1) := rfl
@[simp] theorem CoreState.fetched_pc (c : CoreState) :
    c.fetched.pc = c.pc := rfl
@[simp] theorem CoreState.fetched_rb (c : CoreState) :
    c.fetched.rb = c.rb := rfl
@[simp] theorem CoreState.fetched_halted (c : CoreState) :
    c.fetched.halted = c.halted := rfl
@[simp] theorem CoreState.fetched_fcause (c : CoreState) :
    c.fetched.fcause = c.fcause := rfl
@[simp] theorem CoreState.fetched_finfo (c : CoreState) :
    c.fetched.finfo = c.finfo := rfl
@[simp] theorem CoreState.fetched_released (c : CoreState) :
    c.fetched.released = c.released := rfl
@[simp] theorem CoreState.fetched_started (c : CoreState) :
    c.fetched.started = c.started := rfl
@[simp] theorem CoreState.fetched_dev (c : CoreState) :
    c.fetched.dev = c.dev := rfl

/-! ### `State.setCore` -/

@[simp] theorem State.setCore_params (s : State) (c : CoreState) :
    (s.setCore c).params = s.params := rfl
@[simp] theorem State.setCore_before (s : State) (c : CoreState) :
    (s.setCore c).before = s.before := rfl
@[simp] theorem State.setCore_core (s : State) (c : CoreState) :
    (s.setCore c).core = c := rfl
@[simp] theorem State.setCore_after (s : State) (c : CoreState) :
    (s.setCore c).after = s.after := rfl
@[simp] theorem State.setCore_chans (s : State) (c : CoreState) :
    (s.setCore c).chans = s.chans := rfl
@[simp] theorem State.setCore_conns (s : State) (c : CoreState) :
    (s.setCore c).conns = s.conns := rfl
@[simp] theorem State.setCore_orch (s : State) (c : CoreState) :
    (s.setCore c).orch = s.orch := rfl
@[simp] theorem State.setCore_received (s : State) (c : CoreState) :
    (s.setCore c).received = s.received := rfl
@[simp] theorem State.setCore_schedule (s : State) (c : CoreState) :
    (s.setCore c).schedule = s.schedule := rfl

/-! ### `State.raise` -/

@[simp] theorem State.raise_params (s : State) (e : Raise) :
    (s.raise e).params = s.params := rfl
@[simp] theorem State.raise_before (s : State) (e : Raise) :
    (s.raise e).before = s.before := rfl
@[simp] theorem State.raise_core (s : State) (e : Raise) :
    (s.raise e).core = s.core.raise e := rfl
@[simp] theorem State.raise_after (s : State) (e : Raise) :
    (s.raise e).after = s.after := rfl
@[simp] theorem State.raise_chans (s : State) (e : Raise) :
    (s.raise e).chans = s.chans := rfl
@[simp] theorem State.raise_conns (s : State) (e : Raise) :
    (s.raise e).conns = s.conns := rfl
@[simp] theorem State.raise_orch (s : State) (e : Raise) :
    (s.raise e).orch = s.orch := rfl
@[simp] theorem State.raise_received (s : State) (e : Raise) :
    (s.raise e).received = s.received := rfl
@[simp] theorem State.raise_schedule (s : State) (e : Raise) :
    (s.raise e).schedule = s.schedule := rfl

/-! ### `State.setDev` -/

@[simp] theorem State.setDev_params (s : State) (d : Device) :
    (s.setDev d).params = s.params := rfl
@[simp] theorem State.setDev_before (s : State) (d : Device) :
    (s.setDev d).before = s.before := rfl
@[simp] theorem State.setDev_core (s : State) (d : Device) :
    (s.setDev d).core = s.core.setDev d := rfl
@[simp] theorem State.setDev_after (s : State) (d : Device) :
    (s.setDev d).after = s.after := rfl
@[simp] theorem State.setDev_chans (s : State) (d : Device) :
    (s.setDev d).chans = s.chans := rfl
@[simp] theorem State.setDev_conns (s : State) (d : Device) :
    (s.setDev d).conns = s.conns := rfl
@[simp] theorem State.setDev_orch (s : State) (d : Device) :
    (s.setDev d).orch = s.orch := rfl
@[simp] theorem State.setDev_received (s : State) (d : Device) :
    (s.setDev d).received = s.received := rfl
@[simp] theorem State.setDev_schedule (s : State) (d : Device) :
    (s.setDev d).schedule = s.schedule := rfl

/-! ### `State.setChan` -/

@[simp] theorem State.setChan_params (s : State) (i : Nat) (ch : Channel) :
    (s.setChan i ch).params = s.params := rfl
@[simp] theorem State.setChan_before (s : State) (i : Nat) (ch : Channel) :
    (s.setChan i ch).before = s.before := rfl
@[simp] theorem State.setChan_core (s : State) (i : Nat) (ch : Channel) :
    (s.setChan i ch).core = s.core := rfl
@[simp] theorem State.setChan_after (s : State) (i : Nat) (ch : Channel) :
    (s.setChan i ch).after = s.after := rfl
@[simp] theorem State.setChan_chans (s : State) (i : Nat) (ch : Channel) :
    (s.setChan i ch).chans = s.chans.set i ch := rfl
@[simp] theorem State.setChan_conns (s : State) (i : Nat) (ch : Channel) :
    (s.setChan i ch).conns = s.conns := rfl
@[simp] theorem State.setChan_orch (s : State) (i : Nat) (ch : Channel) :
    (s.setChan i ch).orch = s.orch := rfl
@[simp] theorem State.setChan_received (s : State) (i : Nat) (ch : Channel) :
    (s.setChan i ch).received = s.received := rfl
@[simp] theorem State.setChan_schedule (s : State) (i : Nat) (ch : Channel) :
    (s.setChan i ch).schedule = s.schedule := rfl

/-! ### `State.modChan` -/

@[simp] theorem State.modChan_params (s : State) (i : Nat) (f : Channel → Channel) :
    (s.modChan i f).params = s.params := rfl
@[simp] theorem State.modChan_before (s : State) (i : Nat) (f : Channel → Channel) :
    (s.modChan i f).before = s.before := rfl
@[simp] theorem State.modChan_core (s : State) (i : Nat) (f : Channel → Channel) :
    (s.modChan i f).core = s.core := rfl
@[simp] theorem State.modChan_after (s : State) (i : Nat) (f : Channel → Channel) :
    (s.modChan i f).after = s.after := rfl
@[simp] theorem State.modChan_chans (s : State) (i : Nat) (f : Channel → Channel) :
    (s.modChan i f).chans = s.chans.set i (f (s.chan i)) := rfl
@[simp] theorem State.modChan_conns (s : State) (i : Nat) (f : Channel → Channel) :
    (s.modChan i f).conns = s.conns := rfl
@[simp] theorem State.modChan_orch (s : State) (i : Nat) (f : Channel → Channel) :
    (s.modChan i f).orch = s.orch := rfl
@[simp] theorem State.modChan_received (s : State) (i : Nat) (f : Channel → Channel) :
    (s.modChan i f).received = s.received := rfl
@[simp] theorem State.modChan_schedule (s : State) (i : Nat) (f : Channel → Channel) :
    (s.modChan i f).schedule = s.schedule := rfl

/-! ### `State.setConn` -/

@[simp] theorem State.setConn_params (s : State) (j : Nat) (c : Connector) :
    (s.setConn j c).params = s.params := rfl
@[simp] theorem State.setConn_before (s : State) (j : Nat) (c : Connector) :
    (s.setConn j c).before = s.before := rfl
@[simp] theorem State.setConn_core (s : State) (j : Nat) (c : Connector) :
    (s.setConn j c).core = s.core := rfl
@[simp] theorem State.setConn_after (s : State) (j : Nat) (c : Connector) :
    (s.setConn j c).after = s.after := rfl
@[simp] theorem State.setConn_chans (s : State) (j : Nat) (c : Connector) :
    (s.setConn j c).chans = s.chans := rfl
@[simp] theorem State.setConn_conns (s : State) (j : Nat) (c : Connector) :
    (s.setConn j c).conns = s.conns.set j c := rfl
@[simp] theorem State.setConn_orch (s : State) (j : Nat) (c : Connector) :
    (s.setConn j c).orch = s.orch := rfl
@[simp] theorem State.setConn_received (s : State) (j : Nat) (c : Connector) :
    (s.setConn j c).received = s.received := rfl
@[simp] theorem State.setConn_schedule (s : State) (j : Nat) (c : Connector) :
    (s.setConn j c).schedule = s.schedule := rfl

/-! ### `State.setOrch` -/

@[simp] theorem State.setOrch_params (s : State) (o : Orchestrator) :
    (s.setOrch o).params = s.params := rfl
@[simp] theorem State.setOrch_before (s : State) (o : Orchestrator) :
    (s.setOrch o).before = s.before := rfl
@[simp] theorem State.setOrch_core (s : State) (o : Orchestrator) :
    (s.setOrch o).core = s.core := rfl
@[simp] theorem State.setOrch_after (s : State) (o : Orchestrator) :
    (s.setOrch o).after = s.after := rfl
@[simp] theorem State.setOrch_chans (s : State) (o : Orchestrator) :
    (s.setOrch o).chans = s.chans := rfl
@[simp] theorem State.setOrch_conns (s : State) (o : Orchestrator) :
    (s.setOrch o).conns = s.conns := rfl
@[simp] theorem State.setOrch_orch (s : State) (o : Orchestrator) :
    (s.setOrch o).orch = some o := rfl
@[simp] theorem State.setOrch_received (s : State) (o : Orchestrator) :
    (s.setOrch o).received = s.received := rfl
@[simp] theorem State.setOrch_schedule (s : State) (o : Orchestrator) :
    (s.setOrch o).schedule = s.schedule := rfl

/-! ### `State.addChan` -/

@[simp] theorem State.addChan_params (s : State) (ch : Channel) :
    (s.addChan ch).params = s.params := rfl
@[simp] theorem State.addChan_before (s : State) (ch : Channel) :
    (s.addChan ch).before = s.before := rfl
@[simp] theorem State.addChan_core (s : State) (ch : Channel) :
    (s.addChan ch).core = s.core := rfl
@[simp] theorem State.addChan_after (s : State) (ch : Channel) :
    (s.addChan ch).after = s.after := rfl
@[simp] theorem State.addChan_chans (s : State) (ch : Channel) :
    (s.addChan ch).chans = s.chans ++ [ch] := rfl
@[simp] theorem State.addChan_conns (s : State) (ch : Channel) :
    (s.addChan ch).conns = s.conns := rfl
@[simp] theorem State.addChan_orch (s : State) (ch : Channel) :
    (s.addChan ch).orch = s.orch := rfl
@[simp] theorem State.addChan_received (s : State) (ch : Channel) :
    (s.addChan ch).received = s.received := rfl
@[simp] theorem State.addChan_schedule (s : State) (ch : Channel) :
    (s.addChan ch).schedule = s.schedule := rfl

/-! ### `State.addInstance` -/

@[simp] theorem State.addInstance_params (s : State) (c : CoreState) :
    (s.addInstance c).params = s.params := rfl
@[simp] theorem State.addInstance_before (s : State) (c : CoreState) :
    (s.addInstance c).before = s.before := rfl
@[simp] theorem State.addInstance_core (s : State) (c : CoreState) :
    (s.addInstance c).core = s.core := rfl
@[simp] theorem State.addInstance_after (s : State) (c : CoreState) :
    (s.addInstance c).after = s.after ++ [c] := rfl
@[simp] theorem State.addInstance_chans (s : State) (c : CoreState) :
    (s.addInstance c).chans = s.chans := rfl
@[simp] theorem State.addInstance_conns (s : State) (c : CoreState) :
    (s.addInstance c).conns = s.conns := rfl
@[simp] theorem State.addInstance_orch (s : State) (c : CoreState) :
    (s.addInstance c).orch = s.orch := rfl
@[simp] theorem State.addInstance_received (s : State) (c : CoreState) :
    (s.addInstance c).received = s.received := rfl
@[simp] theorem State.addInstance_schedule (s : State) (c : CoreState) :
    (s.addInstance c).schedule = s.schedule := rfl

end Sys2Proof.Machine
end

