-- ==== Sys2Proof/Laws/Memory.lean ====
section
/-!
SUPPORT. The laws of memory: a read after a write, and the canonical form, which every operation keeps and
in which equal memories are equal lists.
-/
namespace Sys2Proof.Machine

@[simp] theorem Memory.read_nil (a : Nat) : Memory.read [] a = 0#64 := rfl

theorem Memory.read_cons (k : Nat) (v : Word) (m : Memory) (a : Nat) :
    Memory.read ((k, v) :: m) a = if a = k then v else m.read a := rfl

/-! ### The canonical form as a proposition -/

/-- Every address listed in `m` is above `k`. -/
def Memory.above (k : Nat) (m : Memory) : Prop := ∀ x ∈ m, k < x.1

theorem Memory.wf_cons (k : Nat) (v : Word) (m : Memory) :
    Memory.wf ((k, v) :: m) = true ↔ v ≠ 0#64 ∧ m.above k ∧ m.wf = true := by
  induction m generalizing k v with
  | nil => simp [Memory.wf, Memory.above]
  | cons x m ih =>
    obtain ⟨k', v'⟩ := x
    simp only [Memory.wf, Bool.and_eq_true, decide_eq_true_eq] at *
    constructor
    · rintro ⟨⟨hv, hk⟩, h⟩
      refine ⟨hv, ?_, h⟩
      have h' : Memory.wf ((k', v') :: m) = true := by simpa [Memory.wf, and_assoc] using h
      have ha := ((ih k' v').mp (by simpa [Memory.wf, and_assoc] using h)).2.1
      intro y hy
      rcases List.mem_cons.mp hy with rfl | hy
      · exact hk
      · exact lt_trans hk (ha y hy)
    · rintro ⟨hv, ha, h⟩
      exact ⟨⟨hv, ha _ (List.mem_cons_self ..)⟩, h⟩

/-- An address at or below a bound that every listed address exceeds reads 0. -/
theorem Memory.read_of_above {k : Nat} {m : Memory} (h : m.above k) {a : Nat} (ha : a ≤ k) :
    m.read a = 0#64 := by
  induction m with
  | nil => rfl
  | cons x m ih =>
    obtain ⟨k', v'⟩ := x
    have hk : k < k' := h _ (List.mem_cons_self ..)
    rw [Memory.read_cons, if_neg (by omega)]
    exact ih fun y hy => h y (List.mem_cons_of_mem _ hy)

/-! ### Read after write -/

/-- The four ways a write meets the head of a canonical list. -/
theorem Memory.write_cons (k : Nat) (w : Word) (m : Memory) (a : Nat) (v : Word) :
    Memory.write ((k, w) :: m) a v =
      if a < k then (if v = 0#64 then (k, w) :: m else (a, v) :: (k, w) :: m)
      else if a = k then (if v = 0#64 then m else (a, v) :: m)
      else (k, w) :: m.write a v := rfl

theorem Memory.read_write (m : Memory) (hm : m.wf = true) (a : Nat) (v : Word) (b : Nat) :
    (m.write a v).read b = if b = a then v else m.read b := by
  induction m with
  | nil => by_cases hv : v = 0#64 <;> simp [Memory.write, hv, Memory.read_cons]
  | cons x m ih =>
    obtain ⟨k, w⟩ := x
    obtain ⟨-, ha, hm⟩ := (Memory.wf_cons k w m).mp hm
    have ih := ih hm
    have hgone : ∀ {n}, n ≤ k → Memory.read m n = 0#64 := fun h => Memory.read_of_above ha h
    rw [Memory.write_cons]
    rcases lt_trichotomy a k with h | h | h
    · rw [if_pos h]
      by_cases hv : v = 0#64
      · rw [if_pos hv]
        by_cases hb : b = a
        · subst hb; simp [Memory.read_cons, hgone h.le, hv, h.ne]
        · simp [hb]
      · rw [if_neg hv, Memory.read_cons]
    · subst h
      rw [if_neg (lt_irrefl _), if_pos rfl]
      by_cases hv : v = 0#64
      · rw [if_pos hv]
        by_cases hb : b = a
        · subst hb; simp [hgone le_rfl, hv]
        · simp [Memory.read_cons, hb]
      · rw [if_neg hv, Memory.read_cons, Memory.read_cons]
        by_cases hb : b = a <;> simp [hb]
    · rw [if_neg (by omega), if_neg (by omega), Memory.read_cons, Memory.read_cons, ih]
      by_cases hb : b = k
      · subst hb; simp [show b ≠ a by omega]
      · simp [hb]

/-- A write leaves every other address alone, whatever the form of the memory. -/
theorem Memory.read_write_ne (m : Memory) {a b : Nat} (v : Word) (h : b ≠ a) :
    (m.write a v).read b = m.read b := by
  induction m with
  | nil => by_cases hv : v = 0#64 <;> simp [Memory.write, hv, Memory.read_cons, h]
  | cons x m ih =>
    obtain ⟨k, w⟩ := x
    rw [Memory.write_cons]
    split_ifs with h1 h2 h3 h4
    · rfl
    · rw [Memory.read_cons, if_neg h]
    · rw [Memory.read_cons, if_neg (h3 ▸ h)]
    · rw [Memory.read_cons, Memory.read_cons, if_neg h, if_neg (h3 ▸ h)]
    · rw [Memory.read_cons, Memory.read_cons, ih]

/-! ### Every operation keeps the canonical form -/

theorem Memory.above_write {k a : Nat} {v : Word} {m : Memory} (h : m.above k) (ha : k < a) :
    (m.write a v).above k := by
  induction m with
  | nil =>
    by_cases hv : v = 0#64
    · simp [Memory.write, hv, Memory.above]
    · simpa [Memory.write, hv, Memory.above] using ha
  | cons x m ih =>
    obtain ⟨k', w⟩ := x
    have h' : k < k' := h _ (List.mem_cons_self ..)
    have hm : Memory.above k m := fun y hy => h y (List.mem_cons_of_mem _ hy)
    have ih := ih hm
    simp only [Memory.write]
    intro y hy
    split_ifs at hy with h1 h2 h3 h4
    · exact h y hy
    · rcases List.mem_cons.mp hy with rfl | hy
      · exact ha
      · exact h y hy
    · exact hm y hy
    · rcases List.mem_cons.mp hy with rfl | hy
      · exact ha
      · exact hm y hy
    · rcases List.mem_cons.mp hy with rfl | hy
      · exact h'
      · exact ih y hy

theorem Memory.wf_write (m : Memory) (a : Nat) (v : Word) (hm : m.wf = true) :
    (m.write a v).wf = true := by
  induction m with
  | nil => by_cases hv : v = 0#64 <;> simp [Memory.write, hv, Memory.wf]
  | cons x m ih =>
    obtain ⟨k, w⟩ := x
    obtain ⟨hw, hk, hm'⟩ := (Memory.wf_cons k w m).mp hm
    simp only [Memory.write]
    split_ifs with h1 h2 h3 h4
    · exact hm
    · refine (Memory.wf_cons _ _ _).mpr ⟨h2, ?_, hm⟩
      intro y hy
      rcases List.mem_cons.mp hy with rfl | hy
      · exact h1
      · exact lt_trans h1 (hk y hy)
    · exact hm'
    · subst h3
      exact (Memory.wf_cons _ _ _).mpr ⟨h4, hk, hm'⟩
    · exact (Memory.wf_cons _ _ _).mpr ⟨hw, Memory.above_write hk (by omega), ih hm'⟩

theorem Memory.wf_writeWords (m : Memory) (a : Nat) (ws : List Word) (hm : m.wf = true) :
    (m.writeWords a ws).wf = true := by
  induction ws generalizing m a with
  | nil => exact hm
  | cons w ws ih => exact ih _ _ (Memory.wf_write m a w hm)

theorem Memory.above_ofWords (a : Nat) (ws : List Word) : ∀ x ∈ Memory.ofWords a ws, a ≤ x.1 := by
  induction ws generalizing a with
  | nil => simp [Memory.ofWords]
  | cons w ws ih =>
    intro x hx
    have hrest : x ∈ Memory.ofWords (a + 1) ws → a ≤ x.1 := fun h => by
      have := ih (a + 1) x h
      omega
    by_cases hw : w = 0#64
    · exact hrest (by simpa [Memory.ofWords, hw] using hx)
    · rcases List.mem_cons.mp (by simpa [Memory.ofWords, hw] using hx : x ∈ (a, w) :: _) with rfl | h
      · exact le_rfl
      · exact hrest h

theorem Memory.wf_ofWords (a : Nat) (ws : List Word) : (Memory.ofWords a ws).wf = true := by
  induction ws generalizing a with
  | nil => rfl
  | cons w ws ih =>
    by_cases hw : w = 0#64
    · simpa [Memory.ofWords, hw] using ih (a + 1)
    · simp only [Memory.ofWords, if_neg hw]
      refine (Memory.wf_cons _ _ _).mpr ⟨hw, fun x hx => ?_, ih (a + 1)⟩
      have := Memory.above_ofWords (a + 1) ws x hx
      omega

/-- The memory of a program reads the program's words, and 0 everywhere else (R34). -/
theorem Memory.read_ofWords (a : Nat) (ws : List Word) (b : Nat) :
    (Memory.ofWords a ws).read b = if a ≤ b then ws.getD (b - a) 0#64 else 0#64 := by
  induction ws generalizing a with
  | nil => simp [Memory.ofWords]
  | cons w ws ih =>
    have ih := ih (a + 1)
    by_cases hw : w = 0#64
    · simp only [Memory.ofWords, if_pos hw, ih]
      rcases lt_trichotomy b a with h | h | h
      · simp [show ¬ a + 1 ≤ b by omega, show ¬ a ≤ b by omega]
      · subst h; simp [hw]
      · obtain ⟨d, rfl⟩ : ∃ d, b = a + 1 + d := ⟨b - (a + 1), by omega⟩
        simp [show a + 1 + d - a = d + 1 by omega, show a ≤ a + 1 + d by omega]
    · simp only [Memory.ofWords, if_neg hw, Memory.read_cons, ih]
      rcases lt_trichotomy b a with h | h | h
      · simp [show b ≠ a by omega, show ¬ a + 1 ≤ b by omega, show ¬ a ≤ b by omega]
      · subst h; simp
      · obtain ⟨d, rfl⟩ : ∃ d, b = a + 1 + d := ⟨b - (a + 1), by omega⟩
        simp [show a + 1 + d - a = d + 1 by omega, show a ≤ a + 1 + d by omega,
          show a + 1 + d ≠ a by omega]

/-- Reset's memory is canonical. -/
theorem reset_memory_wf : State.reset.core.mem.wf = true := rfl

/-! ### Writes to an instance's memory -/

theorem CoreState.memWrite_wf (c : CoreState) (a : Nat) (v : Word) (h : c.mem.wf = true) :
    (c.memWrite a v).mem.wf = true := Memory.wf_write _ _ _ h

end Sys2Proof.Machine
end

