-- ==== Sys2Proof/Laws/Operands.lean ====
section
/-!
SUPPORT. What each operand operation does, said once: it either raises the fault read off the instance, or
answers what the instance holds and leaves only a longer store.
-/
namespace Sys2Proof.Machine

/-! ### `Except` -/

@[simp] theorem except_ok_bind {ε α β : Type} (a : α) (f : α → Except ε β) :
    (Except.ok a >>= f) = f a := rfl

@[simp] theorem except_error_bind {ε α β : Type} (e : ε) (f : α → Except ε β) :
    ((Except.error e : Except ε α) >>= f) = .error e := rfl

@[simp] theorem except_pure {ε α : Type} (a : α) : (pure a : Except ε α) = .ok a := rfl

/-! ### Reads leave everything but the length -/

@[simp] theorem CoreState.reading_mem (c : CoreState) (l : List Nat) : (c.reading l).mem = c.mem := rfl
@[simp] theorem CoreState.reading_pc (c : CoreState) (l : List Nat) : (c.reading l).pc = c.pc := rfl
@[simp] theorem CoreState.reading_rb (c : CoreState) (l : List Nat) : (c.reading l).rb = c.rb := rfl
@[simp] theorem CoreState.reading_halted (c : CoreState) (l : List Nat) :
    (c.reading l).halted = c.halted := rfl
@[simp] theorem CoreState.reading_fcause (c : CoreState) (l : List Nat) :
    (c.reading l).fcause = c.fcause := rfl
@[simp] theorem CoreState.reading_finfo (c : CoreState) (l : List Nat) :
    (c.reading l).finfo = c.finfo := rfl
@[simp] theorem CoreState.reading_released (c : CoreState) (l : List Nat) :
    (c.reading l).released = c.released := rfl
@[simp] theorem CoreState.reading_started (c : CoreState) (l : List Nat) :
    (c.reading l).started = c.started := rfl
@[simp] theorem CoreState.reading_dev (c : CoreState) (l : List Nat) : (c.reading l).dev = c.dev := rfl
@[simp] theorem CoreState.reading_mlen (c : CoreState) (l : List Nat) :
    (c.reading l).mlen = c.lengthAfter l := rfl
@[simp] theorem CoreState.reading_nil (c : CoreState) : c.reading [] = c := rfl
@[simp] theorem CoreState.reading_paramWord (c : CoreState) (l : List Nat) (i : Fin 4) :
    (c.reading l).paramWord i = c.paramWord i := rfl
@[simp] theorem CoreState.reading_paramAddr (c : CoreState) (l : List Nat) (i : Fin 4) (m : Mode) :
    (c.reading l).paramAddr i m = c.paramAddr i m := rfl
@[simp] theorem CoreState.reading_operand (c : CoreState) (l : List Nat) (i : Fin 4) (m : Mode) :
    (c.reading l).operand i m = c.operand i m := by cases m <;> rfl
@[simp] theorem CoreState.reading_destAddr (c : CoreState) (l : List Nat) (i : Fin 4) (m : Mode) :
    (c.reading l).destAddr i m = c.destAddr i m := rfl
@[simp] theorem CoreState.reading_valueReads (c : CoreState) (l : List Nat) (i : Fin 4) (m : Mode) :
    (c.reading l).valueReads i m = c.valueReads i m := by cases m <;> rfl
@[simp] theorem CoreState.reading_valueFault (p : Params) (c : CoreState) (l : List Nat) (i : Fin 4)
    (m : Mode) : (c.reading l).valueFault p i m = c.valueFault p i m := by cases m <;> rfl
@[simp] theorem CoreState.reading_destFault (p : Params) (c : CoreState) (l : List Nat) (i : Fin 4)
    (m : Mode) : (c.reading l).destFault p i m = c.destFault p i m := by cases m <;> rfl

theorem CoreState.reading_reading (c : CoreState) (l k : List Nat) :
    (c.reading l).reading k = c.reading (l ++ k) := by
  simp [CoreState.reading, CoreState.lengthAfter, List.foldl_append]

theorem CoreState.grow_eq_reading (c : CoreState) (a : Nat) : c.grow a = c.reading [a] := by
  simp only [CoreState.grow, CoreState.reading, CoreState.lengthAfter, List.foldl_cons, List.foldl_nil]
  congr 1
  split_ifs <;> omega

theorem CoreState.fetched_eq (c : CoreState) : c.fetched = c.reading [c.pc] := c.grow_eq_reading c.pc

theorem CoreState.lengthAfter_ge (c : CoreState) (l : List Nat) : c.mlen ≤ c.lengthAfter l := by
  unfold CoreState.lengthAfter
  generalize c.mlen = n
  induction l generalizing n with
  | nil => exact le_rfl
  | cons a l ih =>
    refine le_trans ?_ (ih _)
    dsimp only
    split_ifs <;> omega

/-- The length after reads below a bound stays within it. -/
theorem CoreState.lengthAfter_le (c : CoreState) (l : List Nat) (b : Nat) (hc : c.mlen ≤ b)
    (hl : ∀ a ∈ l, a < b) : c.lengthAfter l ≤ b := by
  unfold CoreState.lengthAfter
  revert hc
  generalize c.mlen = n
  intro hc
  induction l generalizing n with
  | nil => exact hc
  | cons a l ih =>
    refine ih (fun x hx => hl x (List.mem_cons_of_mem _ hx)) _ ?_
    have := hl a (List.mem_cons_self ..)
    simp only
    split_ifs <;> omega

/-- Every address read lies below the length after the reads (R42). -/
theorem CoreState.lt_lengthAfter (c : CoreState) (l : List Nat) : ∀ a ∈ l, a < c.lengthAfter l := by
  have grows : ∀ (l : List Nat) (n : Nat), n ≤ l.foldl (fun n a => if n ≤ a then a + 1 else n) n := by
    intro l
    induction l with
    | nil => exact fun n => le_rfl
    | cons b l ih =>
      intro n
      refine le_trans ?_ (ih _)
      dsimp only
      split_ifs <;> omega
  unfold CoreState.lengthAfter
  generalize c.mlen = n
  induction l generalizing n with
  | nil => simp
  | cons b l ih =>
    intro a ha
    rcases List.mem_cons.mp ha with rfl | ha
    · refine lt_of_lt_of_le ?_ (grows l _)
      dsimp only
      split_ifs <;> omega
    · exact ih _ a ha

/-! ### The operand operations -/

theorem memRead_eq (p : Params) (i : Fin 4) (a : Nat) (c : CoreState) :
    memRead p i a c =
      if p.memLimit ≤ a then .error ⟨.memoryLimit, i⟩ else .ok (c.mem.read a, c.reading [a]) := by
  rw [memRead, CoreState.grow_eq_reading]

/-- R45, R42: the read at an effective address. -/
theorem addressRead_eq (p : Params) (i : Fin 4) (a : Int) (c : CoreState) :
    (nonNegative i a >>= fun n => memRead p i n c) =
      match addrFault p i a with
      | some e => .error e
      | none => .ok (c.mem.read a.toNat, c.reading [a.toNat]) := by
  rcases lt_or_ge a 0 with h | h
  · simp [nonNegative, addrFault, h]
  · obtain ⟨n, rfl⟩ := Int.eq_ofNat_of_zero_le h
    have h0 : ¬ ((n : Int) < 0) := by omega
    by_cases hn : p.memLimit ≤ n <;> simp [nonNegative, addrFault, memRead_eq, h0, hn]

/-- R45: the check of a destination address. -/
theorem addressCheck_eq (p : Params) (i : Fin 4) (a : Int) :
    (nonNegative i a >>= fun n => belowLimit p i n) =
      match addrFault p i a with
      | some e => .error e
      | none => .ok a.toNat := by
  rcases lt_or_ge a 0 with h | h
  · simp [nonNegative, addrFault, h]
  · obtain ⟨n, rfl⟩ := Int.eq_ofNat_of_zero_le h
    have h0 : ¬ ((n : Int) < 0) := by omega
    by_cases hn : p.memLimit ≤ n <;> simp [nonNegative, addrFault, belowLimit, h0, hn]

/-- R67: `val` raises the fault of the parameter, or answers its operand and grows the store. -/
theorem val_eq (p : Params) (i : Fin 4) (m : Mode) (c : CoreState) :
    val p i m c =
      match c.valueFault p i m with
      | some e => .error e
      | none => .ok (c.operand i m, c.reading (c.valueReads i m)) := by
  by_cases h : p.memLimit ≤ c.pc + i.val
  · simp [val, param, memRead_eq, CoreState.valueFault, h]
  · cases m
    case immediate =>
      simp [val, param, memRead_eq, CoreState.valueFault, CoreState.operand, CoreState.valueReads,
        CoreState.paramWord, h]
    all_goals
      unfold val param
      rw [memRead_eq, if_neg h]
      simp only [except_ok_bind, addressRead_eq, CoreState.valueFault, if_neg h, CoreState.reading_rb,
        CoreState.reading_mem, CoreState.paramAddr, CoreState.paramWord]
      split <;> simp_all [CoreState.operand, CoreState.valueReads, CoreState.paramAddr,
        CoreState.paramWord, CoreState.reading_reading]

/-- R68: `dst` raises the fault of the parameter, or answers its address and grows the store. -/
theorem dst_eq (p : Params) (i : Fin 4) (m : Mode) (c : CoreState) :
    dst p i m c =
      match c.destFault p i m with
      | some e => .error e
      | none => .ok (c.destAddr i m, c.reading [c.pc + i.val]) := by
  have assoc : ∀ (z : Int) (d : CoreState),
      (nonNegative i z >>= fun a => belowLimit p i a >>= fun a => (pure (a, d) : Except Raise _)) =
        ((nonNegative i z >>= fun a => belowLimit p i a) >>= fun a => pure (a, d)) := fun z d => by
    unfold nonNegative; split <;> rfl
  by_cases h : p.memLimit ≤ c.pc + i.val
  · simp [dst, param, memRead_eq, CoreState.destFault, h]
  · cases m
    case immediate => simp [dst, param, memRead_eq, CoreState.destFault, h]
    all_goals
      unfold dst param
      rw [memRead_eq, if_neg h]
      simp only [except_ok_bind, assoc, addressCheck_eq, CoreState.destFault, if_neg h,
        CoreState.reading_rb, CoreState.paramAddr, CoreState.paramWord]
      split <;> simp_all [CoreState.destAddr, CoreState.paramAddr, CoreState.paramWord]

/-- R69 line 6: two values in order, each resolved completely before the next. -/
theorem twoValues_eq (p : Params) (m1 m2 : Mode) (c : CoreState) :
    twoValues p m1 m2 c =
      match firstFault [c.valueFault p 1 m1, c.valueFault p 2 m2] with
      | some e => .error e
      | none => .ok (c.operand 1 m1, c.operand 2 m2, c.reading (c.valueReads 1 m1 ++ c.valueReads 2 m2)) := by
  rw [twoValues, val_eq]
  cases h1 : c.valueFault p 1 m1 with
  | some e => simp [firstFault]
  | none =>
    simp only [except_ok_bind, val_eq, CoreState.reading_valueFault]
    cases h2 : c.valueFault p 2 m2 <;> simp [firstFault, CoreState.reading_reading]

end Sys2Proof.Machine
end

