-- ==== Sys2Proof/Laws/Shapes.lean ====
section
/-!
SUPPORT. What the shared shapes of the instructions do: `alu` (R12), store a result, jump, adjust the base;
each either raises the first fault of R158 or gives the one instance the rules give.
-/
namespace Sys2Proof.Machine

/-! ### Words -/

theorem Word.toInt_bounds (w : Word) : Word.minZ ≤ w.toInt ∧ w.toInt ≤ Word.maxZ := by
  have h1 := BitVec.le_toInt w
  have h2 := BitVec.toInt_lt (x := w)
  simp only [Word.minZ, Word.maxZ]
  norm_num at h1 h2
  omega

theorem Word.toInt_ofZ {z : Int} (h : Word.minZ ≤ z ∧ z ≤ Word.maxZ) : (Word.ofZ z).toInt = z := by
  simp only [Word.minZ, Word.maxZ] at h
  rw [Word.ofZ, BitVec.toInt_ofInt, Int.bmod_def]
  norm_num
  split_ifs <;> omega

theorem wrap64_bounds (z : Int) : Word.minZ ≤ wrap64 z ∧ wrap64 z ≤ Word.maxZ := by
  simp only [Word.minZ, Word.maxZ, wrap64]
  omega

theorem Word.toInt_ofZ_wrap64 (z : Int) : (Word.ofZ (wrap64 z)).toInt = wrap64 z :=
  Word.toInt_ofZ (wrap64_bounds z)

/-- R12: `alu`. -/
theorem alu_eq (p : Params) (z : Int) :
    alu p z =
      match overflowFault p z with
      | some e => .error e
      | none => .ok (aluWord z) := by
  by_cases h : Word.minZ ≤ z ∧ z ≤ Word.maxZ
  · simp [alu, aluWord, fitsWord, overflowFault, h]
  · cases ho : p.ovf <;> simp [alu, aluWord, fitsWord, overflowFault, h, ho]

/-! ### Shapes -/

/-- Format F3: the instance after a stored result. -/
theorem storeResult_eq (p : Params) (f : Word → Word → Except Raise Word) (m1 m2 m3 : Mode)
    (c : CoreState) :
    storeResult p f m1 m2 m3 c =
      match firstFault [c.valueFault p 1 m1, c.valueFault p 2 m2, c.destFault p 3 m3] with
      | some e => .error e
      | none =>
        match f (c.operand 1 m1) (c.operand 2 m2) with
        | .error e => .error e
        | .ok r =>
          .ok (((c.reading (c.valueReads 1 m1 ++ c.valueReads 2 m2 ++ [c.pc + 3])).memWrite
            (c.destAddr 3 m3) r).advance 4) := by
  rw [storeResult, twoValues_eq]
  cases h1 : c.valueFault p 1 m1 with
  | some e => simp [firstFault]
  | none =>
    cases h2 : c.valueFault p 2 m2 with
    | some e => simp [firstFault]
    | none =>
      simp only [firstFault, except_ok_bind, dst_eq, CoreState.reading_destFault]
      cases h3 : c.destFault p 3 m3 with
      | some e => simp [firstFault]
      | none => cases f (c.operand 1 m1) (c.operand 2 m2) <;> simp [firstFault, CoreState.reading_reading]

/-- R90, R91: the instance after a jump. -/
theorem jumpWhen_eq (p : Params) (taken : Word → Bool) (m1 m2 : Mode) (c : CoreState) :
    jumpWhen p taken m1 m2 c =
      match firstFault [c.valueFault p 1 m1, c.valueFault p 2 m2,
          targetFault (taken (c.operand 1 m1)) (c.operand 2 m2)] with
      | some e => .error e
      | none =>
        .ok (if taken (c.operand 1 m1) then
            (c.reading (c.valueReads 1 m1 ++ c.valueReads 2 m2)).jump (c.operand 2 m2).toInt.toNat
          else (c.reading (c.valueReads 1 m1 ++ c.valueReads 2 m2)).advance 3) := by
  rw [jumpWhen, twoValues_eq]
  cases h1 : c.valueFault p 1 m1 with
  | some e => simp [firstFault]
  | none =>
    cases h2 : c.valueFault p 2 m2 with
    | some e => simp [firstFault]
    | none =>
      simp only [firstFault, except_ok_bind]
      by_cases ht : taken (c.operand 1 m1) = true
      · by_cases hn : (c.operand 2 m2).toInt < 0 <;> simp [ht, hn, targetFault, nonNegative, firstFault]
      · simp [ht, targetFault, firstFault]

/-- R100: the instance after an adjustment of the base. -/
theorem adjustBase_eq (p : Params) (m1 : Mode) (c : CoreState) :
    adjustBase p m1 c =
      match firstFault [c.valueFault p 1 m1, overflowFault p (c.rb.toInt + (c.operand 1 m1).toInt)] with
      | some e => .error e
      | none =>
        .ok (((c.reading (c.valueReads 1 m1)).setRb
          (aluWord (c.rb.toInt + (c.operand 1 m1).toInt))).advance 2) := by
  rw [adjustBase, val_eq]
  cases h1 : c.valueFault p 1 m1 with
  | some e => simp [firstFault]
  | none =>
    simp only [firstFault, except_ok_bind, sumOf, alu_eq, CoreState.reading_rb]
    cases h2 : overflowFault p (c.rb.toInt + (c.operand 1 m1).toInt) <;> simp [firstFault]

/-! ### The end of an instruction -/

@[simp] theorem complete_error (s : State) (e : Raise) : complete s (.error e) = .next (s.raise e) := rfl

@[simp] theorem complete_ok (s : State) (c : CoreState) : complete s (.ok c) = .next (s.setCore c) := rfl

/-- Every instruction that uses no port ends in a next state: the fault's, or the instance it leaves. -/
theorem complete_next (s : State) (r : Except Raise CoreState) :
    (∃ e, r = .error e ∧ complete s r = .next (s.raise e)) ∨
      (∃ c, r = .ok c ∧ complete s r = .next (s.setCore c)) := by
  cases r with
  | error e => exact .inl ⟨e, rfl, rfl⟩
  | ok c => exact .inr ⟨c, rfl, rfl⟩

end Sys2Proof.Machine
end

