-- ==== Sys2Proof/Laws/Port.lean ====
section
/-!
SUPPORT. What a read and a write of the shared `idle` cell may give, and what the channel and port operations do to
the state: which channel and which device they write, and that they write nothing else.
-/
namespace Sys2Proof.Machine

/-! ### Channels by number -/

theorem State.chan_setChan (s : State) (i : Nat) (ch : Channel) (n : Nat) :
    (s.setChan i ch).chan n = if n = i ∧ i < s.chans.length then ch else s.chan n := by
  simp only [State.chan, State.setChan, List.getD_eq_getElem?_getD, List.getElem?_set]
  by_cases h : n = i
  · subst h
    by_cases hl : n < s.chans.length
    · simp [hl]
    · simp [hl]
  · simp [h, Ne.symm h]

theorem State.chan_setChan_self (s : State) {i : Nat} (ch : Channel) (h : i < s.chans.length) :
    (s.setChan i ch).chan i = ch := by simp [State.chan_setChan, h]

theorem State.chan_setChan_ne (s : State) {i n : Nat} (ch : Channel) (h : n ≠ i) :
    (s.setChan i ch).chan n = s.chan n := by simp [State.chan_setChan, h]

/-- Putting back the channel that is there changes nothing. -/
theorem State.setChan_chan (s : State) (i : Nat) : s.setChan i (s.chan i) = s := by
  have h : s.chans.set i (s.chan i) = s.chans := by
    apply List.ext_getElem? fun n => ?_
    rw [List.getElem?_set]
    split_ifs with h hl
    · subst h
      simp [State.chan, List.getD_eq_getElem?_getD, hl]
    · subst h
      simp [hl]
    · rfl
  unfold State.setChan
  rw [h]

@[simp] theorem State.setChan_length (s : State) (i : Nat) (ch : Channel) :
    (s.setChan i ch).chans.length = s.chans.length := by simp

@[simp] theorem State.chan_setCore (s : State) (c : CoreState) (n : Nat) :
    (s.setCore c).chan n = s.chan n := rfl

@[simp] theorem State.chan_withSchedule (s : State) (l : List Turn) (n : Nat) :
    State.chan { s with schedule := l } n = s.chan n := rfl

@[simp] theorem State.setCore_setCore (s : State) (c d : CoreState) :
    (s.setCore c).setCore d = s.setCore d := rfl

theorem State.setCore_setChan (s : State) (c : CoreState) (i : Nat) (ch : Channel) :
    (s.setCore c).setChan i ch = (s.setChan i ch).setCore c := rfl

@[simp] theorem State.setCore_core_self (s : State) : s.setCore s.core = s := rfl

theorem State.chan_modChan (s : State) (i : Nat) (f : Channel → Channel) (n : Nat) :
    (s.modChan i f).chan n = if n = i ∧ i < s.chans.length then f (s.chan i) else s.chan n :=
  s.chan_setChan i _ n

theorem State.chan_modChan_ne (s : State) {i n : Nat} (f : Channel → Channel) (h : n ≠ i) :
    (s.modChan i f).chan n = s.chan n := s.chan_setChan_ne _ h

/-- A channel number past the last names the closed channel. -/
theorem State.chan_gone (s : State) {i : Nat} (h : s.chans.length ≤ i) : s.chan i = Channel.gone := by
  simp [State.chan, List.getD_eq_getElem?_getD, h]

/-- R118: after a drop of the consumer handle of channel `i`, for every number, past the last too. -/
theorem State.chan_dropRx (s : State) (i n : Nat) :
    (s.modChan i Channel.dropRx).chan n = if n = i then (s.chan i).dropRx else s.chan n := by
  rw [State.chan_modChan]
  by_cases h : n = i
  · subst h
    by_cases hl : n < s.chans.length
    · simp [hl]
    · simp [hl, s.chan_gone (Nat.not_lt.mp hl), Channel.gone, Channel.dropRx]
  · simp [h]

/-- R118: after a drop of the producer handle of channel `i`, for every number, past the last too. -/
theorem State.chan_dropTx (s : State) (i n : Nat) :
    (s.modChan i Channel.dropTx).chan n = if n = i then (s.chan i).dropTx else s.chan n := by
  rw [State.chan_modChan]
  by_cases h : n = i
  · subst h
    by_cases hl : n < s.chans.length
    · simp [hl]
    · simp [hl, s.chan_gone (Nat.not_lt.mp hl), Channel.gone, Channel.dropTx]
  · simp [h]

/-! ### One operation on one channel -/

theorem Channel.send_alive {ch : Channel} (v : Word) (h : ch.rxAlive = true) :
    ch.send v = (.ok (), { ch with q := ch.q ++ [v] }) := by simp [Channel.send, h]

theorem Channel.send_dropped {ch : Channel} (v : Word) (h : ch.rxAlive = false) :
    ch.send v = (.fail, ch) := by simp [Channel.send, h]

theorem Channel.recv_cons {ch : Channel} {v : Word} {rest : List Word} (h : ch.q = v :: rest) :
    ch.recv = (.ok v, { ch with q := rest }) := by simp [Channel.recv, h]

theorem Channel.recv_closed {ch : Channel} (h : ch.q = []) (ht : ch.txAlive = false) :
    ch.recv = (.fail, ch) := by simp [Channel.recv, h, ht]

theorem Channel.recv_empty {ch : Channel} (h : ch.q = []) (ht : ch.txAlive = true) :
    ch.recv = (.wait, ch) := by simp [Channel.recv, h, ht]

theorem Channel.tryRecv_cons {ch : Channel} {v : Word} {rest : List Word} (h : ch.q = v :: rest) :
    ch.tryRecv = (.value v, { ch with q := rest }) := by simp [Channel.tryRecv, h]

theorem Channel.tryRecv_closed {ch : Channel} (h : ch.q = []) (ht : ch.txAlive = false) :
    ch.tryRecv = (.closed, ch) := by simp [Channel.tryRecv, h, ht]

theorem Channel.tryRecv_empty {ch : Channel} (h : ch.q = []) (ht : ch.txAlive = true) :
    ch.tryRecv = (.empty, ch) := by simp [Channel.tryRecv, h, ht]

/-! ### The same in a state -/

/-- R115: a send either fails and changes nothing, or appends the word. -/
theorem State.send_cases (s : State) (i : Nat) (v : Word) :
    ((s.chan i).rxAlive = false ∧ s.send i v = (.fail, s)) ∨
      ((s.chan i).rxAlive = true ∧
        s.send i v = (.ok (), s.setChan i { s.chan i with q := (s.chan i).q ++ [v] })) := by
  cases h : (s.chan i).rxAlive
  · exact .inl ⟨rfl, by simp [State.send, Channel.send_dropped v h, State.setChan_chan]⟩
  · exact .inr ⟨rfl, by simp [State.send, Channel.send_alive v h]⟩

/-- R116: a receive takes the oldest word, or fails, or waits; only the first changes anything. -/
theorem State.recv_cases (s : State) (i : Nat) :
    (∃ v rest, (s.chan i).q = v :: rest ∧
        s.recv i = (.ok v, s.setChan i { s.chan i with q := rest })) ∨
      ((s.chan i).q = [] ∧ (s.chan i).txAlive = false ∧ s.recv i = (.fail, s)) ∨
      ((s.chan i).q = [] ∧ (s.chan i).txAlive = true ∧ s.recv i = (.wait, s)) := by
  cases hq : (s.chan i).q with
  | cons v rest => exact .inl ⟨v, rest, rfl, by simp [State.recv, Channel.recv_cons hq]⟩
  | nil =>
    cases ht : (s.chan i).txAlive
    · exact .inr (.inl ⟨rfl, rfl, by simp [State.recv, Channel.recv_closed hq ht, State.setChan_chan]⟩)
    · exact .inr (.inr ⟨rfl, rfl, by simp [State.recv, Channel.recv_empty hq ht, State.setChan_chan]⟩)

/-- R117: a try takes the oldest word, or finds the channel closed or empty; only the first changes
anything. -/
theorem State.tryRecv_cases (s : State) (i : Nat) :
    (∃ v rest, (s.chan i).q = v :: rest ∧
        s.tryRecv i = (.value v, s.setChan i { s.chan i with q := rest })) ∨
      ((s.chan i).q = [] ∧ (s.chan i).txAlive = false ∧ s.tryRecv i = (.closed, s)) ∨
      ((s.chan i).q = [] ∧ (s.chan i).txAlive = true ∧ s.tryRecv i = (.empty, s)) := by
  cases hq : (s.chan i).q with
  | cons v rest => exact .inl ⟨v, rest, rfl, by simp [State.tryRecv, Channel.tryRecv_cons hq]⟩
  | nil =>
    cases ht : (s.chan i).txAlive
    · exact .inr (.inl
        ⟨rfl, rfl, by simp [State.tryRecv, Channel.tryRecv_closed hq ht, State.setChan_chan]⟩)
    · exact .inr (.inr
        ⟨rfl, rfl, by simp [State.tryRecv, Channel.tryRecv_empty hq ht, State.setChan_chan]⟩)

/-! ### The shared `idle` cell -/

/-- R54: what the cell holds may be read. -/
@[simp] theorem IdleCell.held_value (c : IdleCell) : c.held c.value = true := by
  cases h : c.value <;> simp [IdleCell.held, h]

/-- R181: a new cell starts with 0 and has held nothing else. -/
@[simp] theorem IdleCell.held_fresh (b : Bool) : IdleCell.fresh.held b = !b := by cases b <;> rfl

@[simp] theorem IdleCell.write_value (c : IdleCell) (v : Bool) : (c.write v).value = v := rfl

/-- A write adds its value to those the cell has held, and takes none away. -/
theorem IdleCell.held_write (c : IdleCell) (v b : Bool) :
    (c.write v).held b = true ↔ b = v ∨ c.held b = true := by
  rcases c with ⟨value, wasIdle⟩
  cases value <;> cases wasIdle <;> cases v <;> cases b <;> decide

/-- R54: a read gives a value the cell has held. -/
@[simp] theorem IdleCell.held_read (c : IdleCell) (seen : Bool) : c.held (c.read seen) = true := by
  unfold IdleCell.read
  split
  · assumption
  · exact c.held_value

/-- R54: a read may give any value the cell has held. -/
theorem IdleCell.read_of_held {c : IdleCell} {b : Bool} (h : c.held b = true) : c.read b = b := if_pos h

/-- The write a device owes takes nothing away from what its cell has held. -/
theorem Device.held_settle (d : Device) {b : Bool} (h : d.idleCell.held b = true) :
    d.settle.idleCell.held b = true := by
  cases d with
  | inert => exact h
  | blocking => exact h
  | latest => exact h
  | nonblocking cin cout first idle owed =>
    cases owed with
    | none => exact h
    | some v => exact (idle.held_write v b).mpr (.inr h)

/-! ### The port -/

/-- A port transaction leaves a state that differs at most in the channel of number `n` and in the device of
the core in focus, whose binding and whose `idle` cell it keeps. -/
structure State.PortStep (s t : State) : Prop where
  outside : s.SameOutsidePort t
  core : t.core = s.core.setDev t.core.dev
  binding : t.core.dev.binding = s.core.dev.binding
  idleCell : t.core.dev.idleCell = s.core.dev.idleCell

theorem State.PortStep.refl (s : State) : s.PortStep s :=
  ⟨⟨rfl, rfl, rfl, rfl, rfl, rfl, rfl⟩, rfl, rfl, rfl⟩

theorem State.PortStep.setChan (s : State) (i : Nat) (ch : Channel) : s.PortStep (s.setChan i ch) :=
  ⟨⟨rfl, rfl, rfl, rfl, rfl, rfl, rfl⟩, rfl, rfl, rfl⟩

theorem State.PortStep.setDev {s t : State} (h : s.PortStep t) {d : Device}
    (hd : d.binding = s.core.dev.binding) (hi : d.idleCell = s.core.dev.idleCell) : s.PortStep (t.setDev d) :=
  ⟨⟨h.outside.params, h.outside.before, h.outside.after, h.outside.conns, h.outside.orch,
      h.outside.received, h.outside.schedule⟩,
    by rw [State.setDev_core, h.core]; rfl, hd, hi⟩

/-- R110: what `IoGet` may change: the device's own state, and its input channel. -/
theorem ioGet_step (s : State) :
    s.PortStep (ioGet s).2 ∧
      ∀ n, (∀ h, s.core.dev.handles = some h → n ≠ h.1) → (ioGet s).2.chan n = s.chan n := by
  unfold ioGet
  split
  case h_1 => exact ⟨.refl s, fun _ _ => rfl⟩
  case h_2 cin cout hd =>
    rcases s.recv_cases cin with ⟨v, rest, -, h⟩ | ⟨-, -, h⟩ | ⟨-, -, h⟩ <;> rw [h]
    · exact ⟨.setChan .., fun n hn => s.chan_setChan_ne _ (hn (cin, cout) (by rw [hd]; rfl))⟩
    · exact ⟨.refl s, fun _ _ => rfl⟩
    · exact ⟨.refl s, fun _ _ => rfl⟩
  case h_3 => exact ⟨.refl s, fun _ _ => rfl⟩
  case h_4 cin cout idle owed hd =>
    unfold firstGet
    rcases s.recv_cases cin with ⟨v, rest, -, h⟩ | ⟨-, -, h⟩ | ⟨-, -, h⟩ <;> rw [h]
    · exact ⟨(State.PortStep.setChan ..).setDev (by rw [hd]; rfl) (by rw [hd]; rfl),
        fun n hn => s.chan_setChan_ne _ (hn (cin, cout) (by rw [hd]; rfl))⟩
    · exact ⟨(State.PortStep.refl s).setDev (by rw [hd]; rfl) (by rw [hd]; rfl), fun _ _ => rfl⟩
    · exact ⟨.refl s, fun _ _ => rfl⟩
  case h_5 cin cout idle owed hd =>
    unfold laterGet
    rcases s.tryRecv_cases cin with ⟨v, rest, -, h⟩ | ⟨-, -, h⟩ | ⟨-, -, h⟩ <;> rw [h]
    · exact ⟨(State.PortStep.setChan ..).setDev (by rw [hd]; rfl) (by rw [hd]; rfl),
        fun n hn => s.chan_setChan_ne _ (hn (cin, cout) (by rw [hd]; rfl))⟩
    · exact ⟨.refl s, fun _ _ => rfl⟩
    · exact ⟨(State.PortStep.refl s).setDev (by rw [hd]; rfl) (by rw [hd]; rfl), fun _ _ => rfl⟩

/-- R111: what `IoPut` may change: the device's own state, and its output channel. -/
theorem ioPut_step (s : State) (v : Word) :
    s.PortStep (ioPut s v).2 ∧
      ∀ n, (∀ h, s.core.dev.handles = some h → n ≠ h.2) → (ioPut s v).2.chan n = s.chan n := by
  unfold ioPut
  split
  case h_1 => exact ⟨.refl s, fun _ _ => rfl⟩
  case h_2 cin cout hd =>
    rcases s.send_cases cout v with ⟨-, h⟩ | ⟨-, h⟩ <;> rw [h]
    · exact ⟨.refl s, fun _ _ => rfl⟩
    · exact ⟨.setChan .., fun n hn => s.chan_setChan_ne _ (hn (cin, cout) (by rw [hd]; rfl))⟩
  case h_3 lv hd => exact ⟨(State.PortStep.refl s).setDev (by rw [hd]; rfl) (by rw [hd]; rfl), fun _ _ => rfl⟩
  case h_4 cin cout first idle owed hd =>
    rcases s.send_cases cout v with ⟨-, h⟩ | ⟨-, h⟩ <;> rw [h]
    · exact ⟨.refl s, fun _ _ => rfl⟩
    · exact ⟨.setChan .., fun n hn => s.chan_setChan_ne _ (hn (cin, cout) (by rw [hd]; rfl))⟩

/-- R112: a `get` that waits changes nothing. -/
theorem ioGet_wait (s : State) (h : (ioGet s).1 = .wait) : (ioGet s).2 = s := by
  unfold ioGet at h ⊢
  split at h
  case h_1 => rfl
  case h_2 cin _ _ => rcases s.recv_cases cin with ⟨v, rest, -, e⟩ | ⟨-, -, e⟩ | ⟨-, -, e⟩ <;> simp_all
  case h_3 => rfl
  case h_4 cin _ _ _ _ =>
    unfold firstGet at *
    rcases s.recv_cases cin with ⟨v, rest, -, e⟩ | ⟨-, -, e⟩ | ⟨-, -, e⟩ <;> simp_all
  case h_5 cin _ _ _ _ =>
    unfold laterGet at *
    rcases s.tryRecv_cases cin with ⟨v, rest, -, e⟩ | ⟨-, -, e⟩ | ⟨-, -, e⟩ <;> simp_all

/-- R112, C11: a `put` never waits. -/
theorem ioPut_never_waits (s : State) (v : Word) : (ioPut s v).1 ≠ .wait := by
  unfold ioPut
  split
  case h_1 => simp
  case h_2 cin cout hd => rcases s.send_cases cout v with ⟨-, h⟩ | ⟨-, h⟩ <;> simp [h]
  case h_3 => simp
  case h_4 cin cout _ _ _ hd => rcases s.send_cases cout v with ⟨-, h⟩ | ⟨-, h⟩ <;> simp [h]

/-- A `get` depends on the instance only through its device. -/
theorem ioGet_setCore (s : State) (c : CoreState) (h : c.dev = s.core.dev) :
    ioGet (s.setCore c) = ((ioGet s).1, (ioGet s).2.setCore (c.setDev (ioGet s).2.core.dev)) := by
  have hc : c = c.setDev s.core.dev := by rw [← h]; rfl
  rw [hc]
  unfold ioGet
  cases hd : s.core.dev with
  | inert => simp only [State.setCore_core, CoreState.setDev_dev, hd]; rfl
  | latest lv => simp only [State.setCore_core, CoreState.setDev_dev, hd]; rfl
  | blocking cin cout =>
    simp only [State.setCore_core, CoreState.setDev_dev, State.recv, State.chan_setCore, State.setChan_core,
      hd]
    rfl
  | nonblocking cin cout first idle owed =>
    cases first
    · simp only [State.setCore_core, CoreState.setDev_dev, firstGet, State.recv, State.chan_setCore]
      cases hr : (s.chan cin).recv with
      | mk r ch => cases r <;> simp [hd] <;> rfl
    · simp only [State.setCore_core, CoreState.setDev_dev, laterGet, State.tryRecv, State.chan_setCore]
      cases hr : (s.chan cin).tryRecv with
      | mk r ch => cases r <;> simp [hd] <;> rfl

/-- A `put` depends on the instance only through its device. -/
theorem ioPut_setCore (s : State) (c : CoreState) (v : Word) (h : c.dev = s.core.dev) :
    ioPut (s.setCore c) v =
      ((ioPut s v).1, (ioPut s v).2.setCore (c.setDev (ioPut s v).2.core.dev)) := by
  have hc : c = c.setDev s.core.dev := by rw [← h]; rfl
  rw [hc]
  unfold ioPut
  cases hd : s.core.dev with
  | inert => simp only [State.setCore_core, CoreState.setDev_dev, hd]; rfl
  | latest lv => simp only [State.setCore_core, CoreState.setDev_dev]; rfl
  | blocking cin cout =>
    simp only [State.setCore_core, CoreState.setDev_dev, State.send, State.chan_setCore, State.setChan_core,
      hd]
    rfl
  | nonblocking cin cout first idle owed =>
    simp only [State.setCore_core, CoreState.setDev_dev, State.send, State.chan_setCore, State.setChan_core,
      hd]
    rfl

end Sys2Proof.Machine
end

