-- ==== Sys2Proof/Laws/System.lean ====
section
/-!
SUPPORT. The machine instances as a list, whatever the focus; and what the turns of the Connectors and of
the orchestrator leave alone.
-/
namespace Sys2Proof.Machine

/-! ### Instances and focus -/

theorem State.core_instance (s : State) : s.instances[s.before.length]? = some s.core := by
  simp [State.instances]

theorem State.focus_index_lt (s : State) : s.before.length < s.instances.length := by
  simp [State.instances]

/-- Replacing the instance in focus replaces one entry of the list. -/
theorem State.instances_setCore (s : State) (c : CoreState) :
    (s.setCore c).instances = s.instances.set s.before.length c := by
  simp [State.instances, State.setCore]

/-- Bringing an instance into focus changes no instance. -/
theorem State.instances_focus (s : State) (k : Nat) : (s.focus k).instances = s.instances := by
  unfold State.focus
  cases h : s.instances[k]? with
  | none => rfl
  | some c =>
    obtain ⟨hk, rfl⟩ := List.getElem?_eq_some_iff.mp h
    show s.instances.take k ++ s.instances[k] :: s.instances.drop (k + 1) = s.instances
    simp

/-- Bringing an instance into focus puts it there, and changes no other field. -/
theorem State.focus_eq {s : State} {k : Nat} {c : CoreState} (h : s.instances[k]? = some c) :
    s.focus k = { s with before := s.instances.take k, core := c, after := s.instances.drop (k + 1) } := by
  rw [State.focus, h]

theorem State.focus_core {s : State} {k : Nat} {c : CoreState} (h : s.instances[k]? = some c) :
    (s.focus k).core = c := by rw [State.focus_eq h]

theorem State.focus_before_length {s : State} {k : Nat} {c : CoreState} (h : s.instances[k]? = some c) :
    (s.focus k).before.length = k := by
  rw [State.focus_eq h]
  obtain ⟨hk, -⟩ := List.getElem?_eq_some_iff.mp h
  simpa using hk.le

/-- The instance in focus is already there. -/
theorem State.focus_self (s : State) : s.focus s.before.length = s := by
  rw [State.focus_eq s.core_instance]
  simp [State.instances]

@[simp] theorem State.focus_params (s : State) (k : Nat) : (s.focus k).params = s.params := by
  unfold State.focus; split <;> rfl
@[simp] theorem State.focus_chans (s : State) (k : Nat) : (s.focus k).chans = s.chans := by
  unfold State.focus; split <;> rfl
@[simp] theorem State.focus_conns (s : State) (k : Nat) : (s.focus k).conns = s.conns := by
  unfold State.focus; split <;> rfl
@[simp] theorem State.focus_orch (s : State) (k : Nat) : (s.focus k).orch = s.orch := by
  unfold State.focus; split <;> rfl
@[simp] theorem State.focus_received (s : State) (k : Nat) : (s.focus k).received = s.received := by
  unfold State.focus; split <;> rfl
@[simp] theorem State.focus_schedule (s : State) (k : Nat) : (s.focus k).schedule = s.schedule := by
  unfold State.focus; split <;> rfl

theorem modify_append_cons {α : Type} (l : List α) (c : α) (r : List α) (k : Nat) (f : α → α) :
    (l ++ c :: r).modify k f =
      if k < l.length then l.modify k f ++ c :: r
      else if k = l.length then l ++ f c :: r
      else l ++ c :: r.modify (k - l.length - 1) f := by
  induction l generalizing k with
  | nil => cases k <;> simp
  | cons a l ih =>
    cases k with
    | zero => simp
    | succ k =>
      simp only [List.cons_append, List.modify_succ_cons, ih, List.length_cons, Nat.add_lt_add_iff_right,
        Nat.add_right_cancel_iff, Nat.reduceSubDiff]
      split_ifs <;> rfl

/-- Changing instance `k` changes one entry of the list. -/
theorem State.instances_modifyInstance (s : State) (k : Nat) (f : CoreState → CoreState) :
    (s.modifyInstance k f).instances = s.instances.modify k f := by
  rw [show s.instances = s.before ++ s.core :: s.after from rfl, modify_append_cons]
  unfold State.modifyInstance
  split_ifs <;> rfl

theorem State.modifyInstance_frame (s : State) (k : Nat) (f : CoreState → CoreState) :
    (s.modifyInstance k f).params = s.params ∧ (s.modifyInstance k f).chans = s.chans ∧
      (s.modifyInstance k f).conns = s.conns ∧ (s.modifyInstance k f).orch = s.orch ∧
      (s.modifyInstance k f).received = s.received ∧ (s.modifyInstance k f).schedule = s.schedule := by
  unfold State.modifyInstance
  split_ifs <;> exact ⟨rfl, rfl, rfl, rfl, rfl, rfl⟩

@[simp] theorem State.modifyInstance_chan (s : State) (k : Nat) (f : CoreState → CoreState) (n : Nat) :
    (s.modifyInstance k f).chan n = s.chan n := by
  unfold State.chan
  rw [(s.modifyInstance_frame k f).2.1]

/-- The cores of the system, by their numbers: all but an untouched reset instance with another beside it. -/
theorem State.mem_systemCores (s : State) (c : CoreState) :
    c ∈ s.systemCores ↔
      ∃ k, s.instances[k]? = some c ∧ ¬ (k = 0 ∧ c = State.reset.core ∧ 1 < s.instances.length) := by
  unfold State.systemCores
  rcases s.instances with _ | ⟨a, _ | ⟨b, l⟩⟩
  · simp
  · simp [List.getElem?_singleton, eq_comm]
  · dsimp only
    split_ifs with h
    · subst h
      rw [List.mem_iff_getElem?]
      constructor
      · rintro ⟨k, hk⟩
        exact ⟨k + 1, by simpa using hk, by simp⟩
      · rintro ⟨_ | k, hk, hn⟩
        · simp_all
        · exact ⟨k, by simpa using hk⟩
    · rw [List.mem_iff_getElem?]
      constructor
      · rintro ⟨k, hk⟩
        refine ⟨k, hk, ?_⟩
        rintro ⟨rfl, rfl, -⟩
        exact h (by simpa using hk)
      · rintro ⟨k, hk, -⟩
        exact ⟨k, hk⟩

/-! ### Turns that leave every instance alone -/

/-- The instances and the parameters are the same in both states. -/
structure State.SameInstances (s t : State) : Prop where
  params : t.params = s.params
  before : t.before = s.before
  core : t.core = s.core
  after : t.after = s.after

theorem State.SameInstances.refl (s : State) : s.SameInstances s := ⟨rfl, rfl, rfl, rfl⟩

theorem State.SameInstances.trans {s t u : State} (h : s.SameInstances t) (k : t.SameInstances u) :
    s.SameInstances u :=
  ⟨k.params.trans h.params, k.before.trans h.before, k.core.trans h.core, k.after.trans h.after⟩

theorem State.SameInstances.instances {s t : State} (h : s.SameInstances t) :
    t.instances = s.instances := by
  unfold State.instances
  rw [h.before, h.core, h.after]

theorem State.SameInstances.modChan (s : State) (i : Nat) (f : Channel → Channel) :
    s.SameInstances (s.modChan i f) := ⟨rfl, rfl, rfl, rfl⟩

theorem State.SameInstances.setConn (s : State) (j : Nat) (c : Connector) :
    s.SameInstances (s.setConn j c) := ⟨rfl, rfl, rfl, rfl⟩

theorem State.SameInstances.setOrch (s : State) (o : Orchestrator) :
    s.SameInstances (s.setOrch o) := ⟨rfl, rfl, rfl, rfl⟩

theorem State.SameInstances.send (s : State) (i : Nat) (v : Word) : s.SameInstances (s.send i v).2 :=
  ⟨rfl, rfl, rfl, rfl⟩

theorem State.SameInstances.recv (s : State) (i : Nat) : s.SameInstances (s.recv i).2 :=
  ⟨rfl, rfl, rfl, rfl⟩

theorem State.SameInstances.tryRecv (s : State) (i : Nat) : s.SameInstances (s.tryRecv i).2 :=
  ⟨rfl, rfl, rfl, rfl⟩

theorem State.SameInstances.dropAllTx (s : State) (l : List Nat) : s.SameInstances (s.dropAllTx l) := by
  induction l generalizing s with
  | nil => exact .refl s
  | cons d l ih => exact (State.SameInstances.modChan s d _).trans (ih _)

/-- R133 to R135: no step of a Connector changes an instance. -/
theorem connectorTurn_instances (s : State) (j : Nat) : s.SameInstances (connectorTurn s j) := by
  unfold connectorTurn
  split
  · rename_i c _
    split
    · exact .refl s
    · split
      · unfold connectorReceive
        rcases s.recv_cases c.up with ⟨v, rest, -, h⟩ | ⟨-, -, h⟩ | ⟨-, -, h⟩ <;> simp only [h]
        · exact ⟨rfl, rfl, rfl, rfl⟩
        · exact ((State.SameInstances.modChan s c.up _).trans (.dropAllTx _ c.down)).trans (.setConn _ j _)
        · exact .refl s
      · unfold connectorSend
        split
        · exact (State.SameInstances.send s _ _).trans (.setConn _ j _)
        · exact .refl s
  · exact .refl s

theorem netSend_instances {s t : State} {o after : Orchestrator} {d : Nat} {v : Word}
    (h : netSend s o d v after = .next t) : s.SameInstances t := by
  unfold netSend at h
  split at h
  · cases h
  · rename_i n _
    rcases s.send_cases n.inCh v with ⟨-, e⟩ | ⟨-, e⟩ <;> rw [e] at h <;> cases h
    exact ⟨rfl, rfl, rfl, rfl⟩

/-- R144 to R146: no action of the orchestrator changes an instance. -/
theorem orchestratorTurn_instances {s t : State} {seen : Bool} (h : orchestratorTurn s seen = .next t) :
    s.SameInstances t := by
  unfold orchestratorTurn at h
  split at h
  · cases h; exact .refl s
  · rename_i o _
    split at h
    · unfold sweepTurn at h
      split at h
      · cases h; exact .setOrch s _
      · rename_i n _
        rcases s.tryRecv_cases n.outCh with ⟨v, rest, -, e⟩ | ⟨-, -, e⟩ | ⟨-, -, e⟩ <;> rw [e] at h
        · dsimp only at h
          split at h <;> cases h
          exact ⟨rfl, rfl, rfl, rfl⟩
        · cases h
        · cases h; exact .setOrch s _
    · exact netSend_instances h
    · exact netSend_instances h
    · cases h
      unfold checkTurn
      split
      · exact .setOrch s _
      · split <;> exact .setOrch s _
    · exact netSend_instances h
    · exact netSend_instances h
    · cases h; exact .setOrch s _
    · cases h; exact .refl s

/-! ### The turn of a core -/

/-- R32, R183: an active core is one that has been run and is Running. -/
theorem CoreState.active_iff (c : CoreState) :
    c.active = true ↔ c.started = true ∧ c.status = .running := by
  simp [CoreState.active]

/-- A core in focus that is not active has no step; an active one makes the write of `idle` it owes, and
fetches. -/
theorem coreTurn_cases (s : State) :
    (s.core.active = false ∧ coreTurn s = .next s) ∨
      (s.core.active = true ∧ coreTurn s = cycle (s.setCore s.core.settleIdle)) := by
  unfold coreTurn
  cases h : s.core.active
  · exact .inl ⟨rfl, rfl⟩
  · exact .inr ⟨rfl, rfl⟩

end Sys2Proof.Machine
end

