-- ==== Sys2Proof/Laws/Execution.lean ====
section
/-!
SUPPORT. What an instruction can do to the state outside its core, and what one step can do to the machine
instances: every claim about all steps is a case analysis over `step_instances`.
-/
namespace Sys2Proof.Machine

/-! ### The shapes that use no port, on a state -/

/-- Format F3 on a state: the first fault, or the result stored. -/
theorem complete_storeResult (s : State) (f : Word → Word → Except Raise Word) (m1 m2 m3 : Mode) :
    complete s (storeResult s.params f m1 m2 m3 s.core.fetched) =
      match firstFault [s.core.valueFault s.params 1 m1, s.core.valueFault s.params 2 m2,
          s.core.destFault s.params 3 m3] with
      | some e => .next (s.raise e)
      | none =>
        match f (s.core.operand 1 m1) (s.core.operand 2 m2) with
        | .error e => .next (s.raise e)
        | .ok r =>
          .next (s.setCore
            { s.core with
              mem := s.core.mem.write (s.core.destAddr 3 m3) r
              mlen := s.core.lengthAfter (instrReads s.core (.add m1 m2 m3) ++ [s.core.destAddr 3 m3])
              pc := s.core.pc + 4 }) := by
  rw [CoreState.fetched_eq, storeResult_eq]
  simp only [CoreState.reading_valueFault, CoreState.reading_destFault, CoreState.reading_operand,
    CoreState.reading_destAddr, CoreState.reading_valueReads, CoreState.reading_reading,
    CoreState.reading_pc]
  cases firstFault [s.core.valueFault s.params 1 m1, s.core.valueFault s.params 2 m2,
      s.core.destFault s.params 3 m3] with
  | some e => rfl
  | none =>
    cases f (s.core.operand 1 m1) (s.core.operand 2 m2) with
    | error e => rfl
    | ok r =>
      simp only [complete_ok, CoreState.memWrite, CoreState.grow_eq_reading, CoreState.reading_reading]
      rfl

/-- R90, R91 on a state: the first fault, or the jump taken or not. -/
theorem complete_jumpWhen (s : State) (taken : Word → Bool) (m1 m2 : Mode) :
    complete s (jumpWhen s.params taken m1 m2 s.core.fetched) =
      match firstFault [s.core.valueFault s.params 1 m1, s.core.valueFault s.params 2 m2,
          targetFault (taken (s.core.operand 1 m1)) (s.core.operand 2 m2)] with
      | some e => .next (s.raise e)
      | none =>
        .next (s.setCore
          { s.core with
            mlen := s.core.lengthAfter (instrReads s.core (.jumpTrue m1 m2))
            pc :=
              if taken (s.core.operand 1 m1) then (s.core.operand 2 m2).toInt.toNat
              else s.core.pc + 3 }) := by
  rw [CoreState.fetched_eq, jumpWhen_eq]
  simp only [CoreState.reading_valueFault, CoreState.reading_operand, CoreState.reading_valueReads,
    CoreState.reading_reading]
  cases firstFault [s.core.valueFault s.params 1 m1, s.core.valueFault s.params 2 m2,
      targetFault (taken (s.core.operand 1 m1)) (s.core.operand 2 m2)] with
  | some e => rfl
  | none =>
    simp only [complete_ok]
    congr 2
    split <;> rfl

/-! ### Outside the core -/

theorem State.SameOutsidePort.setCore {s t : State} (h : s.SameOutsidePort t) (c : CoreState) :
    s.SameOutsidePort (t.setCore c) :=
  ⟨h.params, h.before, h.after, h.conns, h.orch, h.received, h.schedule⟩

theorem State.SameOutsidePort.ofSetCore {s t : State} {c : CoreState}
    (h : (s.setCore c).SameOutsidePort t) : s.SameOutsidePort t :=
  ⟨h.params, h.before, h.after, h.conns, h.orch, h.received, h.schedule⟩

theorem State.SameOutsidePort.refl (s : State) : s.SameOutsidePort s := ⟨rfl, rfl, rfl, rfl, rfl, rfl, rfl⟩

/-- What an instruction leaves alone: everything but its core and the channels. -/
theorem exec_outside {i : Instr} {s t : State} (h : exec i s = .next t) : s.SameOutsidePort t := by
  have plain : ∀ r : Except Raise CoreState, complete s r = .next t → s.SameOutsidePort t := by
    intro r hr
    rcases complete_next s r with ⟨e, -, he⟩ | ⟨c, -, hc⟩
    · rw [he] at hr; cases hr; exact (State.SameOutsidePort.refl s).setCore _
    · rw [hc] at hr; cases hr; exact (State.SameOutsidePort.refl s).setCore _
  cases i with
  | add => exact plain _ h
  | multiply => exact plain _ h
  | jumpTrue => exact plain _ h
  | jumpFalse => exact plain _ h
  | lessThan => exact plain _ h
  | equal => exact plain _ h
  | changeRelative => exact plain _ h
  | halt => exact plain (.ok (s.core.fetched.halt.advance 1)) h
  | input m1 =>
    replace h : execInput m1 s = .next t := h
    unfold execInput at h
    split at h
    · cases h; exact (State.SameOutsidePort.refl s).setCore _
    · rename_i c _
      have hp := (ioGet_step (s.setCore c)).1.outside.ofSetCore
      split at h <;> rename_i heq <;> cases h
      · rw [heq] at hp; exact hp.setCore _
      · rw [heq] at hp; exact hp.setCore _
      · exact .refl s
  | output m1 =>
    replace h : execOutput m1 s = .next t := h
    unfold execOutput at h
    split at h
    · cases h; exact (State.SameOutsidePort.refl s).setCore _
    · rename_i a c _
      have hp := (ioPut_step (s.setCore c) a).1.outside.ofSetCore
      split at h <;> rename_i heq <;> cases h
      · rw [heq] at hp; exact hp.setCore _
      · rw [heq] at hp; exact hp.setCore _
      · exact .refl s

theorem cycle_outside {s t : State} (h : cycle s = .next t) : s.SameOutsidePort t := by
  unfold cycle at h
  split at h
  · cases h; exact (State.SameOutsidePort.refl s).setCore _
  · exact exec_outside h

/-! ### What a step can do to the instances -/

/-- What one step of the machine `s` can do to its instance `k`, from `c` to the second argument. -/
inductive InstanceStep (s : State) (k : Nat) (c : CoreState) : CoreState → Prop where
  /-- nothing -/
  | same : InstanceStep s k c c
  /-- its device makes the write of `idle` it owes -/
  | settle : InstanceStep s k c c.settleIdle
  /-- it releases its handles -/
  | release (h : releaseHandles c ≠ none) : InstanceStep s k c { c with released := true }
  /-- it is run -/
  | start : InstanceStep s k c c.start
  /-- it is active and its turn has come: a cycle, in a state `u` that has it in focus -/
  | run (hr : c.active = true)
      (turn : (s.schedule = [] ∧ k = s.before.length) ∨ ∃ rest, s.schedule = .core k :: rest)
      (u v : State) (hp : u.params = s.params) (hc : u.core = c.settleIdle) (h : cycle u = .next v) :
      InstanceStep s k c v.core

/-- An instance right after the load of a program that fits, run or not. -/
def Loaded (p : Params) (c : CoreState) : Prop :=
  ∃ (program : List Word) (d : Device), program.length ≤ p.memLimit ∧
    (c = CoreState.load program d ∨ c = (CoreState.load program d).start)

theorem Loaded.start {p : Params} {c : CoreState} (h : Loaded p c) : Loaded p c.start := by
  obtain ⟨program, d, hl, rfl | rfl⟩ := h
  · exact ⟨program, d, hl, .inr rfl⟩
  · exact ⟨program, d, hl, .inr rfl⟩

/-- Every instance of the first state is in the second, changed as `InstanceStep` allows; every other
instance of the second is newly loaded. -/
structure InstancesStep (s t : State) : Prop where
  params : t.params = s.params
  each : ∀ (k : Nat) (c : CoreState), s.instances[k]? = some c → ∃ c' : CoreState,
    t.instances[k]? = some c' ∧ InstanceStep s k c c'
  fresh : ∀ (k : Nat) (c' : CoreState), t.instances[k]? = some c' → s.instances[k]? = none →
    Loaded s.params c'

/-- A change of one instance. -/
theorem InstancesStep.ofSet {s t : State} (k : Nat) (c c' : CoreState) (hp : t.params = s.params)
    (hk : s.instances[k]? = some c) (hi : t.instances = s.instances.set k c')
    (h : InstanceStep s k c c') : InstancesStep s t := by
  have hlt := (List.getElem?_eq_some_iff.mp hk).1
  refine ⟨hp, fun n d hd => ?_, fun n d hd hn => ?_⟩
  · rw [hi, List.getElem?_set]
    by_cases hkn : k = n
    · subst hkn
      rw [hk] at hd
      cases hd
      exact ⟨c', by simp [hlt], h⟩
    · exact ⟨d, by simp [hkn, hd], .same⟩
  · rw [hi, List.getElem?_set] at hd
    split_ifs at hd with hkn
    · subst hkn; simp [hk] at hn
    · simp [hn] at hd

theorem InstancesStep.ofSame {s t : State} (hp : t.params = s.params) (hi : t.instances = s.instances) :
    InstancesStep s t :=
  ⟨hp, fun _ c hc => ⟨c, by rw [hi, hc], .same⟩, fun k c' h hn => by rw [hi, hn] at h; cases h⟩

/-- The turn of the core in focus, seen from a state `s` with the same instances in which it is number
`k` and its turn has come. -/
theorem coreTurn_instances {s u t : State} {k : Nat} (hp : u.params = s.params)
    (hi : u.instances = s.instances) (hk : u.before.length = k)
    (turn : (s.schedule = [] ∧ k = s.before.length) ∨ ∃ rest, s.schedule = .core k :: rest)
    (h : coreTurn u = .next t) : InstancesStep s t := by
  rcases coreTurn_cases u with ⟨-, e⟩ | ⟨hr, e⟩
  · rw [e] at h
    cases h
    exact .ofSame hp hi
  · rw [e] at h
    have ho := cycle_outside h
    refine .ofSet k u.core t.core (ho.params.trans hp) ?_ ?_ ?_
    · rw [← hi, ← hk]; exact u.core_instance
    · rw [← hi, ← hk]
      unfold State.instances
      rw [ho.before, ho.after]
      simp
    · exact .run hr turn (u.setCore u.core.settleIdle) t hp rfl h

/-- R180, R183, R186: what the host's turn can do to the instances: it adds loaded ones, and runs some. -/
structure HostInstances (s t : State) : Prop where
  params : t.params = s.params
  each : ∀ (k : Nat) (c : CoreState), s.instances[k]? = some c →
    t.instances[k]? = some c ∨ t.instances[k]? = some c.start
  fresh : ∀ (k : Nat) (c' : CoreState), t.instances[k]? = some c' → s.instances[k]? = none →
    Loaded s.params c'

theorem HostInstances.ofSame {s t : State} (h : s.SameInstances t) : HostInstances s t :=
  ⟨h.params, fun _ _ hk => .inl (by rw [h.instances, hk]), fun k c' hk hn => by
    rw [h.instances, hn] at hk; cases hk⟩

theorem HostInstances.trans {s t u : State} (h : HostInstances s t) (g : HostInstances t u) :
    HostInstances s u := by
  refine ⟨g.params.trans h.params, fun k c hk => ?_, fun k c' hk hn => ?_⟩
  · rcases h.each k c hk with h1 | h1 <;> rcases g.each k _ h1 with h2 | h2 <;> simp [h2]
  · cases ht : t.instances[k]? with
    | none => rw [← h.params]; exact g.fresh k c' hk ht
    | some c =>
      have hc := h.fresh k c ht hn
      rcases g.each k c ht with h2 | h2 <;> rw [hk] at h2 <;> cases h2
      · exact hc
      · exact hc.start

theorem attach_instances (s : State) (kind : DeviceKind) : s.SameInstances (attach s kind).1 := by
  cases kind <;> exact ⟨rfl, rfl, rfl, rfl⟩

/-- A load appends one instance. -/
theorem State.instances_loadInstance (s : State) (program : List Word) (kind : DeviceKind) :
    (s.loadInstance program kind).instances =
      s.instances ++ [CoreState.load program (attach s kind).2] := by
  have ha := attach_instances s kind
  unfold State.loadInstance
  cases e : attach s kind with
  | mk t d =>
    rw [e] at ha
    rw [← ha.instances]
    simp [State.instances, State.addInstance]

theorem loadInstance_instances (s : State) (program : List Word) (kind : DeviceKind)
    (h : program.length ≤ s.params.memLimit) : HostInstances s (s.loadInstance program kind) := by
  refine ⟨(attach_instances s kind).params, fun k c hk => .inl ?_, fun k c' hk hn => ?_⟩
  · rw [s.instances_loadInstance, List.getElem?_append_left (List.getElem?_eq_some_iff.mp hk).1, hk]
  · rw [s.instances_loadInstance, List.getElem?_append_right (List.getElem?_eq_none_iff.mp hn)] at hk
    obtain rfl := List.mem_singleton.mp (List.mem_of_getElem? hk)
    exact ⟨program, _, h, .inl rfl⟩

theorem hostLoad_instances {s t : State} {program : List Word} {kind : DeviceKind}
    (h : hostLoad s program kind = .next t) : HostInstances s t := by
  unfold hostLoad at h
  split_ifs at h with hl
  cases h
  exact loadInstance_instances s program kind hl

theorem moveTx_instances (s : State) (h : Holder) (l : List Nat) : s.SameInstances (moveTx s h l) := by
  induction l generalizing s with
  | nil => exact .refl s
  | cons d l ih => exact (State.SameInstances.modChan s d _).trans (ih _)

/-- R183: what running an instance does. -/
theorem start_instances (s : State) (k : Nat) : HostInstances s (s.modifyInstance k CoreState.start) := by
  have hm := s.instances_modifyInstance k CoreState.start
  refine ⟨(s.modifyInstance_frame k _).1, fun n c hn => ?_, fun n c' hn hs => ?_⟩
  · rw [hm, List.getElem?_modify, hn]
    by_cases h : k = n <;> simp [h]
  · rw [hm, List.getElem?_modify, hs] at hn
    cases hn

theorem enrol_instances (s : State) (i : Nat) (n : NetNode) : HostInstances s (enrol s i n) :=
  (HostInstances.ofSame (((State.SameInstances.modChan s _ _).trans (.modChan _ _ _)).trans
    (.send _ _ _))).trans (start_instances _ _)

theorem enrolAll_instances (s : State) (i : Nat) (l : List NetNode) : HostInstances s (enrolAll s i l) := by
  induction l generalizing s i with
  | nil => exact .ofSame (.refl s)
  | cons n l ih => exact (enrol_instances s i n).trans (ih _ _)

theorem openNetwork_instances (s : State) (nodes : List NetNode) (sentinel : Word) (threshold : Nat)
    (mode : NetMode) : HostInstances s (openNetwork s nodes sentinel threshold mode) :=
  (enrolAll_instances s 0 nodes).trans (.ofSame ⟨rfl, rfl, rfl, rfl⟩)

theorem loadMachines_instances (s : State) (program : List Word) (n : Nat)
    (h : program.length ≤ s.params.memLimit) : HostInstances s (s.loadMachines program n) := by
  induction n generalizing s with
  | zero => exact .ofSame (.refl s)
  | succ n ih =>
    have hl := loadInstance_instances s program .nonblocking h
    exact hl.trans (ih _ (by rw [hl.params]; exact h))

theorem hostTurn_instances {s t : State} {a : HostAction} (h : hostTurn s a = .next t) :
    HostInstances s t := by
  cases a with
  | send ch v =>
    unfold hostTurn at h
    dsimp only at h
    split_ifs at h
    cases h
    exact .ofSame (.send s ch v)
  | recv ch =>
    unfold hostTurn at h
    dsimp only at h
    split_ifs at h
    cases h
    unfold hostRecv
    rcases s.recv_cases ch with ⟨v, rest, -, e⟩ | ⟨-, -, e⟩ | ⟨-, -, e⟩ <;> rw [e]
    · exact .ofSame ⟨rfl, rfl, rfl, rfl⟩
    · exact .ofSame (.refl s)
    · exact .ofSame (.refl s)
  | dropTx ch =>
    unfold hostTurn at h
    dsimp only at h
    split_ifs at h
    cases h
    exact .ofSame (.modChan s ch _)
  | dropRx ch =>
    unfold hostTurn at h
    dsimp only at h
    split_ifs at h
    cases h
    exact .ofSame (.modChan s ch _)
  | newChannel =>
    cases h
    exact .ofSame ⟨rfl, rfl, rfl, rfl⟩
  | load program kind => exact hostLoad_instances h
  | loadText text kind =>
    unfold hostTurn at h
    dsimp only at h
    split at h
    · exact hostLoad_instances h
    · cases h
  | connect up down =>
    replace h : hostConnect s up down = .next t := h
    unfold hostConnect at h
    split_ifs at h
    cases h
    refine .ofSame (State.SameInstances.trans
      ((State.SameInstances.modChan s up _).trans (moveTx_instances _ _ down)) ⟨rfl, rfl, rfl, rfl⟩)
  | run k =>
    replace h : hostRun s k = .next t := h
    unfold hostRun at h
    split_ifs at h
    cases h
    exact start_instances s k
  | bootNetwork program n sentinel threshold mode =>
    replace h : bootNetwork s program n sentinel threshold mode = .next t := h
    unfold bootNetwork at h
    split_ifs at h with _ hl
    cases h
    exact (loadMachines_instances s program n hl).trans (openNetwork_instances _ _ _ _ _)
  | handOver machines sentinel threshold mode =>
    replace h : handOver s machines sentinel threshold mode = .next t := h
    unfold handOver at h
    dsimp only at h
    split_ifs at h
    cases h
    exact openNetwork_instances s _ _ _ _

theorem HostInstances.step {s t : State} (h : HostInstances s t) : InstancesStep s t := by
  refine ⟨h.params, fun k c hk => ?_, h.fresh⟩
  rcases h.each k c hk with e | e
  · exact ⟨c, e, .same⟩
  · exact ⟨c.start, e, .start⟩

/-- Seen from the state with the turn still planned. -/
theorem InstancesStep.ofHost {s u t : State} (hp : u.params = s.params) (hi : u.instances = s.instances)
    (h : HostInstances u t) : InstancesStep s t := by
  refine HostInstances.step ⟨h.params.trans hp, ?_, ?_⟩
  · rw [← hi]; exact h.each
  · rw [← hi, ← hp]; exact h.fresh

theorem modify_eq_set {α : Type} {l : List α} {k : Nat} {a : α} (f : α → α) (h : l[k]? = some a) :
    l.modify k f = l.set k (f a) := by
  apply List.ext_getElem? fun n => ?_
  rw [List.getElem?_modify, List.getElem?_set]
  by_cases hn : k = n
  · subst hn
    obtain ⟨hl, rfl⟩ := List.getElem?_eq_some_iff.mp h
    simp [hl]
  · simp [hn]

/-- A change of instance `k`, if there is one. -/
theorem modifyInstance_step {s u : State} {k : Nat} (f : CoreState → CoreState) (hp : u.params = s.params)
    (hi : u.instances = s.instances)
    (h : ∀ c, s.instances[k]? = some c → InstanceStep s k c (f c)) :
    InstancesStep s (u.modifyInstance k f) := by
  have hf := (u.modifyInstance_frame k f).1.trans hp
  have hm := u.instances_modifyInstance k f
  rw [hi] at hm
  cases hk : s.instances[k]? with
  | none =>
    refine .ofSame hf (hm.trans ?_)
    apply List.ext_getElem? fun n => ?_
    rw [List.getElem?_modify]
    by_cases hn : k = n
    · subst hn; simp [hk]
    · simp [hn]
  | some c => exact .ofSet k c (f c) hf hk (hm.trans (modify_eq_set f hk)) (h c hk)

/-- What a step can do to the machine instances: each one is as it was, or changed as `InstanceStep` says;
any other is newly loaded. -/
theorem step_instances {s t : State} (h : step s = .next t) : InstancesStep s t := by
  unfold step at h
  split at h
  · rename_i hs
    exact coreTurn_instances rfl rfl rfl (.inl ⟨hs, rfl⟩) h
  · rename_i turn rest hs
    cases turn with
    | core k =>
      replace h : instanceTurn { s with schedule := rest } k = .next t := h
      unfold instanceTurn at h
      split_ifs at h with hk
      · have hc : State.instances { s with schedule := rest } = s.instances := rfl
        rw [hc] at hk
        have hg := List.getElem?_eq_getElem hk
        exact coreTurn_instances (u := State.focus { s with schedule := rest } k)
          (State.focus_params _ k)
          ((State.instances_focus { s with schedule := rest } k).trans hc)
          (State.focus_before_length (s := { s with schedule := rest }) hg)
          (.inr ⟨rest, hs⟩) h
      · cases h; exact .ofSame rfl rfl
    | settleIdle k =>
      cases h
      exact modifyInstance_step _ rfl rfl fun c _ => .settle
    | release k =>
      cases h
      unfold releaseTurn
      split
      · rename_i cin cout heq
        refine modifyInstance_step _ rfl rfl fun c hc => .release ?_
        have he : s.instances[k]? = some c := hc
        have hb : (s.instances[k]?).bind releaseHandles = some (cin, cout) := heq
        rw [he, Option.bind_some] at hb
        simp [hb]
      · exact .ofSame rfl rfl
    | faultedDropRx k =>
      cases h
      unfold faultedDropRxTurn
      split <;> exact .ofSame rfl rfl
    | faultedDropTx k =>
      cases h
      unfold faultedDropTxTurn
      split <;> exact .ofSame rfl rfl
    | connector j =>
      cases h
      have hc := connectorTurn_instances { s with schedule := rest } j
      exact .ofSame hc.params hc.instances
    | orchestrator =>
      have hc := orchestratorTurn_instances h
      exact .ofSame hc.params hc.instances
    | host a => exact .ofHost (u := { s with schedule := rest }) rfl rfl (hostTurn_instances h)

end Sys2Proof.Machine
end

