-- ==== Sys2Proof/Laws/PerInstr.lean ====
section
/-!
SUPPORT. A statement for all instructions, made per constructor: the word the encoder writes decodes to the
instruction it was written from (R61, R74), with every mode at every value.
-/

/-- R74: decoding the encoded instruction word gives the instruction. -/
def Sys2Proof.Laws.RoundTrip.Statement (i : Sys2Proof.Instr) : Prop :=
  Sys2Proof.decode (Sys2Proof.encode i) = .ok i

namespace Sys2Proof.Laws.RoundTrip

theorem add (m1 m2 m3 : Mode) : Statement (.add m1 m2 m3) := by
  unfold Statement; cases m1 <;> cases m2 <;> cases m3 <;> decide

theorem multiply (m1 m2 m3 : Mode) : Statement (.multiply m1 m2 m3) := by
  unfold Statement; cases m1 <;> cases m2 <;> cases m3 <;> decide

theorem input (m1 : Mode) : Statement (.input m1) := by
  unfold Statement; cases m1 <;> decide

theorem output (m1 : Mode) : Statement (.output m1) := by
  unfold Statement; cases m1 <;> decide

theorem jumpTrue (m1 m2 : Mode) : Statement (.jumpTrue m1 m2) := by
  unfold Statement; cases m1 <;> cases m2 <;> decide

theorem jumpFalse (m1 m2 : Mode) : Statement (.jumpFalse m1 m2) := by
  unfold Statement; cases m1 <;> cases m2 <;> decide

theorem lessThan (m1 m2 m3 : Mode) : Statement (.lessThan m1 m2 m3) := by
  unfold Statement; cases m1 <;> cases m2 <;> cases m3 <;> decide

theorem equal (m1 m2 m3 : Mode) : Statement (.equal m1 m2 m3) := by
  unfold Statement; cases m1 <;> cases m2 <;> cases m3 <;> decide

theorem changeRelative (m1 : Mode) : Statement (.changeRelative m1) := by
  unfold Statement; cases m1 <;> decide

theorem halt : Statement .halt := by
  unfold Statement; decide

end Sys2Proof.Laws.RoundTrip
end

