-- ==== Sys2Proof/Laws/Text.lean ====
section
/-!
SUPPORT. Reading and printing decimal numbers (R72, R73): what the parts of the reader do with the digits a
number is printed with.
-/
namespace Sys2Proof.Machine

/-- A character the reader takes as a digit is one, and is read as its value. -/
theorem digitValue_isDigit {ch : Char} (h : ch.isDigit = true) :
    digitValue ch = some (ch.toNat - '0'.toNat) := by
  simp only [Char.isDigit, Bool.and_eq_true, decide_eq_true_eq] at h
  simp only [digitValue]
  exact if_pos ⟨h.1, h.2⟩

/-- R73: reading digits is evaluating them in base ten. -/
theorem readDigits_digits (acc : Nat) (cs : List Char) (h : ∀ ch ∈ cs, ch.isDigit = true) :
    readDigits acc cs = some (Nat.ofDigitChars 10 cs acc) := by
  induction cs generalizing acc with
  | nil => rfl
  | cons ch cs ih =>
    rw [readDigits, digitValue_isDigit (h ch (List.mem_cons_self ..)), Nat.ofDigitChars_cons,
      Nat.mul_comm]
    exact ih _ fun x hx => h x (List.mem_cons_of_mem _ hx)

/-- The digits a number is printed with are read back as the number. -/
theorem readNat_toDigits (n : Nat) : readNat (Nat.toDigits 10 n) = some n := by
  have hd : ∀ ch ∈ Nat.toDigits 10 n, ch.isDigit = true := fun ch h =>
    Nat.isDigit_of_mem_toDigits (by decide) (by decide) h
  have hr := readDigits_digits 0 (Nat.toDigits 10 n) hd
  rw [Nat.ofDigitChars_toDigits (by decide) (by decide)] at hr
  cases h : Nat.toDigits 10 n with
  | nil => exact absurd h Nat.toDigits_ne_nil
  | cons ch cs => rw [readNat, ← h, hr]

@[simp] theorem natText_toList (n : Nat) : (natText n).toList = Nat.toDigits 10 n := by
  simp [natText]

/-- The characters an integer is printed with: digits, after a minus sign if it is negative. -/
theorem mem_intText {z : Int} {ch : Char} (h : ch ∈ (intText z).toList) :
    ch.isDigit = true ∨ ch = '-' := by
  unfold intText at h
  split_ifs at h
  · rcases List.mem_append.mp (by simpa using h : ch ∈ ['-'] ++ Nat.toDigits 10 z.natAbs) with h | h
    · exact .inr (by simpa using h)
    · exact .inl (Nat.isDigit_of_mem_toDigits (by decide) (by decide) h)
  · exact .inl (Nat.isDigit_of_mem_toDigits (b := 10) (by decide) (by decide) (by simpa using h))

/-- R73: an integer as it is printed is read back. -/
theorem readInt_intText (z : Int) : readInt (intText z).toList = some z := by
  unfold intText
  split_ifs with h
  · have e : ("-" ++ natText z.natAbs).toList = '-' :: Nat.toDigits 10 z.natAbs := by simp
    rw [e, readInt, readNat_toDigits]
    show some (-(z.natAbs : Int)) = some z
    rw [Option.some.injEq]
    omega
  · rw [natText_toList]
    have hr := readNat_toDigits z.natAbs
    have hd : ∀ ch ∈ Nat.toDigits 10 z.natAbs, ch.isDigit = true := fun ch h =>
      Nat.isDigit_of_mem_toDigits (by decide) (by decide) h
    unfold readInt
    split
    · rename_i rest heq
      exact absurd (hd '-' (by rw [heq]; exact List.mem_cons_self ..)) (by decide)
    · rw [hr]
      show some (z.natAbs : Int) = some z
      rw [Option.some.injEq]
      omega

/-- Text without blanks is stripped to itself. -/
theorem stripBlanks_self {cs : List Char} (h : ∀ ch ∈ cs, isBlank ch = false) : stripBlanks cs = cs := by
  have drop : ∀ l : List Char, (∀ ch ∈ l, isBlank ch = false) → l.dropWhile isBlank = l := by
    intro l hl
    cases l with
    | nil => rfl
    | cons a l => rw [List.dropWhile_cons_of_neg (by simp [hl a (List.mem_cons_self ..)])]
  unfold stripBlanks
  rw [drop cs h, drop cs.reverse fun ch hc => h ch (List.mem_reverse.mp hc), List.reverse_reverse]

/-- R73: text without a comma is one piece. -/
theorem splitCommas_self {cs : List Char} (h : ',' ∉ cs) : splitCommas cs = [cs] := by
  induction cs with
  | nil => rfl
  | cons a cs ih =>
    rw [splitCommas, ih fun hc => h (List.mem_cons_of_mem _ hc)]
    simp only [if_neg fun e : a = ',' => h (e ▸ List.mem_cons_self ..)]

/-- R73: the text before a comma is the first piece. -/
theorem splitCommas_append {cs rest : List Char} (h : ',' ∉ cs) :
    splitCommas (cs ++ ',' :: rest) = cs :: splitCommas rest := by
  induction cs with
  | nil =>
    rw [List.nil_append, splitCommas]
    cases hs : splitCommas rest with
    | nil =>
      cases rest with
      | nil => simp [splitCommas] at hs
      | cons a l =>
        rw [splitCommas] at hs
        cases hl : splitCommas l <;> rw [hl] at hs
        · cases hs
        · dsimp only at hs; split_ifs at hs
    | cons p ps => simp
  | cons a cs ih =>
    rw [List.cons_append, splitCommas, ih fun hc => h (List.mem_cons_of_mem _ hc)]
    simp only [if_neg fun e : a = ',' => h (e ▸ List.mem_cons_self ..)]

end Sys2Proof.Machine
end

