-- ==== Sys2Proof/Tests/Slice0.lean ====
section
/-!
SUPPORT. Tests. Expected results are the spec's: the tables of 30_encoding.md R75 and the vectors V<n> of
95_test_vectors.md, or worked out by hand from the rule named. The `test_hyps_…` theorems show, for each
statement with hypotheses, states and operands that meet them, clause by clause.
-/
namespace Sys2Proof.Tests
open Sys2Proof Sys2Proof.Machine

/-! ### Small states -/

/-- Run the core in focus. -/
def ran (s : State) : State := s.setCore s.core.start

/-- One instance, loaded and run. -/
def st (program : List Word) (d : Device := .inert) : State := ran (State.loaded {} program d)

/-- The same with `OVF = wrap`. -/
def stWrap (program : List Word) : State := ran (State.loaded { ovf := .wrap } program .inert)

/-- The same with a memory limit. -/
def stLimit (n : Nat) (program : List Word) : State := ran (State.loaded { memLimit := n } program .inert)

/-- One instance on a Blocking-channel device: channel 0 is its input, channel 1 its output. -/
def stChan (program : List Word) (q : List Word) (tx rx : Bool) : State :=
  { st program (.blocking 0 1) with
    chans := [⟨q, tx, true, .host, .device 0⟩, ⟨[], true, rx, .device 0, .host⟩] }

/-- One instance on a Non-blocking-with-status device. -/
def stNb (first : Bool) (q : List Word) (tx : Bool) : State :=
  { stChan [3, 0, 99] q tx true with
    core := (CoreState.load [3, 0, 99] (.nonblocking 0 1 first .fresh none)).start }

/-- An active core with an invalid opcode whose device owes a write of `idle`. -/
def stOwed : State :=
  { stChan [33] [] true true with
    core := (CoreState.load [33] (.nonblocking 0 1 true .fresh (some true))).start }

/-- Two instances, both run, the first in focus. -/
def stTwo : State := { st [1101, 1, 1, 0, 99] with after := [(CoreState.load [99] .inert).start] }

/-- A Connector from channel 0 to channels 1 and 2. -/
def stConn (q : List Word) (tx : Bool) (cur : Option Word) (k : Nat) : State :=
  { st [99] with
    chans := [⟨q, tx, true, .host, .connector 0⟩, ⟨[], true, true, .connector 0, .host⟩,
      ⟨[], true, false, .connector 0, .host⟩]
    conns := [{ up := 0, down := [1, 2], cur := cur, k := k, done := false }] }

/-- An orchestrator over one machine: channel 0 is the machine's input, channel 1 its output. -/
def stOrch (part q : List Word) (tx rx : Bool) (mode : NetMode) (idle : Bool) (last : Option (Word × Word))
    (ph : OrchPhase) : State :=
  { st [99] (.nonblocking 0 1 true ⟨idle, false⟩ none) with
    chans := [⟨[], true, rx, .orchestrator, .device 0⟩, ⟨q, tx, true, .device 0, .orchestrator⟩]
    orch := some
      { sentinel := 255
        threshold := 0
        mode := mode
        nodes := [{ machine := 0, inCh := 0, outCh := 1, part := part }]
        idleCount := 0
        held := some (4, 5)
        lastSent := last
        routed := false
        phase := ph } }

/-- The same, reading the flag of its machine, whose cell holds 0 and held 1 before. -/
def stStale : State :=
  (stOrch [] [] true true .repeatValue false none (.check 0)).setDev
    (.nonblocking 0 1 true ((IdleCell.fresh.write true).write false) none)

/-- Plan turns. -/
def plan (l : List Turn) (s : State) : State := { s with schedule := l }

/-- The state after an outcome that goes on, else the state given. -/
def nextOr (s : State) : Host.Outcome State Fault Refusal → State
  | .next t => t
  | .fault _ => s
  | .refused _ => s

/-- The orchestrator of a state that has one. -/
def nodesOf (s : State) : List NetNode :=
  match s.orch with
  | some o => o.nodes
  | none => []

/-- The core in focus after an outcome that goes on. -/
def after : Host.Outcome State Fault Refusal → Option CoreState
  | .next s => some s.core
  | .fault _ => none
  | .refused _ => none

/-- The cell at `a`, `pc` and the code of the fault, after one step. -/
def cellPcFault (s : State) (a : Nat) : Option (Int × Nat × Nat × Nat) :=
  (after (step s)).map fun c => ((c.mem.read a).toInt, c.pc, c.fcauseCode, c.finfo.val)

/-! ### WellFormed: each check refuses an ill-formed term -/

theorem test_wf_add_immediate : Instr.wf (.add .position .position .immediate) = false := by decide
theorem test_wf_multiply_immediate : Instr.wf (.multiply .immediate .relative .immediate) = false := by decide
theorem test_wf_input_immediate : Instr.wf (.input .immediate) = false := by decide
theorem test_wf_lessThan_immediate : Instr.wf (.lessThan .position .position .immediate) = false := by decide
theorem test_wf_equal_immediate : Instr.wf (.equal .position .position .immediate) = false := by decide
theorem test_wf_values_any_mode : Instr.wf (.add .immediate .immediate .relative) = true := by decide
theorem test_wf_too_few_words : Instr.wfWords (.add .position .position .position) [1, 2] = false := by decide
theorem test_wf_too_many_words : Instr.wfWords .halt [1] = false := by decide
theorem test_wf_words : Instr.wfWords (.output .immediate) [7] = true := by decide

/-! ### Decoding: words written digit by digit, `C B A O O` (R61) -/

/-- `2 1 1 0 1` -/
theorem test_decode_add : decode 21101 = .ok (.add .immediate .immediate .relative) := by decide
/-- `0 1 0 0 2` -/
theorem test_decode_multiply : decode 1002 = .ok (.multiply .position .immediate .position) := by decide
/-- `0 0 2 0 3` -/
theorem test_decode_input : decode 203 = .ok (.input .relative) := by decide
/-- `0 0 1 0 4` -/
theorem test_decode_output : decode 104 = .ok (.output .immediate) := by decide
/-- `0 1 0 0 5` -/
theorem test_decode_jumpTrue : decode 1005 = .ok (.jumpTrue .position .immediate) := by decide
/-- `0 2 1 0 6` -/
theorem test_decode_jumpFalse : decode 2106 = .ok (.jumpFalse .immediate .relative) := by decide
/-- `0 2 2 0 7` -/
theorem test_decode_lessThan : decode 2207 = .ok (.lessThan .relative .relative .position) := by decide
/-- `2 0 1 0 8` -/
theorem test_decode_equal : decode 20108 = .ok (.equal .immediate .position .relative) := by decide
/-- `0 0 2 0 9` -/
theorem test_decode_changeRelative : decode 209 = .ok (.changeRelative .relative) := by decide
/-- `0 0 0 9 9` -/
theorem test_decode_halt : decode 99 = .ok .halt := by decide

/-- V10, V14, V17, V18, V20: the opcode before the modes, the lowest index first, the sign before both. -/
theorem test_decode_rejects :
    decode 100 = .error .invalidOpcode ∧ decode 93301 = .error (.invalidMode 1) ∧
    decode 1234599 = .error (.invalidMode 1) ∧ decode 9223372036854775807 = .error (.invalidMode 1) ∧
    decode (-99) = .error .invalidOpcode ∧ decode 3001 = .error (.invalidMode 2) := by decide

/-- R72: the notation of the spec's examples. -/
theorem test_notation :
    instrText (.multiply .position .immediate .position) [4, 3, 4] = "Multiply [4], #3, [4]" ∧
    instrText (.output .relative) [-1] = "Output [rb-1]" ∧ instrText .halt [] = "Halt" := by decide

/-- R74: `1002, 4, 3, 4` as four words, lowest first. -/
theorem test_table_word :
    decodeTableWord 256 (1002 + 4 * 2 ^ 64 + 3 * 2 ^ 128 + 4 * 2 ^ 192) =
      some (.multiply .position .immediate .position) ∧
    decodeTableWord 64 99 = some .halt ∧ decodeTableWord 64 33 = none := by decide

/-- The very next step runs the word placed: `Add #7, #8, [0]` stores 15 at 0. -/
theorem test_withFetchWord :
    cellPcFault (State.reset.withFetchWord 256 (1101 + 7 * 2 ^ 64 + 8 * 2 ^ 128)) 0 = some (15, 4, 0, 0) ∧
    (after (step (State.reset.withFetchWord 64 99))).map CoreState.status = some .halted := by decide

/-- Reset's memory keeps the canonical form and lists nothing. -/
theorem test_reset_memory : State.reset.core.mem = [] ∧ State.reset.core.mem.wf = true := by decide

/-! ### One step of each instruction -/

/-- R80: `[1,0,0,0,99]`. -/
theorem test_add : cellPcFault (st [1, 0, 0, 0, 99]) 0 = some (2, 4, 0, 0) := by decide
/-- V36, V38: `2^63 - 1 + 1` faults, or wraps. -/
theorem test_add_overflow :
    cellPcFault (st [1101, 9223372036854775807, 1, 0, 99]) 0 = some (1101, 0, 6, 0) ∧
    cellPcFault (stWrap [1101, 9223372036854775807, 1, 0, 99]) 0 =
      some (-9223372036854775808, 4, 0, 0) := by decide
/-- R81: `[1002,4,3,4,33]`. -/
theorem test_multiply : cellPcFault (st [1002, 4, 3, 4, 33]) 4 = some (99, 4, 0, 0) := by decide
/-- V47: a wrapped product. -/
theorem test_multiply_wrap :
    cellPcFault (stWrap [1102, 3037000500, 3037000500, 0, 99]) 0 =
      some (-9223372036709301616, 4, 0, 0) := by decide
/-- V50: Input takes 42 from the channel. -/
theorem test_input : cellPcFault (stChan [3, 0, 4, 0, 99] [42] true true) 0 = some (42, 2, 0, 0) := by decide
/-- V32: Input on a closed channel halts with `pc` at the instruction, keeping the growth of its reads. -/
theorem test_input_fail :
    (after (step (stChan [3] [] false true))).map (fun c => (c.status, c.pc, c.mlen)) =
      some (.halted, 0, 2) := by decide
/-- R122: Output on the Latest-value device. -/
theorem test_output :
    (after (step (st [104, 9, 99] (.latest 0)))).map (fun c => (c.dev, c.pc)) =
      some (.latest 9, 2) := by decide
/-- V33: Output to a dropped consumer halts with `pc` at the instruction. -/
theorem test_output_fail :
    (after (step (stChan [104, 2, 99] [] true false))).map (fun c => (c.status, c.pc)) =
      some (.halted, 0) := by decide
/-- V60, V65: taken, also on a negative condition. -/
theorem test_jumpTrue :
    cellPcFault (st [1105, 7, 4, 99]) 0 = some (1105, 4, 0, 0) ∧
    cellPcFault (st [1105, -1, 3, 99]) 0 = some (1105, 3, 0, 0) := by decide
/-- V66, V67: a negative target faults only when it is taken. -/
theorem test_jumpTrue_negative :
    cellPcFault (st [1105, 1, -1]) 0 = some (1105, 0, 4, 2) ∧
    cellPcFault (st [1105, 0, -1, 99]) 0 = some (1105, 3, 0, 0) := by decide
/-- V62, V63. -/
theorem test_jumpFalse :
    cellPcFault (st [1106, 0, 4, 99]) 0 = some (1106, 4, 0, 0) ∧
    cellPcFault (st [1106, 3, 4, 99]) 0 = some (1106, 3, 0, 0) := by decide
/-- V80, V83: the comparison is signed. -/
theorem test_lessThan :
    cellPcFault (st [1107, -1, 0, 0, 99]) 0 = some (1, 4, 0, 0) ∧
    cellPcFault (st [1107, -9223372036854775808, 9223372036854775807, 0, 99]) 0 = some (1, 4, 0, 0) := by
  decide
/-- V81, V82: not less, and strict. -/
theorem test_lessThan_not :
    cellPcFault (st [1107, 0, -1, 0, 99]) 0 = some (0, 4, 0, 0) ∧
    cellPcFault (st [1107, 5, 5, 0, 99]) 0 = some (0, 4, 0, 0) := by decide
/-- V85, V86. -/
theorem test_equal :
    cellPcFault (st [1108, 8, 8, 0, 99]) 0 = some (1, 4, 0, 0) ∧
    cellPcFault (st [1108, 8, -8, 0, 99]) 0 = some (0, 4, 0, 0) := by decide
/-- V91: a Position operand. -/
theorem test_changeRelative :
    (after (step (st [9, 3, 99, 12]))).map (fun c => (c.rb.toInt, c.pc)) = some (12, 2) := by decide
/-- V92: a Relative operand uses the old base. -/
theorem test_changeRelative_old_base :
    (after (step ((st [109, 4, 209, 0, 99]).setCore
        (((st [109, 4, 209, 0, 99]).core.setRb 4).advance 2)))).map (fun c => c.rb.toInt) =
      some 103 := by decide
/-- V100, V101: Halt touches no cell but its own. -/
theorem test_halt :
    (after (step (stLimit 1 [99]))).map (fun c => (c.status, c.pc, c.mlen)) = some (.halted, 1, 1) := by
  decide
/-- V114: Halt's mode digits are checked. -/
theorem test_halt_mode : cellPcFault (st [30099]) 0 = some (30099, 0, 2, 3) := by decide

/-- V74: the empty program faults, and the growth of the fetch is discarded. -/
theorem test_empty_program :
    (after (step (st []))).map (fun c => (c.fcauseCode, c.finfo.val, c.mlen)) = some (1, 0, 0) := by
  decide
/-- V118, V120, V124, V57: the address faults and the Immediate destination. -/
theorem test_faults :
    cellPcFault (st [21101, 1, 1, -1, 99]) 0 = some (21101, 0, 4, 3) ∧
    cellPcFault (st [1001, 9223372036854775807, 0, 0, 99]) 0 = some (1001, 0, 5, 1) ∧
    cellPcFault (stLimit 1 [4]) 0 = some (4, 0, 5, 1) ∧
    cellPcFault (stChan [103, 5, 99] [7] true true) 0 = some (103, 0, 3, 1) := by decide
/-- V126, V128: priority. -/
theorem test_fault_priority :
    cellPcFault (st [1101, 9223372036854775807, 1, -1, 99]) 0 = some (1101, 0, 4, 3) ∧
    cellPcFault (st [1100, 0, 0, 0]) 0 = some (1100, 0, 1, 0) := by decide
/-- V73: the highest legal address is read, and only the length grows. -/
theorem test_highest_address :
    (after (step (st [1001, 9223372036854775806, 0, 0, 99]))).map (fun c => (c.mlen, c.mem.read 0)) =
      some (9223372036854775807, 0) := by decide
/-- V58: the second `get` of the Non-blocking device answers -1, and the idle flag is written after it. -/
theorem test_nonblocking :
    (after (step (stNb true [] true))).map (fun c => ((c.mem.read 0).toInt, c.dev)) =
      some (-1, .nonblocking 0 1 true .fresh (some true)) := by decide

/-- The phase after the orchestrator's turn. -/
def phaseAfter (seen : Bool) (s : State) : Option OrchPhase :=
  (nextOr s (step (plan [.orchestrator seen] s))).orch.map Orchestrator.phase

/-- R54: a flag that holds 0 and held 1 may be read as either; one that has held only 0 is read as 0; one that
holds 1 may be read as the 0 it started with. -/
theorem test_stale_idle :
    phaseAfter true stStale = some (.check 1) ∧ phaseAfter false stStale = some .pause ∧
    phaseAfter true (stOrch [] [] true true .repeatValue false none (.check 0)) = some .pause ∧
    phaseAfter true (stOrch [] [] true true .repeatValue true none (.check 0)) = some (.check 1) ∧
    phaseAfter false (stOrch [] [] true true .repeatValue true none (.check 0)) = some .pause := by decide

/-- R183: a loaded core takes no step before its `Run`, and takes its first one after it. -/
theorem test_run :
    step (State.loaded {} [99] .inert) = .next (State.loaded {} [99] .inert) ∧
    step (plan [.host (.run 0)] (State.loaded {} [99] .inert)) = .next (st [99]) ∧
    (after (step (st [99]))).map CoreState.status = some .halted := ⟨rfl, rfl, by decide⟩

/-- R185: a run has not ended while a core is loaded and not run, or Running; it ends with the last core, if the
host has what it waits for; the instance of `State.reset` does not keep a system loaded beside it from ending. -/
theorem test_ended :
    (State.loaded {} [99] .inert).ended (fun _ => true) = false ∧
    State.reset.ended (fun _ => true) = false ∧ (st [99]).ended (fun _ => true) = false ∧
    ({ State.reset with after := [(CoreState.load [99] .inert).start.halt] }).ended (fun _ => true) = true ∧
    ({ State.reset with after := [CoreState.load [99] .inert] }).ended (fun _ => true) = false ∧
    (nextOr (st []) (step (st [99]))).ended (fun got => got.isEmpty) = true ∧
    (nextOr (st []) (step (st [99]))).ended (fun got => !got.isEmpty) = false := by decide

/-! ### Witnesses: states and operands that meet the hypotheses of each statement, clause by clause -/

theorem test_hyps_DecodeOfEncodedWordsGivesInstruction :
    [(7 : Word), 8, 0].length = (Instr.add .immediate .immediate .relative).params.length ∧
    ([] : List Word).length = Instr.halt.params.length ∧
    [Word.ofZ (-1)].length = (Instr.input .immediate).params.length := by decide

theorem test_hyps_DecodedFieldsAreDecimalDigits :
    decode 21101 = .ok (.add .immediate .immediate .relative) ∧
    2 < (Instr.add .immediate .immediate .relative).params.length ∧
    decode 9223372036854775807 = .error (.invalidMode 1) ∧
    decode 9223372036854700099 = .ok .halt := by decide

/-- Each clause: the signs, the opcodes beside the valid ones, and each mode digit at 2 and at 3. -/
theorem test_hyps_DecodeRejectsByName :
    (Word.ofZ (-1)).toInt < 0 ∧ (Word.ofZ (-9223372036854775808)).toInt < 0 ∧
    (0 ≤ (0 : Word).toInt ∧ (0 : Word).toNat % 100 ∉ [1, 2, 3, 4, 5, 6, 7, 8, 9, 99]) ∧
    (10 : Word).toNat % 100 ∉ [1, 2, 3, 4, 5, 6, 7, 8, 9, 99] ∧
    (98 : Word).toNat % 100 ∉ [1, 2, 3, 4, 5, 6, 7, 8, 9, 99] ∧
    (0 ≤ (399 : Word).toInt ∧ (399 : Word).toNat % 100 ∈ [1, 2, 3, 4, 5, 6, 7, 8, 9, 99] ∧
      2 < (399 : Word).toNat / 100 % 10) ∧
    ((3201 : Word).toNat / 100 % 10 ≤ 2 ∧ 2 < (3201 : Word).toNat / 1000 % 10) ∧
    ((32209 : Word).toNat / 100 % 10 ≤ 2 ∧ (32209 : Word).toNat / 1000 % 10 ≤ 2 ∧
      2 < (32209 : Word).toNat / 10000 % 10) ∧
    (0 ≤ (922299 : Word).toInt ∧ (922299 : Word).toNat % 100 ∈ [1, 2, 3, 4, 5, 6, 7, 8, 9, 99] ∧
      (922299 : Word).toNat / 100 % 10 ≤ 2 ∧ (922299 : Word).toNat / 1000 % 10 ≤ 2 ∧
      (922299 : Word).toNat / 10000 % 10 ≤ 2) := by decide

theorem test_hyps_DecodeIgnoresHigherDigits :
    0 ≤ (921101 : Word).toInt ∧ 0 ≤ (21101 : Word).toInt ∧
    (921101 : Word).toNat % 100000 = (21101 : Word).toNat % 100000 := by decide

theorem test_hyps_EncodeGivesBackCanonicalWord :
    decode 203 = .ok (.input .relative) ∧ (203 : Word).toNat < 100000 ∧
    (∀ k, k < 3 → (Instr.input .relative).params.length ≤ k → (203 : Word).toNat / 10 ^ (k + 2) % 10 = 0) ∧
    decode 22208 = .ok (.equal .relative .relative .relative) := by decide

theorem test_hyps_DecodeOfSpecExamples : (st [10101]).core.pc + 3 < (stLimit 4 []).params.memLimit := by decide

theorem test_hyps_WriteThenReadAndGrowth :
    (st [7, 0, 5]).core.mem.wf = true ∧ (∀ b, b < 3 → (st [7, 0, 5]).core.mlen ≤ b + 3 →
      (st [7, 0, 5]).core.mem.read (b + 3) = 0#64) ∧ (st [7, 0, 5]).core.mlen ≤ 3 := by decide

/-- At the limit, just below it, and just past the length of `[7, 0, 5]`, whose cells past it read 0. -/
theorem test_hyps_ReadGrowsOnlyTheLength :
    (stLimit 4 []).params.memLimit ≤ 4 ∧ 3 < (stLimit 4 []).params.memLimit ∧
    (st [7, 0, 5]).core.mlen ≤ 3 ∧
    ∀ b, (st [7, 0, 5]).core.mlen ≤ b → (st [7, 0, 5]).core.mem.read b = 0#64 := by
  refine ⟨by decide, by decide, by decide, fun b hb => ?_⟩
  have h : 3 ≤ b := hb
  rw [show (st [7, 0, 5]).core.mem = [(0, 7), (2, 5)] by decide]
  simp [Memory.read, show b ≠ 0 by omega, show b ≠ 2 by omega]

theorem test_hyps_EqualReadsMeanEqualMemories :
    ((st [7, 0, 5]).core.mem.write 2 0).wf = true ∧ (st [7]).core.mem.wf = true ∧
    (st [7, 0, 5]).core.mem.write 2 0 = (st [7]).core.mem := by decide

/-- In range at both ends; out of range on both sides, with either `OVF`. -/
theorem test_hyps_AluResultAndWrap :
    (Word.minZ ≤ Word.minZ ∧ Word.maxZ ≤ Word.maxZ) ∧
    ¬ (Word.minZ ≤ Word.maxZ + 1 ∧ Word.maxZ + 1 ≤ Word.maxZ) ∧
    ¬ (Word.minZ ≤ Word.minZ - 1 ∧ Word.minZ - 1 ≤ Word.maxZ) ∧
    (stWrap []).params.ovf = .wrap ∧ (st []).params.ovf = .fault := by decide

/-- The faults of an operand, of the destination and of the result, and no fault. -/
theorem test_hyps_AddResult :
    firstFault [(st [1, -1, 0, 0]).core.valueFault {} 1 .position] = some ⟨.negativeAddress, 1⟩ ∧
    instrFault {} (st [11101, 1, 1, 0]).core (.add .immediate .immediate .immediate) =
      some ⟨.immediateDestination, 3⟩ ∧
    instrFault {} (st [1101, 9223372036854775807, 1, 0]).core (.add .immediate .immediate .position) =
      some ⟨.arithmeticOverflow, 0⟩ ∧
    firstFault
        [(st [1101, 9223372036854775806, 1, 0]).core.valueFault {} 1 .immediate,
          (st [1101, 9223372036854775806, 1, 0]).core.valueFault {} 2 .immediate,
          (st [1101, 9223372036854775806, 1, 0]).core.destFault {} 3 .position,
          overflowFault {}
            (((st [1101, 9223372036854775806, 1, 0]).core.operand 1 .immediate).toInt +
              ((st [1101, 9223372036854775806, 1, 0]).core.operand 2 .immediate).toInt)] = none := by
  decide

theorem test_hyps_MultiplyResult :
    instrFault {} (st [1102, 9223372036854775807, -1, 0]).core (.multiply .immediate .immediate .position) =
      none ∧
    instrFault {} (st [1102, -9223372036854775808, -1, 0]).core (.multiply .immediate .immediate .position) =
      some ⟨.arithmeticOverflow, 0⟩ := by decide

theorem test_hyps_LessThanResult :
    instrFault {} (st [1107, 1, 2, 5]).core (.lessThan .immediate .immediate .position) = none ∧
    instrFault {} (st [11107, 1, 2, 5]).core (.lessThan .immediate .immediate .immediate) =
      some ⟨.immediateDestination, 3⟩ := by decide

theorem test_hyps_EqualResult :
    instrFault {} (st [20108, 1, 2, 5]).core (.equal .immediate .position .relative) = none ∧
    instrFault (stLimit 2 []).params (st [1108, 1, 2, 5]).core (.equal .immediate .immediate .position) =
      some ⟨.memoryLimit, 2⟩ := by decide

/-- An operand's fault; taken to a negative target; taken to 0; not taken. -/
theorem test_hyps_JumpTrueResult :
    firstFault [(st [5, -1, 4]).core.valueFault {} 1 .position] = some ⟨.negativeAddress, 1⟩ ∧
    firstFault [(st [1105, 1, -1]).core.valueFault {} 1 .immediate,
      (st [1105, 1, -1]).core.valueFault {} 2 .immediate] = none ∧
    ((st [1105, 1, -1]).core.operand 1 .immediate).toInt ≠ 0 ∧
    ((st [1105, 1, -1]).core.operand 2 .immediate).toInt < 0 ∧
    0 ≤ ((st [1105, -1, 0]).core.operand 2 .immediate).toInt ∧
    ((st [1105, 0, 0]).core.operand 1 .immediate).toInt = 0 := by decide

theorem test_hyps_JumpFalseResult :
    firstFault [(st [1006, 0, -1]).core.valueFault {} 1 .position,
      (st [1006, 3, 0]).core.valueFault {} 2 .immediate] = none ∧
    ((st [1106, 0, -1]).core.operand 1 .immediate).toInt = 0 ∧
    ((st [1106, 0, -1]).core.operand 2 .immediate).toInt < 0 ∧
    0 ≤ ((st [1106, 0, 0]).core.operand 2 .immediate).toInt ∧
    ((st [1106, -1, 0]).core.operand 1 .immediate).toInt ≠ 0 := by decide

theorem test_hyps_ChangeRelativeResult :
    instrFault {} (st [109, -5]).core (.changeRelative .immediate) = none ∧
    instrFault {} (st [9, -5]).core (.changeRelative .position) = some ⟨.negativeAddress, 1⟩ := by decide

/-- A destination's fault; the port's three answers. -/
theorem test_hyps_InputResult :
    (st [103, 0]).core.destFault {} 1 .immediate = some ⟨.immediateDestination, 1⟩ ∧
    (st [3, 0]).core.destFault {} 1 .position = none ∧
    (ioGet (stChan [3, 0] [5] true true)).1 = .ok 5 ∧ (ioGet (stChan [3, 0] [] false true)).1 = .fail ∧
    (ioGet (stChan [3, 0] [] true true)).1 = .wait := by decide

theorem test_hyps_OutputResult :
    (st [4, -1]).core.valueFault {} 1 .position = some ⟨.negativeAddress, 1⟩ ∧
    (st [104, -1]).core.valueFault {} 1 .immediate = none ∧
    (ioPut (stChan [104, -1] [] true true) (-1)).1 = .ok () ∧
    (ioPut (stChan [104, -1] [] true false) (-1)).1 = .fail := by decide

/-- Each of the four answers a next state without a fault. -/
theorem test_hyps_StoringInstructionsFrame :
    [Instr.add .immediate .immediate .position, .multiply .immediate .immediate .position,
        .lessThan .immediate .immediate .position, .equal .immediate .immediate .position].map
      (fun i => (after (exec i (st [0, 2, 3, 5]))).map fun c => (c.fcauseCode, (c.mem.read 5).toInt)) =
    [some (0, 5), some (0, 6), some (0, 1), some (0, 0)] := by decide

theorem test_hyps_RegisterInstructionsFrame :
    [Instr.jumpTrue .immediate .immediate, .jumpFalse .immediate .immediate, .changeRelative .immediate,
        .halt].map
      (fun i => (after (exec i (st [0, 2, 9]))).map fun c => (c.fcauseCode, c.pc, c.rb.toInt)) =
    [some (0, 9, 0), some (0, 3, 0), some (0, 2, 2), some (0, 1, 0)] := by decide

theorem test_hyps_InputFrame :
    (after (exec (.input .position) (stChan [3, 9] [5] true true))).map
      (fun c => (c.fcauseCode, (c.mem.read 9).toInt)) = some (0, 5) := by decide

theorem test_hyps_OutputFrame :
    (after (exec (.output .immediate) (stChan [104, 9] [] true true))).map
      (fun c => (c.fcauseCode, c.pc)) = some (0, 2) := by decide

/-- Each of the four registers and stores does change under one of the instructions named. -/
theorem test_hyps_OnlyTheNamedInstructionsWrite :
    (after (exec (.changeRelative .immediate) (st [109, 5]))).map CoreState.rb ≠ some (st [109, 5]).core.rb ∧
    (after (exec .halt (st [99]))).map CoreState.halted ≠ some (st [99]).core.halted ∧
    (after (exec (.add .immediate .immediate .position) (st [1101, 1, 1, 0]))).map CoreState.mem ≠
      some (st [1101, 1, 1, 0]).core.mem ∧
    (after (exec (.jumpTrue .immediate .immediate) (st [1105, 1, 9]))).map CoreState.pc = some 9 := by decide

/-- A faulting step with no turn planned; and the planned turn of an instance not in focus, whose device owes a
write of `idle`. -/
theorem test_hyps_FaultEntryIsPrecise :
    (st [33]).CoreStep (st [33]) ∧ (st [33]).core.active = true ∧
    (after (step (st [33]))).map CoreState.fcause = some (some .invalidOpcode) ∧
    (plan [.core 1] { st [99] with after := [stOwed.core] }).CoreStep
      (State.focus { st [99] with after := [stOwed.core] } 1) ∧
    (State.focus { st [99] with after := [stOwed.core] } 1).core = stOwed.core ∧
    stOwed.core.active = true ∧
    (after (step (plan [.core 1] { st [99] with after := [stOwed.core] }))).map CoreState.fcause =
      some (some .invalidOpcode) := by
  exact ⟨.unplanned rfl, by decide, by decide, .planned 1 [] rfl (by decide), by decide, by decide, by decide⟩

/-- A step with a fault and one without, of an active core; the same as planned turns. -/
theorem test_hyps_FirstFaultInOrderIsTaken :
    (st [1301, 0, 0, 0]).CoreStep (st [1301, 0, 0, 0]) ∧ (st [1301, 0, 0, 0]).core.active = true ∧
    (st [1301, 0, 0, 0]).core.stepFault {} = some ⟨.invalidMode, 1⟩ ∧
    (plan [.core 1] stTwo).CoreStep (stTwo.focus 1) ∧ (stTwo.focus 1).core.active = true ∧
    (stTwo.focus 1).core.stepFault {} = none := by
  exact ⟨.unplanned rfl, by decide, by decide, .planned 1 [] rfl (by decide), by decide, by decide⟩

/-- Steps of an active core that take ImmediateDestination with both indexes, and ArithmeticOverflow. -/
theorem test_hyps_FaultCodesAndInfo :
    (st [10001, 0, 0, 0]).CoreStep (st [10001, 0, 0, 0]) ∧ (st [10001, 0, 0, 0]).core.active = true ∧
    (after (step (st [10001, 0, 0, 0]))).map (fun c => (c.fcause, c.finfo)) =
      some (some .immediateDestination, 3) ∧
    (after (step (st [103, 0]))).map (fun c => (c.fcause, c.finfo)) = some (some .immediateDestination, 1) ∧
    (after (step (st [1101, 9223372036854775807, 1, 0]))).map (fun c => (c.fcause, c.finfo)) =
      some (some .arithmeticOverflow, 0) := by
  exact ⟨.unplanned rfl, by decide, by decide, by decide, by decide⟩

/-- With no turn planned; and the planned turn of instance 1, which is not in focus. -/
theorem test_hyps_StepRunsDecodedInstruction :
    (st [1, 0, 0, 0]).CoreStep (st [1, 0, 0, 0]) ∧ (st [1, 0, 0, 0]).core.active = true ∧
    (st [1, 0, 0, 0]).core.pc < (st [1, 0, 0, 0]).params.memLimit ∧
    decode ((st [1, 0, 0, 0]).core.mem.read (st [1, 0, 0, 0]).core.pc) =
      .ok (.add .position .position .position) ∧
    (st [1, 0, 0, 0]).schedule = [] ∧ (st [1, 0, 0, 0]).core.dev.settle = (st [1, 0, 0, 0]).core.dev ∧
    (plan [.core 1] stTwo).CoreStep (stTwo.focus 1) ∧ (stTwo.focus 1).core.active = true ∧
    decode ((stTwo.focus 1).core.mem.read (stTwo.focus 1).core.pc) = .ok .halt ∧
    (plan [.core 1] stTwo).instances[1]? = some (CoreState.load [99] .inert).start := by
  exact ⟨.unplanned rfl, by decide, by decide, by decide, by decide, by decide, .planned 1 [] rfl (by decide),
    by decide, by decide, by decide⟩

/-- `Add #49, #50, [4]` and `Multiply #33, #3, [4]` each store a Halt where they pass to; LessThan and Equal a 0 or
a 1, of which 1 decodes and 0 does not; Input stores what it receives. -/
theorem test_hyps_StoreSeenByNextFetch :
    (st [1101, 49, 50, 4, 33]).core.active = true ∧ (st [1101, 49, 50, 4, 33]).schedule = [] ∧
    (st [1101, 49, 50, 4, 33]).core.mem.wf = true ∧
    (st [1101, 49, 50, 4, 33]).core.destAddr 3 .position = (st [1101, 49, 50, 4, 33]).core.pc + 4 ∧
    instrFault {} (st [1101, 49, 50, 4, 33]).core (.add .immediate .immediate .position) = none ∧
    decodeOrRaise (aluWord (((st [1101, 49, 50, 4, 33]).core.operand 1 .immediate).toInt +
      ((st [1101, 49, 50, 4, 33]).core.operand 2 .immediate).toInt)) = .ok .halt ∧
    (st [1102, 33, 3, 4, 33]).core.destAddr 3 .position = (st [1102, 33, 3, 4, 33]).core.pc + 4 ∧
    instrFault {} (st [1102, 33, 3, 4, 33]).core (.multiply .immediate .immediate .position) = none ∧
    (st [1107, 1, 2, 4]).core.destAddr 3 .position = (st [1107, 1, 2, 4]).core.pc + 4 ∧
    instrFault {} (st [1107, 1, 2, 4]).core (.lessThan .immediate .immediate .position) = none ∧
    instrFault {} (st [1108, 1, 2, 4]).core (.equal .immediate .immediate .position) = none ∧
    decodeOrRaise 1 = .ok (.add .position .position .position) ∧
    decodeOrRaise 0 = .error ⟨.invalidOpcode, 0⟩ ∧
    (stChan [3, 2] [99] true true).core.active = true ∧ (stChan [3, 2] [99] true true).core.mem.wf = true ∧
    (stChan [3, 2] [99] true true).core.destAddr 1 .position = (stChan [3, 2] [99] true true).core.pc + 2 ∧
    instrFault {} (stChan [3, 2] [99] true true).core (.input .position) = none ∧
    (ioGet (stChan [3, 2] [99] true true)).1 = .ok 99 := by decide

/-- A Halted, a Faulted and a not yet run core, with and without a planned turn. -/
theorem test_hyps_StoppedCoreTakesNoStep :
    ((st [99]).setCore (st [99]).core.halt).core.status ≠ .running ∧
    ((st [99]).setCore (st [99]).core.halt).schedule = [] ∧
    (plan [.core 0] ((st [99]).raise ⟨.memoryLimit, 0⟩)).instances[0]? =
      some ((st [99]).raise ⟨.memoryLimit, 0⟩).core ∧
    ((st [99]).raise ⟨.memoryLimit, 0⟩).core.status ≠ .running ∧
    State.reset.core.started = false ∧ State.reset.core.status = .running ∧ State.reset.schedule = [] := by
  decide

/-- A live and a dropped consumer; an empty queue with a live and with a dropped producer; a value queued. -/
theorem test_hyps_ChannelDeliversInOrder :
    (Channel.fresh .host .host).rxAlive = true ∧ (Channel.fresh .host .host).dropRx.rxAlive = false ∧
    (Channel.fresh .host .host).q = [] ∧ (Channel.fresh .host .host).txAlive = true ∧
    (Channel.fresh .host .host).dropTx.txAlive = false ∧
    ((Channel.fresh .host .host).send 5).2.q = 5 :: [] := by decide

theorem test_hyps_TryRecvNeverWaits :
    ((Channel.fresh .host .host).send 5).2.q = 5 :: [] ∧ (Channel.fresh .host .host).q = [] ∧
    (Channel.fresh .host .host).txAlive = true ∧ (Channel.fresh .host .host).dropTx.txAlive = false := by
  decide

theorem test_hyps_InertAndLatestValueDevices :
    (st []).core.dev = .inert ∧ (st [] (.latest 9)).core.dev = .latest 9 := by decide

theorem test_hyps_BlockingDeviceUsesItsChannels :
    (stChan [] [5] true true).core.dev = .blocking 0 1 ∧ 1 < (stChan [] [5] true true).chans.length ∧
    ((stChan [] [5] true true).chan 0).q = 5 :: [] ∧ ((stChan [] [] true true).chan 0).q = [] ∧
    ((stChan [] [] false true).chan 0).txAlive = false ∧ ((stChan [] [] true true).chan 0).txAlive = true ∧
    ((stChan [] [] true true).chan 1).rxAlive = true ∧
    ((stChan [] [] true false).chan 1).rxAlive = false := by decide

/-- A first and a later `get` on a value, on a closed and on an open empty queue; a `put` to a live and to a
dropped consumer; a device that owes a write of `idle`. -/
theorem test_hyps_NonblockingDeviceGet :
    (stNb false [5] true).core.dev = .nonblocking 0 1 false .fresh none ∧
    0 < (stNb false [5] true).chans.length ∧ 1 < (stNb false [5] true).chans.length ∧
    ((stNb false [5] true).chan 0).q = 5 :: [] ∧
    ((stNb false [] false).chan 0).q = [] ∧ ((stNb false [] false).chan 0).txAlive = false ∧
    ((stNb true [] false).chan 0).q = [] ∧ ((stNb true [] false).chan 0).txAlive = false ∧
    ((stNb true [] true).chan 0).txAlive = true ∧
    (stNb true [] true).core.dev = .nonblocking 0 1 true .fresh none ∧
    ((stNb true [] true).chan 1).rxAlive = true ∧
    (((stNb true [] true).modChan 1 Channel.dropRx).chan 1).rxAlive = false ∧
    (plan [.settleIdle 0] stOwed).schedule = .settleIdle 0 :: [] ∧
    (plan [.settleIdle 0] stOwed).instances[0]? = some stOwed.core ∧
    stOwed.core.dev = .nonblocking 0 1 true .fresh (some true) := by decide

theorem test_hyps_BlockedCoreWaitsUnchanged :
    (ioGet (stNb false [] true)).1 = .wait ∧ (stNb false [] true).CoreStep (stNb false [] true) ∧
    (stNb false [] true).core.active = true ∧
    (stNb false [] true).core.dev.settle = (stNb false [] true).core.dev ∧
    (stNb false [] true).core.pc < (stNb false [] true).params.memLimit ∧
    decode ((stNb false [] true).core.mem.read (stNb false [] true).core.pc) = .ok (.input .position) ∧
    (stNb false [] true).core.destFault {} 1 .position = none := by
  exact ⟨by decide, .unplanned rfl, by decide, by decide, by decide, by decide, by decide⟩

theorem test_hyps_IoFailureHaltsWithoutFault :
    (stChan [3, 0] [] false true).core.status = .running ∧
    (stChan [3, 0] [] false true).core.destFault {} 1 .position = none ∧
    (ioGet (stChan [3, 0] [] false true)).1 = .fail ∧
    (stChan [104, 0] [] true false).core.valueFault {} 1 .immediate = none ∧
    (ioPut (stChan [104, 0] [] true false) ((stChan [104, 0] [] true false).core.operand 1 .immediate)).1 =
      .fail := by decide

/-- A Halted core that holds its handles; a Running one; a Faulted one. -/
theorem test_hyps_ReleaseDropsBothHandles :
    (plan [.release 0] ((stChan [99] [] true true).setCore (stChan [99] [] true true).core.halt)).instances[0]? =
      some (stChan [99] [] true true).core.halt ∧
    (stChan [99] [] true true).core.halt.status = .halted ∧
    (stChan [99] [] true true).core.halt.released = false ∧
    (stChan [99] [] true true).core.halt.dev.handles = some (0, 1) ∧
    (stChan [99] [] true true).core.status ≠ .halted ∧ (stChan [99] [] true true).core.status ≠ .faulted ∧
    (plan [.faultedDropRx 0, .faultedDropTx 0]
        ((stChan [0] [] true true).raise ⟨.invalidOpcode, 0⟩)).instances[0]? =
      some ((stChan [0] [] true true).raise ⟨.invalidOpcode, 0⟩).core ∧
    ((stChan [0] [] true true).raise ⟨.invalidOpcode, 0⟩).core.status = .faulted ∧
    ((stChan [0] [] true true).raise ⟨.invalidOpcode, 0⟩).core.dev.handles = some (0, 1) := by decide

/-- The last downstream, which has no consumer, and the first, which has one. -/
theorem test_hyps_ConnectorSendsToNextDownstream :
    (plan [.connector 0] (stConn [] true (some 5) 1)).conns[0]? =
      some { up := 0, down := [1, 2], cur := some 5, k := 1, done := false } ∧
    [1, 2][1]? = some 2 ∧ 2 < (stConn [] true (some 5) 1).chans.length ∧
    ((stConn [] true (some 5) 1).chan 2).rxAlive = false ∧
    [1, 2][0]? = some 1 ∧ ((stConn [] true (some 5) 0).chan 1).rxAlive = true := by decide

theorem test_hyps_ConnectorRelaysWholeStream :
    (stConn [5, 6] true none 0).conns[0]? =
      some { up := 0, down := [1, 2], cur := none, k := 0, done := false } ∧
    [1, 2] ≠ ([] : List Nat) ∧ [1, 2].Nodup ∧ 0 ∉ [1, 2] ∧ 0 < (stConn [5, 6] true none 0).chans.length ∧
    (∀ d ∈ [1, 2], d < (stConn [5, 6] true none 0).chans.length) := by decide

/-- Upstream empty and closed, and empty and open; a channel that is none of the Connector's. -/
theorem test_hyps_ConnectorTerminatesOnClosedUpstream :
    (plan [.connector 0] (stConn [] false none 0)).conns[0]? =
      some { up := 0, down := [1, 2], cur := none, k := 0, done := false } ∧
    ((stConn [] false none 0).chan 0).q = [] ∧ ((stConn [] false none 0).chan 0).txAlive = false ∧
    ((stConn [] true none 0).chan 0).txAlive = true ∧ 3 ≠ 0 ∧ 3 ∉ [1, 2] := by decide

/-- The third word of a group for the sentinel address and for machine 0; an empty queue with a live
producer. -/
theorem test_hyps_OrchestratorRoutesGroups :
    nodesOf (stOrch [255, 4] [5] true true .repeatValue false none (.drain 0)) =
      [{ machine := 0, inCh := 0, outCh := 1, part := [255, 4] }] ∧
    ((stOrch [255, 4] [5] true true .repeatValue false none (.drain 0)).chan 1).q = 5 :: [] ∧
    1 < (stOrch [255, 4] [5] true true .repeatValue false none (.drain 0)).chans.length ∧
    (255 : Word).toInt = 255 ∧ (0 : Word) ≠ 255 ∧ (0 : Word).toInt = (0 : Nat) ∧
    ((stOrch [0, 4] [5] true true .firstSolution false none (.drain 0)).chan 0).rxAlive = true ∧
    ((stOrch [] [] true true .firstSolution false none (.drain 0)).chan 1).q = [] ∧
    ((stOrch [] [] true true .firstSolution false none (.drain 0)).chan 1).txAlive = true := by decide

/-- The end of a sweep; a cell that holds 1, one that has held only 0, one that holds 0 and held 1; all
read, the pair repeated or new; the pause; the end. -/
theorem test_hyps_OrchestratorDetectsIdleness :
    (nodesOf (stOrch [] [] true true .repeatValue true none (.drain 1))).length ≤ 1 ∧
    (stOrch [] [] true true .repeatValue true none (.check 0)).idleCell 0 = ⟨true, false⟩ ∧
    (stOrch [] [] true true .repeatValue false none (.check 0)).idleCell 0 = .fresh ∧
    (stStale.idleCell 0).held true = true ∧ (stStale.idleCell 0).held false = true ∧
    IdleCell.fresh.held true = false ∧
    ((stOrch [] [] true true .repeatValue true (some (4, 5)) (.check 1)).orch.bind Orchestrator.held) =
      some (4, 5) ∧
    ((stOrch [] [] true true .repeatValue true (some (4, 5)) (.check 1)).orch.bind Orchestrator.lastSent) =
      some (4, 5) ∧
    ((stOrch [] [] true true .repeatValue true none (.check 1)).orch.bind Orchestrator.lastSent) ≠
      some (4, 5) ∧
    ((stOrch [] [] true true .repeatValue true none (.check 1)).chan 0).rxAlive = true ∧
    (stOrch [] [] true true .repeatValue true none .pause).orch.map Orchestrator.phase = some .pause ∧
    (stOrch [] [] true true .repeatValue true none (.ended 5)).networkAnswer = some 5 := by decide

/-- A closed output; a destination past the last machine and a negative one; a machine's closed input. -/
theorem test_hyps_OrchestratorFailureEndsRun :
    ((stOrch [] [] false true .repeatValue false none (.drain 0)).chan 1).q = [] ∧
    ((stOrch [] [] false true .repeatValue false none (.drain 0)).chan 1).txAlive = false ∧
    (nodesOf (stOrch [1, 4] [5] true true .repeatValue false none (.drain 0)))[0]? =
      some { machine := 0, inCh := 0, outCh := 1, part := [1, 4] } ∧
    ((1 : Nat) : Int) ≤ (1 : Word).toInt ∧ (Word.ofZ (-1)).toInt < 0 ∧ (1 : Word) ≠ 255 ∧
    ((stOrch [] [] true false .repeatValue false none (.sendX 0 0 4 5)).chan 0).rxAlive = false ∧
    (nodesOf (stOrch [] [] true false .repeatValue false none (.deliverY 4 5)))[0]? ≠ none := by decide

/-- (LoadIsReset has no hypotheses.) A program with a zero in it, and a cell past its end. -/
theorem test_hyps_LoadIsReset :
    (State.loaded {} [1, 0, 2] .inert).core.mem = [(0, 1), (2, 2)] ∧ [(1 : Word), 0, 2].getD 3 0#64 = 0#64 := by
  decide

/-- A program; a text with a foreign character; a piece that is no number and one out of range; blanks around a
number. -/
theorem test_hyps_ProgramTextIsReadBack :
    [(1 : Word), -33] ≠ [] ∧ programText [(1 : Word), -33] = "1,-33".toList ∧
    '+' ∈ "+1".toList ∧ programChar '+' = false ∧
    "1-2".toList ∈ programPieces "5, 1-2".toList ∧ numberText "1-2".toList = false ∧
    numberText "-33".toList = true ∧ numberValue "-33".toList = -33 ∧
    Word.maxZ < numberValue "9223372036854775808".toList ∧
    '\n' ∉ "1,".toList ∧ '\r' ∉ "1,".toList ∧ ',' ∉ "12".toList ∧
    (∀ ch ∈ [' ', '\t'], ch = ' ' ∨ ch = '\t') := by
  exact ⟨by decide, by decide, by decide, by decide, by decide, by decide, by decide, by decide, by decide,
    by decide, by decide, by decide, by simp⟩

/-- The host's own channel, and the device's ends of a channel. -/
theorem test_hyps_HostUsesOnlyItsHandles :
    (plan [.host (.send 0 5)] (stChan [] [] true true)).schedule = .host (.send 0 5) :: [] ∧
    (stChan [] [] true true).hostTx 0 = true ∧ (stChan [] [] true true).hostTx 1 = false ∧
    (stChan [] [] true true).hostRx 1 = true ∧ (stChan [] [] true true).hostRx 0 = false ∧
    1 < (stChan [] [] true true).chans.length ∧
    (((stChan [] [] true true).send 1 5).2.chan 1).q = 5 :: [] := by decide

/-- A program as long as the limit, and one longer; a text that is a program and one that is none. -/
theorem test_hyps_ConstructionGivesFreshDevices :
    [(1 : Word), 2].length ≤ (stLimit 2 []).params.memLimit ∧
    (stLimit 2 []).params.memLimit < [(1 : Word), 2, 3].length ∧
    (plan [.host (.load [1, 2] .nonblocking)] (stLimit 2 [])).schedule =
      .host (.load [1, 2] .nonblocking) :: [] ∧
    (plan [.host (.loadText "1,2".toList .inert)] (stLimit 2 [])).schedule =
      .host (.loadText "1,2".toList .inert) :: [] ∧
    parseProgram "1,2".toList = some [1, 2] ∧ parseProgram "1;2".toList = none ∧
    (plan [.host .newChannel] (stLimit 2 [])).schedule = .host .newChannel :: [] := by decide

/-- The host's ends of a channel device: relay its output back to its input; then a handle that is not the
host's. -/
theorem test_hyps_ConnectMovesTheHandles :
    (plan [.host (.connect 1 [0])] (stChan [] [] true true)).schedule = .host (.connect 1 [0]) :: [] ∧
    (stChan [] [] true true).hostRx 1 = true ∧ [0] ≠ ([] : List Nat) ∧ [0].Nodup ∧
    (∀ d ∈ [0], (stChan [] [] true true).hostTx d = true) ∧
    (stChan [] [] true true).hostRx 0 = false ∧ (stChan [] [] true true).hostTx 1 = false := by decide

/-- A network of two machines; a sentinel address that is the last machine's, one just past it and a negative one;
no machine; a program longer than the limit. -/
theorem test_hyps_BootSendsEachAddress :
    (plan [.host (.bootNetwork [99] 2 255 1000 .repeatValue)] (st [])).schedule =
      .host (.bootNetwork [99] 2 255 1000 .repeatValue) :: [] ∧
    (st []).orch = none ∧ [(99 : Word)].length ≤ (st []).params.memLimit ∧
    (stLimit 2 []).params.memLimit < [(1 : Word), 2, 3].length ∧
    ((2 : Nat) : Int) ≤ (2 : Word).toInt ∧ (Word.ofZ (-1)).toInt < 0 ∧
    (0 ≤ (1 : Word).toInt ∧ (1 : Word).toInt < (2 : Nat)) ∧
    (stOrch [] [] true true .repeatValue true none .pause).orch ≠ none := by decide

/-- One machine of the host's, with a live and with a dropped input; one whose handles the host has handed over,
and one on another device. -/
theorem test_hyps_HandOverMakesTheNetwork :
    (plan [.host (.handOver [0] 255 1000 .repeatValue)] (stNb false [5] true)).schedule =
      .host (.handOver [0] 255 1000 .repeatValue) :: [] ∧
    (stNb false [5] true).orch = none ∧ ((1 : Nat) : Int) ≤ (255 : Word).toInt ∧
    (stNb false [5] true).hostTx 0 = true ∧ (stNb false [5] true).hostRx 1 = true ∧
    (stNb false [5] true).instances[0]? = some (stNb false [5] true).core ∧
    (stNb false [5] true).core.dev = .nonblocking 0 1 false .fresh none ∧
    ((stNb false [5] true).chan 0).rxAlive = true ∧
    (((stNb false [5] true).modChan 0 Channel.dropRx).chan 0).rxAlive = false ∧
    ((stNb false [5] true).modChan 0 Channel.dropRx).hostTx 0 = true ∧
    (stOrch [] [] true true .repeatValue false none .pause).hostTx 0 = false ∧
    (stChan [99] [] true true).core.dev = .blocking 0 1 := by decide

/-- `Run` of an instance that exists and of one that does not; not yet run, Running, Halted and Faulted; an address
below and at the length; the Latest-value device. -/
theorem test_hyps_RunReturnsAndInspectReads :
    (plan [.host (.run 0)] State.reset).schedule = .host (.run 0) :: [] ∧
    State.reset.instances[0]? = some State.reset.core ∧ State.reset.instances.length ≤ 1 ∧
    State.reset.core.started = false ∧
    (st [99]).core.status = .running ∧ (st [99]).core.halt.status = .halted ∧
    (st [99]).core.halt.started = true ∧
    ((st [99]).raise ⟨.memoryLimit, 0⟩).core.fcause = some .memoryLimit ∧
    ((st [99]).raise ⟨.memoryLimit, 0⟩).core.status ≠ .running ∧
    0 < (st [99]).core.mlen ∧ (st [99]).core.mlen ≤ 1 ∧ (st [99] (.latest 7)).core.dev = .latest 7 ∧
    1 < ({ State.reset with after := [CoreState.load [99] .inert] }).instances.length ∧
    ¬ (1 < State.reset.instances.length) := by
  decide

/-- A program as long as the limit. -/
theorem test_hyps_ResetMeetsInvariant :
    (stLimit 2 []).params.legal ∧ [(1 : Word), 2].length ≤ (stLimit 2 []).params.memLimit := by
  simp [Params.legal, stLimit, ran, State.loaded]

/-- A loaded program meets the invariant, and its step answers a next state. -/
theorem test_hyps_StepKeepsInvariant :
    (st [99]).Inv ∧ (after (step (st [99]))).map CoreState.status = some .halted := by
  refine ⟨⟨by simp [Params.legal, st, ran, State.loaded], fun c hc => ?_⟩, by decide⟩
  obtain rfl : c = (st [99]).core := by
    simpa [State.instances, st, ran, State.loaded, State.reset] using hc
  refine ⟨by decide, fun a ha => ?_, by decide, by decide, by decide, by decide, by decide, by decide⟩
  have h : (0 : Nat) ≠ a := by
    have : (st [99]).core.mlen = 1 := rfl
    omega
  rw [show (st [99]).core.mem = [(0, 99)] by decide]
  simp [Memory.read, Ne.symm h]

theorem test_hyps_ParametersAndBindingsNeverChange :
    ∃ t, step (stTwo) = .next t ∧ stTwo.instances[1]? = some (CoreState.load [99] .inert).start := by
  exact ⟨_, rfl, rfl⟩

/-- A planned turn with a faulted core beside it. -/
theorem test_hyps_FaultIsSticky :
    ∃ t, step (plan [.settleIdle 0] ((stNb true [] true).raise ⟨.memoryLimit, 0⟩)) = .next t ∧
      (plan [.settleIdle 0] ((stNb true [] true).raise ⟨.memoryLimit, 0⟩)).instances[0]? =
        some ((stNb true [] true).raise ⟨.memoryLimit, 0⟩).core ∧
      ((stNb true [] true).raise ⟨.memoryLimit, 0⟩).core.fcause ≠ none := by
  exact ⟨_, rfl, rfl, by decide⟩

/-- The core in focus steps, with a second instance beside it; and a planned turn of the first. -/
theorem test_hyps_OtherAgentsLeaveCoreAlone :
    (∃ t, step stTwo = .next t ∧ stTwo.instances[1]? = some (CoreState.load [99] .inert).start) ∧
    (∃ t, step (plan [.core 0] stTwo) = .next t) ∧ stTwo.schedule = [] ∧ 1 ≠ stTwo.before.length ∧
    (plan [.core 0] stTwo).schedule ≠ .core 1 :: [] := by
  exact ⟨⟨_, rfl, rfl⟩, ⟨_, rfl⟩, by decide, by decide, by decide⟩

theorem test_hyps_LengthGrowsAndHaltedStays :
    ∃ t, step (plan [.release 0] ((stChan [99] [] true true).setCore (stChan [99] [] true true).core.halt)) =
        .next t ∧
      (plan [.release 0]
          ((stChan [99] [] true true).setCore (stChan [99] [] true true).core.halt)).instances[0]? =
        some (stChan [99] [] true true).core.halt ∧
      (stChan [99] [] true true).core.halt.halted = true ∧
      stStale.instances[0]? = some stStale.core ∧ stStale.core.dev.idleCell.held true = true := by
  exact ⟨_, rfl, rfl, by decide, rfl, by decide⟩

/-- Two states that differ in what the host has received. -/
theorem test_hyps_CoreDependsOnlyOnItselfAndPort :
    ({ st [3, 0] with received := [(0, 5)] } : State) ≠ st [3, 0] ∧
    ({ st [3, 0] with received := [(0, 5)] } : State).core = (st [3, 0]).core ∧
    (ioGet { st [3, 0] with received := [(0, 5)] }).1 = (ioGet (st [3, 0])).1 ∧
    (∀ v, (ioPut { st [3, 0] with received := [(0, 5)] } v).1 = (ioPut (st [3, 0]) v).1) ∧
    ∃ t, exec (.input .position) (st [3, 0]) = .next t := by
  exact ⟨by decide, by decide, by decide, fun _ => rfl, _, rfl⟩

end Sys2Proof.Tests
end

section
/-!
The results of arithmetic (R12): `wrap64` is the one congruent integer of the word range, and `alu` in its
three cases.
-/
namespace Sys2Proof.Machine

/-! ### `wrap64` -/

theorem wrap64_emod (z : Int) : wrap64 z % 2 ^ 64 = z % 2 ^ 64 := by
  simp only [wrap64]
  omega

/-- Two integers of the word range differ by less than `2^64`, so congruent ones are equal. -/
theorem eq_of_emod_eq_of_bounds {x y : Int} (hx : Word.minZ ≤ x ∧ x ≤ Word.maxZ)
    (hy : Word.minZ ≤ y ∧ y ≤ Word.maxZ) (h : x % 2 ^ 64 = y % 2 ^ 64) : x = y := by
  simp only [Word.minZ, Word.maxZ] at hx hy
  omega

theorem eq_wrap64_of_emod_eq {y z : Int} (hy : Word.minZ ≤ y ∧ y ≤ Word.maxZ)
    (h : y % 2 ^ 64 = z % 2 ^ 64) : y = wrap64 z :=
  eq_of_emod_eq_of_bounds hy (wrap64_bounds z) (h.trans (wrap64_emod z).symm)

/-! ### `aluWord` and `alu` -/

theorem aluWord_toInt_of_fits {z : Int} (h : Word.minZ ≤ z ∧ z ≤ Word.maxZ) : (aluWord z).toInt = z := by
  rw [aluWord, if_pos h, Word.toInt_ofZ h]

theorem aluWord_toInt_of_not_fits {z : Int} (h : ¬ (Word.minZ ≤ z ∧ z ≤ Word.maxZ)) :
    (aluWord z).toInt = wrap64 z := by
  rw [aluWord, if_neg h, Word.toInt_ofZ_wrap64]

theorem overflowFault_of_fits (p : Params) {z : Int} (h : Word.minZ ≤ z ∧ z ≤ Word.maxZ) :
    overflowFault p z = none :=
  if_pos h

theorem overflowFault_of_wrap {p : Params} (hp : p.ovf = .wrap) (z : Int) : overflowFault p z = none := by
  simp [overflowFault, hp]

theorem overflowFault_of_fault {p : Params} (hp : p.ovf = .fault) {z : Int}
    (h : ¬ (Word.minZ ≤ z ∧ z ≤ Word.maxZ)) : overflowFault p z = some ⟨.arithmeticOverflow, 0⟩ := by
  simp [overflowFault, h, hp]

theorem alu_of_no_overflowFault {p : Params} {z : Int} (h : overflowFault p z = none) :
    alu p z = .ok (aluWord z) := by
  rw [alu_eq, h]

theorem alu_of_overflowFault {p : Params} {z : Int} {e : Raise} (h : overflowFault p z = some e) :
    alu p z = .error e := by
  rw [alu_eq, h]

/-- Settles O10: `wrap64` by its bounds and congruence, which fix it; `alu` by the fault of the exact
result. -/
theorem aluResultAndWrap : Obligations.AluResultAndWrap := by
  refine ⟨fun z => ?wrap, fun p z => ⟨fun hmin hmax => ?inRange, fun hz hp => ?wraps, fun hz hp => ?faults⟩⟩
  case wrap =>
    obtain ⟨hmin, hmax⟩ := wrap64_bounds z
    exact ⟨hmin, hmax, wrap64_emod z, fun y ymin ymax hy => eq_wrap64_of_emod_eq ⟨ymin, ymax⟩ hy⟩
  case inRange =>
    exact ⟨alu_of_no_overflowFault (overflowFault_of_fits p ⟨hmin, hmax⟩),
      aluWord_toInt_of_fits ⟨hmin, hmax⟩⟩
  case wraps =>
    exact ⟨alu_of_no_overflowFault (overflowFault_of_wrap hp z), aluWord_toInt_of_not_fits hz⟩
  case faults => exact alu_of_overflowFault (overflowFault_of_fault hp hz)

end Sys2Proof.Machine
end

section
/-!
The state of an instance right after `Load` (R34).
-/
namespace Sys2Proof.Machine

theorem State.loaded_core (p : Params) (program : List Word) (d : Device) :
    (State.loaded p program d).core = CoreState.load program d := rfl

/-- The words of the program stand from address 0 on, with 0 past its end. -/
theorem CoreState.load_mem_read (program : List Word) (d : Device) (a : Nat) :
    (CoreState.load program d).mem.read a = program.getD a 0#64 := by
  have hmem : (CoreState.load program d).mem = Memory.ofWords 0 program := rfl
  rw [hmem, Memory.read_ofWords, if_pos (Nat.zero_le a), Nat.sub_zero]

/-- Settles O46: the memory by `CoreState.load_mem_read`, the length, the registers and the device by the
definition of a fresh core. -/
theorem loadIsReset : Obligations.LoadIsReset := by
  intro p program d
  rw [State.loaded_core]
  exact ⟨CoreState.load_mem_read program d, rfl, rfl, rfl, rfl, rfl, rfl, rfl, rfl⟩

end Sys2Proof.Machine
end

section
/-!
The read of a cell (R42): the limit, the growth of the store and the answer.
-/
namespace Sys2Proof.Machine

theorem memRead_of_limit_le {p : Params} {a : Nat} (h : p.memLimit ≤ a) (i : Fin 4) (c : CoreState) :
    memRead p i a c = .error ⟨.memoryLimit, i⟩ :=
  if_pos h

theorem memRead_of_lt_limit {p : Params} {a : Nat} (h : a < p.memLimit) (i : Fin 4) (c : CoreState) :
    memRead p i a c = .ok (c.mem.read a, c.grow a) :=
  if_neg (Nat.not_le.mpr h)

/-- The growth in the words of R42: to `a + 1` if `a` is at or past the length. -/
theorem CoreState.grow_eq_ite (c : CoreState) (a : Nat) :
    c.grow a = { c with mlen := if c.mlen ≤ a then a + 1 else c.mlen } :=
  c.grow_eq_reading a

theorem CoreState.grow_mlen_of_le {c : CoreState} {a : Nat} (h : c.mlen ≤ a) :
    (c.grow a).mlen = a + 1 := by
  rw [CoreState.grow_mlen, max_eq_right (Nat.le_succ_of_le h)]

/-- Settles O8: the two branches of the limit, and for the last clause that growth leaves the cells as they
were. -/
theorem readGrowsOnlyTheLength : Obligations.ReadGrowsOnlyTheLength := by
  refine fun p i a c => ⟨fun hlim => memRead_of_limit_le hlim i c, fun ha => ?answer,
    fun ha hpast hzero => ?zeros⟩
  case answer => rw [memRead_of_lt_limit ha, CoreState.grow_eq_ite]
  case zeros =>
    refine ⟨c.grow a, ?_, CoreState.grow_mlen_of_le hpast, fun b hb _ => ?_⟩
    · rw [memRead_of_lt_limit ha, hzero a hpast]
    · rw [CoreState.grow_mem, hzero b hb]

end Sys2Proof.Machine
end

section
/-!
Decoding one word: a word that is not negative by its fields (R61 to R65), and the word the encoder writes
(R74).
-/
namespace Sys2Proof

/-! ### Mode digits -/

theorem modeOfDigit_of_two_lt {d : Nat} (h : 2 < d) : modeOfDigit d = none := by
  rw [← Option.not_isSome_iff_eq_none, modeOfDigit_isSome, decide_eq_true_eq]
  exact Nat.not_le.mpr h

theorem exists_modeOfDigit_of_le_two {d : Nat} (h : d ≤ 2) : ∃ m, modeOfDigit d = some m := by
  rw [← Option.isSome_iff_exists, modeOfDigit_isSome]
  exact decide_eq_true h

/-! ### The decoder, a case per answer -/

theorem decode_of_neg {w : Word} (h : w.toInt < 0) : decode w = .error .invalidOpcode :=
  if_pos h

theorem decode_of_nonneg {w : Word} (h : 0 ≤ w.toInt) : decode w = decodeNat w.toNat :=
  if_neg (Int.not_lt.mpr h)

theorem decodeNat_of_not_validOpcode {n : Nat} (h : ¬ validOpcode (opcodeField n)) :
    decodeNat n = .error .invalidOpcode :=
  if_neg h

section
variable {n : Nat} (hop : validOpcode (opcodeField n))
include hop

theorem decodeNat_of_first_mode_none (h1 : modeOfDigit (digit n 2) = none) :
    decodeNat n = .error (.invalidMode 1) := by
  rw [decodeNat, if_pos hop, h1]

theorem decodeNat_of_second_mode_none {m1 : Mode} (h1 : modeOfDigit (digit n 2) = some m1)
    (h2 : modeOfDigit (digit n 3) = none) : decodeNat n = .error (.invalidMode 2) := by
  rw [decodeNat, if_pos hop, h1, h2]

theorem decodeNat_of_third_mode_none {m1 m2 : Mode} (h1 : modeOfDigit (digit n 2) = some m1)
    (h2 : modeOfDigit (digit n 3) = some m2) (h3 : modeOfDigit (digit n 4) = none) :
    decodeNat n = .error (.invalidMode 3) := by
  rw [decodeNat, if_pos hop, h1, h2, h3]

theorem decodeNat_of_modes {m1 m2 m3 : Mode} (h1 : modeOfDigit (digit n 2) = some m1)
    (h2 : modeOfDigit (digit n 3) = some m2) (h3 : modeOfDigit (digit n 4) = some m3) :
    ∃ i, decodeNat n = .ok i ∧ i.opcode = opcodeField n := by
  obtain ⟨i, hi⟩ : ∃ i, instrOfOpcode (opcodeField n) m1 m2 m3 = some i := by
    rw [← Option.isSome_iff_exists, instrOfOpcode_isSome, hop]
  refine ⟨i, ?_, instrOfOpcode_opcode hi⟩
  simp only [decodeNat, if_pos hop, h1, h2, h3, hi]

end

/-! ### Digits 5 and up (R65) -/

/-- A digit below `d` is read off the `d` lowest digits. -/
theorem digit_mod_pow {k d : Nat} (h : k < d) (n : Nat) : digit (n % 10 ^ d) k = digit n k := by
  have hdvd : 10 ^ k * 10 ∣ 10 ^ d := by
    rw [← Nat.pow_succ]
    exact Nat.pow_dvd_pow 10 h
  rw [digit, digit, ← Nat.mod_mul_right_div_self, ← Nat.mod_mul_right_div_self, Nat.mod_mod_of_dvd n hdvd]

theorem opcodeField_mod_pow {d : Nat} (h : 2 ≤ d) (n : Nat) :
    opcodeField (n % 10 ^ d) = opcodeField n :=
  Nat.mod_mod_of_dvd n (Nat.pow_dvd_pow 10 h)

theorem decodeNat_mod (n : Nat) : decodeNat (n % 100000) = decodeNat n := by
  have hop : opcodeField (n % 100000) = opcodeField n := opcodeField_mod_pow (d := 5) (by decide) n
  have hdigit : ∀ k < 5, digit (n % 100000) k = digit n k := fun k hk => digit_mod_pow hk n
  rw [decodeNat, hop, hdigit 2 (by decide), hdigit 3 (by decide), hdigit 4 (by decide), decodeNat]

theorem decode_eq_of_mod_eq {w w' : Word} (hw : 0 ≤ w.toInt) (hw' : 0 ≤ w'.toInt)
    (h : w.toNat % 100000 = w'.toNat % 100000) : decode w = decode w' := by
  rw [decode_of_nonneg hw, decode_of_nonneg hw', ← decodeNat_mod w.toNat, h, decodeNat_mod]

/-! ### Encoded words (R74) -/

theorem decode_encode (i : Instr) : decode (encode i) = .ok i := by
  cases i with
  | add m1 m2 m3 => exact Laws.RoundTrip.add m1 m2 m3
  | multiply m1 m2 m3 => exact Laws.RoundTrip.multiply m1 m2 m3
  | input m1 => exact Laws.RoundTrip.input m1
  | output m1 => exact Laws.RoundTrip.output m1
  | jumpTrue m1 m2 => exact Laws.RoundTrip.jumpTrue m1 m2
  | jumpFalse m1 m2 => exact Laws.RoundTrip.jumpFalse m1 m2
  | lessThan m1 m2 m3 => exact Laws.RoundTrip.lessThan m1 m2 m3
  | equal m1 m2 m3 => exact Laws.RoundTrip.equal m1 m2 m3
  | changeRelative m1 => exact Laws.RoundTrip.changeRelative m1
  | halt => exact Laws.RoundTrip.halt

theorem decode_of_encode_eq {w : Word} {i : Instr} (h : encode i = w) : decode w = .ok i :=
  h ▸ decode_encode i

/-- A word that decodes takes the parameter words it needs from the list and leaves the rest. -/
theorem decodeWords_cons_append {w : Word} {i : Instr} (hw : decode w = .ok i) {ps : List Word}
    (hps : ps.length = i.params.length) (rest : List Word) :
    decodeWords (w :: (ps ++ rest)) = .ok (i, ps, rest) := by
  have hlen : i.params.length ≤ (ps ++ rest).length := by simp [hps]
  simp only [decodeWords, hw, if_pos hlen]
  rw [List.take_left' hps, List.drop_left' hps]

theorem decodeWords_encodeWords_append (i : Instr) {ps : List Word} (hps : ps.length = i.params.length)
    (rest : List Word) : decodeWords (encodeWords i ps ++ rest) = .ok (i, ps, rest) :=
  decodeWords_cons_append (decode_encode i) hps rest

/-- Settles O1: the round trip of the instruction word, made per instruction, then of the parameter words; the
word's formula by `encode_toInt`. -/
theorem decodeOfEncodedWordsGivesInstruction : Obligations.DecodeOfEncodedWordsGivesInstruction :=
  ⟨fun i _ rest hps => decodeWords_encodeWords_append i hps rest, fun _ _ => rfl, encode_toInt,
    by decide, by decide, by decide⟩

/-- Settles O4: the decoder reads five digits, which words that agree modulo 100000 share. -/
theorem decodeIgnoresHigherDigits : Obligations.DecodeIgnoresHigherDigits :=
  ⟨fun _ _ => decode_eq_of_mod_eq, decode_eq_of_mod_eq (by decide) (by decide) (by decide),
    decode_eq_of_mod_eq (by decide) (by decide) (by decide)⟩

end Sys2Proof
end

section
/-!
The fault a rejected word raises (R62 to R64), and the fault of an Immediate destination (R68).
-/
namespace Sys2Proof.Machine

theorem decodeOrRaise_of_ok {w : Word} {i : Instr} (h : decode w = .ok i) : decodeOrRaise w = .ok i := by
  rw [decodeOrRaise, h]

theorem decodeOrRaise_of_error {w : Word} {e : DecodeError} (h : decode w = .error e) :
    decodeOrRaise w = .error (decodeRaise e) := by
  rw [decodeOrRaise, h]

theorem decodeOrRaise_of_decodeNat_error {w : Word} (hw : 0 ≤ w.toInt) {e : DecodeError}
    (h : decodeNat w.toNat = .error e) : decodeOrRaise w = .error (decodeRaise e) :=
  decodeOrRaise_of_error ((decode_of_nonneg hw).trans h)

theorem dst_immediate {p : Params} {i : Fin 4} {c : CoreState} (h : c.pc + i.val < p.memLimit) :
    dst p i .immediate c = .error ⟨.immediateDestination, i⟩ := by
  rw [dst_eq, CoreState.destFault, if_neg (Nat.not_le.mpr h)]

/-- Settles O3: the decoder's answer for each sign, opcode and first mode digit that is no mode, as the fault it
raises. -/
theorem decodeRejectsByName : Obligations.DecodeRejectsByName := by
  intro w
  refine ⟨fun hneg => decodeOrRaise_of_error (decode_of_neg hneg), fun hw hop => ?opcode,
    fun hw hop => ?modes⟩
  case opcode =>
    have hinvalid := (validOpcode_iff (opcodeField w.toNat)).not.mpr hop
    exact decodeOrRaise_of_decodeNat_error hw (decodeNat_of_not_validOpcode hinvalid)
  case modes =>
    have hvalid := (validOpcode_iff (opcodeField w.toNat)).mpr hop
    refine ⟨fun hd1 => ?first, fun hd1 hd2 => ?second, fun hd1 hd2 hd3 => ?third,
      fun hd1 hd2 hd3 => ?decodes⟩
    case first =>
      exact decodeOrRaise_of_decodeNat_error hw
        (decodeNat_of_first_mode_none hvalid (modeOfDigit_of_two_lt hd1))
    case second =>
      obtain ⟨m1, h1⟩ := exists_modeOfDigit_of_le_two hd1
      exact decodeOrRaise_of_decodeNat_error hw
        (decodeNat_of_second_mode_none hvalid h1 (modeOfDigit_of_two_lt hd2))
    case third =>
      obtain ⟨m1, h1⟩ := exists_modeOfDigit_of_le_two hd1
      obtain ⟨m2, h2⟩ := exists_modeOfDigit_of_le_two hd2
      exact decodeOrRaise_of_decodeNat_error hw
        (decodeNat_of_third_mode_none hvalid h1 h2 (modeOfDigit_of_two_lt hd3))
    case decodes =>
      obtain ⟨m1, h1⟩ := exists_modeOfDigit_of_le_two hd1
      obtain ⟨m2, h2⟩ := exists_modeOfDigit_of_le_two hd2
      obtain ⟨m3, h3⟩ := exists_modeOfDigit_of_le_two hd3
      obtain ⟨i, hi, hopcode⟩ := decodeNat_of_modes hvalid h1 h2 h3
      exact ⟨i, decodeOrRaise_of_ok ((decode_of_nonneg hw).trans hi), hopcode⟩

/-- Settles O6: a row that decodes holds the word the encoder writes, 100001 the word 1 with a digit past the
fifth; the others are rejected. -/
theorem decodeOfSpecExamples : Obligations.DecodeOfSpecExamples :=
  ⟨decode_of_encode_eq rfl, decode_of_encode_eq rfl, decode_of_encode_eq rfl, decode_of_encode_eq rfl,
    decode_of_encode_eq rfl, decode_of_encode_eq rfl, decode_of_encode_eq rfl, decode_of_encode_eq rfl,
    decode_of_encode_eq rfl, decode_of_encode_eq rfl, by decide, by decide, by decide, by decide,
    decode_of_encode_eq rfl, fun _ _ => dst_immediate (i := 3),
    (decode_eq_of_mod_eq (w' := 1) (by decide) (by decide) (by decide)).trans (decode_of_encode_eq rfl),
    decode_of_neg (by decide)⟩

end Sys2Proof.Machine
end

section
/-!
Add and Multiply (R80, R81): the instructions of format F3 whose result is `alu` of an exact integer.
-/
namespace Sys2Proof.Machine

/-! ### The first fault of a list -/

/-- A fault at the end of the list counts only if nothing before it does. -/
theorem firstFault_concat (l : List (Option Raise)) (o : Option Raise) :
    firstFault (l ++ [o]) = (firstFault l).or o := by
  induction l with
  | nil => cases o <;> rfl
  | cons x l ih =>
    cases x with
    | some e => rfl
    | none => exact ih

/-! ### Format F3 on a state, case by case -/

section
variable {s : State} {f : Word → Word → Except Raise Word} {m1 m2 m3 : Mode}

theorem complete_storeResult_of_paramFault {e : Raise}
    (h : firstFault [s.core.valueFault s.params 1 m1, s.core.valueFault s.params 2 m2,
      s.core.destFault s.params 3 m3] = some e) :
    complete s (storeResult s.params f m1 m2 m3 s.core.fetched) = .next (s.raise e) := by
  rw [complete_storeResult, h]

theorem complete_storeResult_of_result_error {e : Raise}
    (h : firstFault [s.core.valueFault s.params 1 m1, s.core.valueFault s.params 2 m2,
      s.core.destFault s.params 3 m3] = none)
    (hf : f (s.core.operand 1 m1) (s.core.operand 2 m2) = .error e) :
    complete s (storeResult s.params f m1 m2 m3 s.core.fetched) = .next (s.raise e) := by
  rw [complete_storeResult, h, hf]

theorem complete_storeResult_of_result_ok {r : Word}
    (h : firstFault [s.core.valueFault s.params 1 m1, s.core.valueFault s.params 2 m2,
      s.core.destFault s.params 3 m3] = none)
    (hf : f (s.core.operand 1 m1) (s.core.operand 2 m2) = .ok r) :
    complete s (storeResult s.params f m1 m2 m3 s.core.fetched) =
      .next (s.setCore
        { s.core with
          mem := s.core.mem.write (s.core.destAddr 3 m3) r
          mlen := s.core.lengthAfter (instrReads s.core (.add m1 m2 m3) ++ [s.core.destAddr 3 m3])
          pc := s.core.pc + 4 }) := by
  rw [complete_storeResult, h, hf]

/-! ### A result that is `alu` of an exact integer -/

theorem complete_storeResult_alu_of_fault {z : Int} {e : Raise}
    (hf : f (s.core.operand 1 m1) (s.core.operand 2 m2) = alu s.params z)
    (h : firstFault [s.core.valueFault s.params 1 m1, s.core.valueFault s.params 2 m2,
      s.core.destFault s.params 3 m3, overflowFault s.params z] = some e) :
    complete s (storeResult s.params f m1 m2 m3 s.core.fetched) = .next (s.raise e) := by
  rcases Option.or_eq_some_iff.mp ((firstFault_concat [_, _, _] _).symm.trans h) with
    hparam | ⟨hparam, hover⟩
  · exact complete_storeResult_of_paramFault hparam
  · exact complete_storeResult_of_result_error hparam (hf.trans (alu_of_overflowFault hover))

theorem complete_storeResult_alu_of_no_fault {z : Int}
    (hf : f (s.core.operand 1 m1) (s.core.operand 2 m2) = alu s.params z)
    (h : firstFault [s.core.valueFault s.params 1 m1, s.core.valueFault s.params 2 m2,
      s.core.destFault s.params 3 m3, overflowFault s.params z] = none) :
    complete s (storeResult s.params f m1 m2 m3 s.core.fetched) =
      .next (s.setCore
        { s.core with
          mem := s.core.mem.write (s.core.destAddr 3 m3) (aluWord z)
          mlen := s.core.lengthAfter (instrReads s.core (.add m1 m2 m3) ++ [s.core.destAddr 3 m3])
          pc := s.core.pc + 4 }) := by
  obtain ⟨hparam, hover⟩ := Option.or_eq_none_iff.mp ((firstFault_concat [_, _, _] _).symm.trans h)
  exact complete_storeResult_of_result_ok hparam (hf.trans (alu_of_no_overflowFault hover))

end

/-! ### The two instructions -/

theorem exec_add (m1 m2 m3 : Mode) (s : State) :
    exec (.add m1 m2 m3) s =
      complete s (storeResult s.params (sumOf s.params) m1 m2 m3 s.core.fetched) := rfl

theorem exec_multiply (m1 m2 m3 : Mode) (s : State) :
    exec (.multiply m1 m2 m3) s =
      complete s (storeResult s.params (productOf s.params) m1 m2 m3 s.core.fetched) := rfl

/-- Multiply reads what an Add with the same modes reads (R47). -/
theorem instrReads_multiply (c : CoreState) (m1 m2 m3 : Mode) :
    instrReads c (.multiply m1 m2 m3) = instrReads c (.add m1 m2 m3) := rfl

/-- Settles O11: Add is format F3 with `alu` of the exact sum as its result. -/
theorem addResult : Obligations.AddResult := by
  intro m1 m2 m3 s
  rw [exec_add]
  exact ⟨fun _ => complete_storeResult_alu_of_fault rfl, complete_storeResult_alu_of_no_fault rfl⟩

/-- Settles O12: Multiply is format F3 with `alu` of the exact product as its result. -/
theorem multiplyResult : Obligations.MultiplyResult := by
  intro m1 m2 m3 s
  rw [exec_multiply, instrReads_multiply]
  exact ⟨fun _ => complete_storeResult_alu_of_fault rfl, complete_storeResult_alu_of_no_fault rfl⟩

end Sys2Proof.Machine
end

section
/-!
Output (R86): the fault of its parameter before the port transaction, and the next state for each answer of the
port.
-/
namespace Sys2Proof.Machine

/-- Two states that agree outside the core and the channels: one is the other with its own channels and core
put in. -/
theorem State.SameOutsidePort.setCore_eq {s t : State} (h : s.SameOutsidePort t) (c : CoreState) :
    t.setCore c = { s with chans := t.chans, core := c } := by
  obtain ⟨hparams, hbefore, hafter, hconns, horch, hreceived, hschedule⟩ := h
  rw [← hparams, ← hbefore, ← hafter, ← hconns, ← horch, ← hreceived, ← hschedule]
  rfl

/-! ### The parameter -/

theorem val_fetched_of_fault {p : Params} {c : CoreState} {i : Fin 4} {m : Mode} {e : Raise}
    (h : c.valueFault p i m = some e) : val p i m c.fetched = .error e := by
  rw [CoreState.fetched_eq, val_eq, CoreState.reading_valueFault, h]

theorem val_fetched_of_no_fault {p : Params} {c : CoreState} {i : Fin 4} {m : Mode}
    (h : c.valueFault p i m = none) :
    val p i m c.fetched = .ok (c.operand i m, c.reading (c.pc :: c.valueReads i m)) := by
  rw [CoreState.fetched_eq, val_eq, CoreState.reading_valueFault, h, CoreState.reading_operand,
    CoreState.reading_valueReads, CoreState.reading_reading, List.singleton_append]

/-! ### The port transaction -/

/-- The transaction of an instruction comes after its reads, which keep the device: it answers what it would
answer before them, and leaves the longer store. -/
theorem ioPut_reading {s t : State} {v : Word} {r : Reply Unit} (h : ioPut s v = (r, t)) (l : List Nat) :
    ioPut (s.setCore (s.core.reading l)) v = (r, t.setCore ((s.core.reading l).setDev t.core.dev)) := by
  rw [ioPut_setCore s _ v (s.core.reading_dev l), h]

theorem sameOutsidePort_of_ioPut {s t : State} {v : Word} {r : Reply Unit} (h : ioPut s v = (r, t)) :
    s.SameOutsidePort t := by
  have hstep := (ioPut_step s v).1.outside
  rwa [h] at hstep

/-! ### The instruction -/

theorem exec_output (m1 : Mode) (s : State) : exec (.output m1) s = execOutput m1 s := rfl

section
variable {s t : State} {m1 : Mode}

theorem exec_output_of_fault {e : Raise} (h : s.core.valueFault s.params 1 m1 = some e) :
    exec (.output m1) s = .next (s.raise e) := by
  rw [exec_output, execOutput, val_fetched_of_fault h]

theorem exec_output_of_put_ok (h : s.core.valueFault s.params 1 m1 = none)
    (hput : ioPut s (s.core.operand 1 m1) = (.ok (), t)) :
    exec (.output m1) s =
      .next (t.setCore
        (((s.core.reading (instrReads s.core (.output m1))).setDev t.core.dev).advance 2)) := by
  simp only [exec_output, execOutput, val_fetched_of_no_fault h, ioPut_reading hput, State.setCore_core,
    State.setCore_setCore, instrReads]

theorem exec_output_of_put_fail (h : s.core.valueFault s.params 1 m1 = none)
    (hput : ioPut s (s.core.operand 1 m1) = (.fail, t)) :
    exec (.output m1) s =
      .next (t.setCore
        ((s.core.reading (instrReads s.core (.output m1))).setDev t.core.dev).halt) := by
  simp only [exec_output, execOutput, val_fetched_of_no_fault h, ioPut_reading hput, State.setCore_core,
    State.setCore_setCore, instrReads]

end

/-- Settles O20: one lemma per outcome of the instruction; what the transaction leaves outside the core is the
old state with the new channels. -/
theorem outputResult : Obligations.OutputResult := by
  refine fun m1 s => ⟨fun _ => exec_output_of_fault, fun h => ⟨fun t hput => ?ok, fun t hput => ?fail⟩⟩
  case ok =>
    rw [exec_output_of_put_ok h hput, (sameOutsidePort_of_ioPut hput).setCore_eq]
    rfl
  case fail =>
    rw [exec_output_of_put_fail h hput, (sameOutsidePort_of_ioPut hput).setCore_eq]
    rfl

end Sys2Proof.Machine
end

section
/-!
JumpTrue and JumpFalse (R90, R91): one shape, `jumpWhen`, with opposite zero tests of the first operand.
-/
namespace Sys2Proof.Machine

/-! ### The zero test and the fault of the target -/

theorem isZero_of_toInt_eq_zero {a : Word} (h : a.toInt = 0) : isZero a = true :=
  decide_eq_true (BitVec.toInt_inj.mp (h.trans BitVec.toInt_zero.symm))

theorem isZero_of_toInt_ne_zero {a : Word} (h : a.toInt ≠ 0) : isZero a = false :=
  decide_eq_false fun ha => h (ha ▸ BitVec.toInt_zero)

theorem targetFault_of_neg {t : Word} (h : t.toInt < 0) :
    targetFault true t = some ⟨.negativeAddress, 2⟩ :=
  if_pos ⟨rfl, h⟩

theorem targetFault_of_nonneg {t : Word} (h : 0 ≤ t.toInt) (taken : Bool) : targetFault taken t = none :=
  if_neg fun ⟨_, hneg⟩ => not_lt.mpr h hneg

/-- A target that is not taken is not checked. -/
theorem targetFault_of_not_taken (t : Word) : targetFault false t = none :=
  if_neg fun ⟨htaken, _⟩ => Bool.false_ne_true htaken

/-! ### A jump on a state, case by case -/

/-- The faults of a jump in order: the parameters', then the target's. -/
theorem firstFault_jump (s : State) (taken : Word → Bool) (m1 m2 : Mode) :
    firstFault [s.core.valueFault s.params 1 m1, s.core.valueFault s.params 2 m2,
        targetFault (taken (s.core.operand 1 m1)) (s.core.operand 2 m2)] =
      (firstFault [s.core.valueFault s.params 1 m1, s.core.valueFault s.params 2 m2]).or
        (targetFault (taken (s.core.operand 1 m1)) (s.core.operand 2 m2)) :=
  firstFault_concat [_, _] _

section
variable {s : State} {taken : Word → Bool} {m1 m2 : Mode}

theorem complete_jumpWhen_of_paramFault {e : Raise}
    (h : firstFault [s.core.valueFault s.params 1 m1, s.core.valueFault s.params 2 m2] = some e) :
    complete s (jumpWhen s.params taken m1 m2 s.core.fetched) = .next (s.raise e) := by
  rw [complete_jumpWhen, firstFault_jump, h, Option.some_or]

theorem complete_jumpWhen_of_negative_target
    (h : firstFault [s.core.valueFault s.params 1 m1, s.core.valueFault s.params 2 m2] = none)
    (htaken : taken (s.core.operand 1 m1) = true) (hneg : (s.core.operand 2 m2).toInt < 0) :
    complete s (jumpWhen s.params taken m1 m2 s.core.fetched) =
      .next (s.raise ⟨.negativeAddress, 2⟩) := by
  rw [complete_jumpWhen, firstFault_jump, h, htaken, targetFault_of_neg hneg, Option.none_or]

theorem complete_jumpWhen_of_taken
    (h : firstFault [s.core.valueFault s.params 1 m1, s.core.valueFault s.params 2 m2] = none)
    (htaken : taken (s.core.operand 1 m1) = true) (hnonneg : 0 ≤ (s.core.operand 2 m2).toInt) :
    complete s (jumpWhen s.params taken m1 m2 s.core.fetched) =
      .next (s.setCore
        { s.core with
          mlen := s.core.lengthAfter (instrReads s.core (.jumpTrue m1 m2))
          pc := (s.core.operand 2 m2).toInt.toNat }) := by
  rw [complete_jumpWhen, firstFault_jump, h, targetFault_of_nonneg hnonneg, Option.none_or, if_pos htaken]

theorem complete_jumpWhen_of_not_taken
    (h : firstFault [s.core.valueFault s.params 1 m1, s.core.valueFault s.params 2 m2] = none)
    (htaken : taken (s.core.operand 1 m1) = false) :
    complete s (jumpWhen s.params taken m1 m2 s.core.fetched) =
      .next (s.setCore
        { s.core with
          mlen := s.core.lengthAfter (instrReads s.core (.jumpTrue m1 m2))
          pc := s.core.pc + 3 }) := by
  rw [complete_jumpWhen, firstFault_jump, h, htaken, targetFault_of_not_taken, Option.none_or,
    if_neg Bool.false_ne_true]

end

/-! ### The two instructions -/

theorem exec_jumpTrue (m1 m2 : Mode) (s : State) :
    exec (.jumpTrue m1 m2) s =
      complete s (jumpWhen s.params (fun a => !isZero a) m1 m2 s.core.fetched) := rfl

theorem exec_jumpFalse (m1 m2 : Mode) (s : State) :
    exec (.jumpFalse m1 m2) s = complete s (jumpWhen s.params isZero m1 m2 s.core.fetched) := rfl

/-- JumpFalse reads what a JumpTrue with the same modes reads (R47). -/
theorem instrReads_jumpFalse (c : CoreState) (m1 m2 : Mode) :
    instrReads c (.jumpFalse m1 m2) = instrReads c (.jumpTrue m1 m2) := rfl

/-- Settles O15: the shape taken on an operand that is not 0. -/
theorem jumpTrueResult : Obligations.JumpTrueResult := by
  intro m1 m2 s
  have htaken (h : (s.core.operand 1 m1).toInt ≠ 0) : (!isZero (s.core.operand 1 m1)) = true := by
    rw [isZero_of_toInt_ne_zero h, Bool.not_false]
  have hpassed (h : (s.core.operand 1 m1).toInt = 0) : (!isZero (s.core.operand 1 m1)) = false := by
    rw [isZero_of_toInt_eq_zero h, Bool.not_true]
  rw [exec_jumpTrue]
  exact ⟨fun _ => complete_jumpWhen_of_paramFault, fun h =>
    ⟨fun hne => complete_jumpWhen_of_negative_target h (htaken hne),
      fun hne => complete_jumpWhen_of_taken h (htaken hne),
      fun hzero => complete_jumpWhen_of_not_taken h (hpassed hzero)⟩⟩

/-- Settles O16: the shape taken on an operand that is 0. -/
theorem jumpFalseResult : Obligations.JumpFalseResult := by
  intro m1 m2 s
  rw [exec_jumpFalse, instrReads_jumpFalse]
  exact ⟨fun _ => complete_jumpWhen_of_paramFault, fun h =>
    ⟨fun hzero => complete_jumpWhen_of_negative_target h (isZero_of_toInt_eq_zero hzero),
      fun hzero => complete_jumpWhen_of_taken h (isZero_of_toInt_eq_zero hzero),
      fun hne => complete_jumpWhen_of_not_taken h (isZero_of_toInt_ne_zero hne)⟩⟩

end Sys2Proof.Machine
end

section
/-!
LessThan and Equal (R95, R96): the instructions of format F3 whose result is the word 1 or 0 of a comparison
and cannot fail.
-/
namespace Sys2Proof.Machine

/-! ### The results of the comparisons -/

theorem boolWord_decide (p : Prop) [Decidable p] : boolWord (decide p) = if p then 1#64 else 0#64 := by
  simp only [boolWord, decide_eq_true_eq]

theorem lessOf_eq_ite (a b : Word) : lessOf a b = if a.toInt < b.toInt then 1#64 else 0#64 :=
  boolWord_decide _

/-- Equality of the whole words is equality of the integers they stand for. -/
theorem equalOf_eq_ite (a b : Word) : equalOf a b = if a.toInt = b.toInt then 1#64 else 0#64 := by
  simp only [equalOf, boolWord_decide, BitVec.toInt_inj]

/-! ### The two instructions -/

theorem exec_lessThan (m1 m2 m3 : Mode) (s : State) :
    exec (.lessThan m1 m2 m3) s =
      complete s (storeResult s.params (fun a b => .ok (lessOf a b)) m1 m2 m3 s.core.fetched) := rfl

theorem exec_equal (m1 m2 m3 : Mode) (s : State) :
    exec (.equal m1 m2 m3) s =
      complete s (storeResult s.params (fun a b => .ok (equalOf a b)) m1 m2 m3 s.core.fetched) := rfl

/-- LessThan reads what an Add with the same modes reads (R47). -/
theorem instrReads_lessThan (c : CoreState) (m1 m2 m3 : Mode) :
    instrReads c (.lessThan m1 m2 m3) = instrReads c (.add m1 m2 m3) := rfl

/-- Equal reads what an Add with the same modes reads (R47). -/
theorem instrReads_equal (c : CoreState) (m1 m2 m3 : Mode) :
    instrReads c (.equal m1 m2 m3) = instrReads c (.add m1 m2 m3) := rfl

/-- Settles O13: LessThan is format F3 with the signed comparison as its result. -/
theorem lessThanResult : Obligations.LessThanResult := by
  intro m1 m2 m3 s
  rw [exec_lessThan, instrReads_lessThan, ← lessOf_eq_ite]
  exact ⟨fun _ => complete_storeResult_of_paramFault,
    fun hparam => complete_storeResult_of_result_ok hparam rfl⟩

/-- Settles O14: Equal is format F3 with the equality of the words as its result. -/
theorem equalResult : Obligations.EqualResult := by
  intro m1 m2 m3 s
  rw [exec_equal, instrReads_equal, ← equalOf_eq_ite]
  exact ⟨fun _ => complete_storeResult_of_paramFault,
    fun hparam => complete_storeResult_of_result_ok hparam rfl⟩

end Sys2Proof.Machine
end

section
/-!
ChangeRelative (R100): the fault of its operand, then the overflow of the exact sum, then the new base.
-/
namespace Sys2Proof.Machine

/-- The adjustment of the base on a state. The fetch only grows the store, so it leaves the fault, the operand
and the old base as they are, and its address comes before the operand's reads (R47). -/
theorem complete_adjustBase (s : State) (m1 : Mode) :
    complete s (adjustBase s.params m1 s.core.fetched) =
      match firstFault [s.core.valueFault s.params 1 m1,
          overflowFault s.params (s.core.rb.toInt + (s.core.operand 1 m1).toInt)] with
      | some e => .next (s.raise e)
      | none =>
        .next (s.setCore
          { s.core with
            rb := aluWord (s.core.rb.toInt + (s.core.operand 1 m1).toInt)
            mlen := s.core.lengthAfter (instrReads s.core (.changeRelative m1))
            pc := s.core.pc + 2 }) := by
  rw [CoreState.fetched_eq, adjustBase_eq]
  simp only [CoreState.reading_valueFault, CoreState.reading_operand, CoreState.reading_valueReads,
    CoreState.reading_rb, CoreState.reading_reading]
  cases firstFault [s.core.valueFault s.params 1 m1,
      overflowFault s.params (s.core.rb.toInt + (s.core.operand 1 m1).toInt)] with
  | some e => rfl
  | none => rfl

theorem exec_changeRelative (m1 : Mode) (s : State) :
    exec (.changeRelative m1) s = complete s (adjustBase s.params m1 s.core.fetched) := rfl

/-- Settles O17: the adjustment on a state, read for a fault and for none. -/
theorem changeRelativeResult : Obligations.ChangeRelativeResult := by
  intro m1 s
  rw [exec_changeRelative, complete_adjustBase]
  refine ⟨fun e hfault => ?fault, fun hnone => ?completes⟩
  case fault => rw [hfault]
  case completes =>
    rw [hnone]
    rfl

end Sys2Proof.Machine
end

section
/-!
Halt (R105): one word, no parameter and no fault, so it completes on every state.
-/
namespace Sys2Proof.Machine

theorem exec_halt (s : State) :
    exec .halt s = complete s (.ok (s.core.fetched.halt.advance 1)) := rfl

/-- Settles O18: the only read is the fetch at `pc`; the rest is the new state, field by field. -/
theorem haltResult : Obligations.HaltResult := by
  intro s
  rw [exec_halt, complete_ok, CoreState.fetched_eq]
  rfl

end Sys2Proof.Machine
end

section
/-!
Channels (R115 to R117): what a list of sends queues, and what as many receives as there are queued words
answer.
-/
namespace Sys2Proof.Machine

theorem Channel.sendAll_alive {ch : Channel} (h : ch.rxAlive = true) (vs : List Word) :
    ch.sendAll vs = { ch with q := ch.q ++ vs } := by
  induction vs generalizing ch with
  | nil => rw [Channel.sendAll, List.append_nil]
  | cons v vs ih =>
    calc ch.sendAll (v :: vs)
      _ = Channel.sendAll { ch with q := ch.q ++ [v] } vs := by
        rw [Channel.sendAll, Channel.send_alive v h]
      _ = { ch with q := ch.q ++ [v] ++ vs } := ih h
      _ = { ch with q := ch.q ++ v :: vs } := by rw [List.append_assoc, List.singleton_append]

/-- As many receives as there are queued words answer them all in order, whether the producer lives or not, and
leave the queue empty. -/
theorem Channel.recvMany_of_queue {ch : Channel} {l : List Word} (h : ch.q = l) :
    Channel.recvMany l.length ch = (l.map Reply.ok, { ch with q := [] }) := by
  induction l generalizing ch with
  | nil => rw [List.length_nil, Channel.recvMany, List.map_nil, ← h]
  | cons v rest ih =>
    have hrest : Channel.recvMany rest.length { ch with q := rest } =
        (rest.map Reply.ok, { ch with q := [] }) := ih rfl
    simp only [List.length_cons, Channel.recvMany, Channel.recv_cons h, hrest, List.map_cons]

/-- The sends queue their words behind the ones before; the drop of the producer keeps the queue; the receives
take it all, and what is left is empty and closed. -/
theorem Channel.recvMany_sendAll_dropTx {ch : Channel} (h : ch.rxAlive = true) (vs : List Word) :
    ∃ ch', Channel.recvMany (ch.q.length + vs.length) (ch.sendAll vs).dropTx =
        ((ch.q ++ vs).map Reply.ok, ch') ∧
      ch'.recv = (.fail, ch') := by
  have hqueue : (ch.sendAll vs).dropTx.q = ch.q ++ vs := by rw [Channel.sendAll_alive h]; rfl
  rw [← List.length_append]
  exact ⟨_, Channel.recvMany_of_queue hqueue, Channel.recv_closed rfl rfl⟩

/-- Settles O32: the delivery in order, then the single send and receive in each of their cases. -/
theorem channelDeliversInOrder : Obligations.ChannelDeliversInOrder :=
  ⟨fun _ vs h => Channel.recvMany_sendAll_dropTx h vs, fun _ v => Channel.send_dropped v,
    fun _ v => Channel.send_alive v, fun _ => Channel.recv_empty, fun _ => Channel.recv_closed,
    fun _ _ _ => Channel.recv_cons⟩

/-- Settles O33: one lemma of `tryRecv` per answer. -/
theorem tryRecvNeverWaits : Obligations.TryRecvNeverWaits :=
  ⟨fun _ _ _ => Channel.tryRecv_cons, fun _ => Channel.tryRecv_closed, fun _ => Channel.tryRecv_empty⟩

end Sys2Proof.Machine
end

section
/-!
The port of a core whose device is Inert (R120), Latest-value (R122) or Blocking-channel (R121).
-/
namespace Sys2Proof.Machine

section
variable {s : State}

/-! ### The transactions of each device -/

theorem ioGet_inert (h : s.core.dev = .inert) : ioGet s = (.ok 0#64, s) := by
  rw [ioGet, h]

theorem ioPut_inert (h : s.core.dev = .inert) (v : Word) : ioPut s v = (.ok (), s) := by
  rw [ioPut, h]

theorem ioGet_latest {lv : Word} (h : s.core.dev = .latest lv) : ioGet s = (.ok lv, s) := by
  rw [ioGet, h]

theorem ioPut_latest {lv : Word} (h : s.core.dev = .latest lv) (v : Word) :
    ioPut s v = (.ok (), s.setDev (.latest v)) := by
  rw [ioPut, h]

theorem ioGet_blocking {cin cout : Nat} (h : s.core.dev = .blocking cin cout) : ioGet s = s.recv cin := by
  rw [ioGet, h]

theorem ioPut_blocking {cin cout : Nat} (h : s.core.dev = .blocking cin cout) (v : Word) :
    ioPut s v = s.send cout v := by
  rw [ioPut, h]

/-! ### Send and receive on a channel by number -/

theorem State.recv_cons {i : Nat} {v : Word} {rest : List Word} (h : (s.chan i).q = v :: rest) :
    s.recv i = (.ok v, s.setChan i { s.chan i with q := rest }) := by
  rw [State.recv, Channel.recv_cons h]

theorem State.recv_closed {i : Nat} (hq : (s.chan i).q = []) (ht : (s.chan i).txAlive = false) :
    s.recv i = (.fail, s) := by
  rw [State.recv, Channel.recv_closed hq ht]
  simp only [State.setChan_chan]

theorem State.recv_empty {i : Nat} (hq : (s.chan i).q = []) (ht : (s.chan i).txAlive = true) :
    s.recv i = (.wait, s) := by
  rw [State.recv, Channel.recv_empty hq ht]
  simp only [State.setChan_chan]

theorem State.send_alive {i : Nat} (v : Word) (h : (s.chan i).rxAlive = true) :
    s.send i v = (.ok (), s.setChan i { s.chan i with q := (s.chan i).q ++ [v] }) := by
  rw [State.send, Channel.send_alive v h]

theorem State.send_dropped {i : Nat} (v : Word) (h : (s.chan i).rxAlive = false) :
    s.send i v = (.fail, s) := by
  rw [State.send, Channel.send_dropped v h]
  simp only [State.setChan_chan]

/-- A transaction that answers by changing one channel changes that channel alone. -/
theorem exists_setChan_frame {α : Type} {x : Reply α × State} {r : Reply α} {i : Nat} {ch : Channel}
    (hi : i < s.chans.length) (hx : x = (r, s.setChan i ch)) :
    ∃ t, x = (r, t) ∧ t.chan i = ch ∧ t.core = s.core ∧ (∀ n, n ≠ i → t.chan n = s.chan n) ∧
      s.SameOutsidePort t :=
  ⟨_, hx, s.chan_setChan_self ch hi, rfl, fun _ => s.chan_setChan_ne ch,
    (State.PortStep.setChan s i ch).outside⟩

end

/-! ### The obligations -/

/-- Settles O34: a `put` on the Latest-value device changes the device alone, so the next `get` answers the word
put. -/
theorem inertAndLatestValueDevices : Obligations.InertAndLatestValueDevices :=
  ⟨fun _ v h => ⟨ioGet_inert h, ioPut_inert h v⟩,
    fun _ _ v h => ⟨ioGet_latest h, _, ioPut_latest h v, rfl, rfl, ioGet_latest rfl⟩⟩

/-- Settles O35: the device's `get` is the receive on `cin`, its `put` the send on `cout`, each in its cases. -/
theorem blockingDeviceUsesItsChannels : Obligations.BlockingDeviceUsesItsChannels := by
  intro s cin cout hdev hcin hcout
  simp only [ioGet_blocking hdev, ioPut_blocking hdev]
  exact ⟨fun _ _ hq => exists_setChan_frame hcin (State.recv_cons hq), State.recv_closed, State.recv_empty,
    fun v hrx => exists_setChan_frame hcout (State.send_alive v hrx), State.send_dropped⟩

end Sys2Proof.Machine
end

section
/-!
Input (R85): the fault of its destination before the port transaction, and the next state for each answer of the
port; and what an Output whose port fails leaves (R86, R157).
-/
namespace Sys2Proof.Machine

/-! ### The destination -/

theorem dst_fetched_of_fault {p : Params} {c : CoreState} {i : Fin 4} {m : Mode} {e : Raise}
    (h : c.destFault p i m = some e) : dst p i m c.fetched = .error e := by
  rw [CoreState.fetched_eq, dst_eq, CoreState.reading_destFault, h]

theorem dst_fetched_of_no_fault {p : Params} {c : CoreState} {i : Fin 4} {m : Mode}
    (h : c.destFault p i m = none) :
    dst p i m c.fetched = .ok (c.destAddr i m, c.reading [c.pc, c.pc + i.val]) := by
  rw [CoreState.fetched_eq, dst_eq, CoreState.reading_destFault, h, CoreState.reading_destAddr,
    CoreState.reading_reading, CoreState.reading_pc, List.singleton_append]

/-- The written cell counts as one more access (R43). -/
theorem CoreState.lengthAfter_concat (c : CoreState) (l : List Nat) (a : Nat) :
    c.lengthAfter (l ++ [a]) = max (c.lengthAfter l) (a + 1) := by
  have h := congrArg CoreState.mlen ((c.reading l).grow_eq_reading a)
  rw [CoreState.reading_reading] at h
  exact h.symm

/-! ### The port transaction -/

/-- The transaction of Input comes after its reads, which keep the device. -/
theorem ioGet_reading {s t : State} {r : Reply Word} (h : ioGet s = (r, t)) (l : List Nat) :
    ioGet (s.setCore (s.core.reading l)) = (r, t.setCore ((s.core.reading l).setDev t.core.dev)) := by
  rw [ioGet_setCore s _ (s.core.reading_dev l), h]

theorem portStep_of_ioGet {s t : State} {r : Reply Word} (h : ioGet s = (r, t)) : s.PortStep t := by
  have hstep := (ioGet_step s).1
  rwa [h] at hstep

theorem portStep_of_ioPut {s t : State} {v : Word} {r : Reply Unit} (h : ioPut s v = (r, t)) :
    s.PortStep t := by
  have hstep := (ioPut_step s v).1
  rwa [h] at hstep

/-- R115: a `put` that fails changes nothing. -/
theorem ioPut_fail {s t : State} {v : Word} (h : ioPut s v = (.fail, t)) : t = s := by
  cases hd : s.core.dev with
  | inert => simp [ioPut_inert hd] at h
  | latest lv => simp [ioPut_latest hd] at h
  | blocking cin cout =>
    rw [ioPut_blocking hd] at h
    rcases s.send_cases cout v with ⟨-, e⟩ | ⟨-, e⟩ <;> simp_all
  | nonblocking cin cout first idle owed =>
    have hput : ioPut s v = s.send cout v := by rw [ioPut, hd]
    rw [hput] at h
    rcases s.send_cases cout v with ⟨-, e⟩ | ⟨-, e⟩ <;> simp_all

/-! ### The instruction -/

theorem exec_input (m1 : Mode) (s : State) : exec (.input m1) s = execInput m1 s := rfl

section
variable {s t : State} {m1 : Mode}

theorem exec_input_of_fault {e : Raise} (h : s.core.destFault s.params 1 m1 = some e) :
    exec (.input m1) s = .next (s.raise e) := by
  rw [exec_input, execInput, dst_fetched_of_fault h]

theorem exec_input_of_get_ok {v : Word} (h : s.core.destFault s.params 1 m1 = none)
    (hget : ioGet s = (.ok v, t)) :
    exec (.input m1) s =
      .next (t.setCore ((((s.core.reading (instrReads s.core (.input m1))).setDev t.core.dev).memWrite
        (s.core.destAddr 1 m1) v).advance 2)) := by
  simp only [exec_input, execInput, dst_fetched_of_no_fault h, ioGet_reading hget, State.setCore_core,
    State.setCore_setCore, instrReads]
  rfl

theorem exec_input_of_get_fail (h : s.core.destFault s.params 1 m1 = none)
    (hget : ioGet s = (.fail, t)) :
    exec (.input m1) s =
      .next (t.setCore
        ((s.core.reading (instrReads s.core (.input m1))).setDev t.core.dev).halt) := by
  simp only [exec_input, execInput, dst_fetched_of_no_fault h, ioGet_reading hget, State.setCore_core,
    State.setCore_setCore, instrReads]
  rfl

theorem exec_input_of_get_wait (h : s.core.destFault s.params 1 m1 = none)
    (hget : ioGet s = (.wait, t)) : exec (.input m1) s = .next s := by
  simp only [exec_input, execInput, dst_fetched_of_no_fault h, ioGet_reading hget]

end

/-- Settles O19: one lemma per outcome of the instruction; what the transaction leaves outside the core is the
old state with the new channels. -/
theorem inputResult : Obligations.InputResult := by
  refine fun m1 s => ⟨fun _ => exec_input_of_fault, fun h =>
    ⟨fun v t hget => ?ok, fun t hget => ?fail, fun t hget => exec_input_of_get_wait h hget⟩⟩
  case ok =>
    rw [exec_input_of_get_ok h hget, (portStep_of_ioGet hget).outside.setCore_eq]
    rw [CoreState.lengthAfter_concat]
    rfl
  case fail =>
    rw [exec_input_of_get_fail h hget, (portStep_of_ioGet hget).outside.setCore_eq]
    rfl

end Sys2Proof.Machine
end

section
/-!
The status of a core (R32), and a failed port transaction, which halts it without a fault (R157).
-/
namespace Sys2Proof.Machine

theorem CoreState.status_eq_running_iff (c : CoreState) :
    c.status = .running ↔ c.fcause = none ∧ c.halted = false := by
  unfold CoreState.status
  cases c.fcause <;> cases c.halted <;> simp

theorem CoreState.status_eq_halted_iff (c : CoreState) :
    c.status = .halted ↔ c.fcause = none ∧ c.halted = true := by
  unfold CoreState.status
  cases c.fcause <;> cases c.halted <;> simp

theorem CoreState.status_eq_faulted_iff (c : CoreState) : c.status = .faulted ↔ c.fcause ≠ none := by
  unfold CoreState.status
  cases c.fcause <;> cases c.halted <;> simp

/-- R24: a core without a fault that sets `halted` is Halted. -/
theorem CoreState.halt_status {c : CoreState} (h : c.fcause = none) : c.halt.status = .halted :=
  c.halt.status_eq_halted_iff.mpr ⟨h, rfl⟩

/-- Settles O38: the failing outcome of each of the two instructions; a failed `put` leaves the state, so no channel
changes. -/
theorem ioFailureHaltsWithoutFault : Obligations.IoFailureHaltsWithoutFault := by
  intro m1 s hrun
  obtain ⟨hcause, -⟩ := s.core.status_eq_running_iff.mp hrun
  refine ⟨fun h hget => ?input, fun h hput => ?output⟩
  case input =>
    have hexec := exec_input_of_get_fail h (Prod.ext hget rfl)
    exact ⟨_, hexec, CoreState.halt_status hcause, hcause, rfl, rfl⟩
  case output =>
    have hanswer : ioPut s (s.core.operand 1 m1) = (.fail, (ioPut s (s.core.operand 1 m1)).2) :=
      Prod.ext hput rfl
    have hexec := exec_output_of_put_fail h hanswer
    rw [ioPut_fail hanswer] at hexec
    exact ⟨_, hexec, CoreState.halt_status hcause, hcause, rfl, rfl, fun _ => rfl⟩

end Sys2Proof.Machine
end

section
/-!
What an instruction can do, said once for all of them: it takes its first fault in the order of R158, or completes
in one of the ways of `Completes`. The frames (R20, R23, R24) are read off that.
-/
namespace Sys2Proof.Machine

/-! ### The faults of a list -/

theorem mem_of_firstFault {l : List (Option Raise)} {e : Raise} (h : firstFault l = some e) :
    some e ∈ l := by
  induction l with
  | nil => cases h
  | cons x l ih =>
    cases x with
    | some e' => exact List.mem_cons.mpr (.inl h.symm)
    | none => exact List.mem_cons_of_mem _ (ih h)

theorem firstFault_eq_none_iff (l : List (Option Raise)) : firstFault l = none ↔ ∀ o ∈ l, o = none := by
  induction l with
  | nil => simp [firstFault]
  | cons x l ih => cases x <;> simp [firstFault, ih]

@[simp] theorem firstFault_singleton (o : Option Raise) : firstFault [o] = o := by
  cases o <;> rfl

/-- An instruction whose execution raises nothing of its own has the faults of its parameters. -/
theorem instrFault_eq_paramFaults {p : Params} {c : CoreState} {i : Instr} (h : executeFault p c i = none) :
    instrFault p c i = firstFault (paramFaults p c i) := by
  rw [instrFault, firstFault_concat, h, Option.or_none]

/-! ### The two ways an instruction ends -/

/-- What instruction `i` can leave of `s` when it takes no fault. -/
inductive Completes (s : State) : Instr → State → Prop where
  /-- Add, Multiply, LessThan, Equal: a word stored (R80, R81, R95, R96) -/
  | store {i : Instr} (m1 m2 m3 : Mode) (r : Word)
      (hi : i.params = [(.value, m1), (.value, m2), (.destination, m3)]) :
      Completes s i (s.setCore
        (((s.core.reading (instrReads s.core i)).memWrite (s.core.destAddr 3 m3) r).advance 4))
  /-- JumpTrue, JumpFalse: taken (R90, R91) -/
  | jump {i : Instr} (m1 m2 : Mode) (hi : i.params = [(.value, m1), (.value, m2)]) :
      Completes s i (s.setCore
        ((s.core.reading (instrReads s.core i)).jump (s.core.operand 2 m2).toInt.toNat))
  /-- JumpTrue, JumpFalse: not taken (R90, R91) -/
  | pass {i : Instr} (m1 m2 : Mode) (hi : i.params = [(.value, m1), (.value, m2)]) :
      Completes s i (s.setCore ((s.core.reading (instrReads s.core i)).advance 3))
  /-- R100 -/
  | adjust (m1 : Mode) (r : Word) :
      Completes s (.changeRelative m1) (s.setCore
        (((s.core.reading (instrReads s.core (.changeRelative m1))).setRb r).advance 2))
  /-- R105 -/
  | halt : Completes s .halt (s.setCore ((s.core.reading (instrReads s.core .halt)).halt.advance 1))
  /-- Input, and its port answers `Ok` (R85) -/
  | get (m1 : Mode) (v : Word) (t : State) (h : ioGet s = (.ok v, t)) :
      Completes s (.input m1) (t.setCore
        ((((s.core.reading (instrReads s.core (.input m1))).setDev t.core.dev).memWrite
          (s.core.destAddr 1 m1) v).advance 2))
  /-- Input, and its port fails (R85) -/
  | getFail (m1 : Mode) (t : State) (h : ioGet s = (.fail, t)) :
      Completes s (.input m1) (t.setCore
        ((s.core.reading (instrReads s.core (.input m1))).setDev t.core.dev).halt)
  /-- Input, and its port cannot answer yet (R112) -/
  | getWait (m1 : Mode) (t : State) (h : ioGet s = (.wait, t)) : Completes s (.input m1) s
  /-- Output, and its port answers `Ok` (R86) -/
  | put (m1 : Mode) (t : State) (h : ioPut s (s.core.operand 1 m1) = (.ok (), t)) :
      Completes s (.output m1) (t.setCore
        (((s.core.reading (instrReads s.core (.output m1))).setDev t.core.dev).advance 2))
  /-- Output, and its port fails (R86) -/
  | putFail (m1 : Mode) (t : State) (h : ioPut s (s.core.operand 1 m1) = (.fail, t)) :
      Completes s (.output m1) (t.setCore
        ((s.core.reading (instrReads s.core (.output m1))).setDev t.core.dev).halt)

/-! ### Which way an instruction ends -/

/-- The zero test of JumpTrue in the words of R158 (5). -/
theorem not_isZero (a : Word) : (!isZero a) = decide (a ≠ 0#64) := decide_not.symm

theorem storeResult_core (c : CoreState) (l : List Nat) (a n : Nat) (v : Word) :
    { c with mem := c.mem.write a v, mlen := c.lengthAfter (l ++ [a]), pc := c.pc + n } =
      ((c.reading l).memWrite a v).advance n := by
  rw [CoreState.lengthAfter_concat]
  rfl

/-- R158 (4), (5): an instruction takes its first fault. -/
theorem exec_of_instrFault {i : Instr} {s : State} {e : Raise} (h : instrFault s.params s.core i = some e) :
    exec i s = .next (s.raise e) := by
  cases i with
  | add m1 m2 m3 => exact complete_storeResult_alu_of_fault rfl h
  | multiply m1 m2 m3 => exact complete_storeResult_alu_of_fault rfl h
  | lessThan m1 m2 m3 =>
    exact complete_storeResult_of_paramFault ((instrFault_eq_paramFaults rfl).symm.trans h)
  | equal m1 m2 m3 =>
    exact complete_storeResult_of_paramFault ((instrFault_eq_paramFaults rfl).symm.trans h)
  | input m1 =>
    rw [instrFault_eq_paramFaults rfl, paramFaults, firstFault_singleton] at h
    exact exec_input_of_fault h
  | output m1 =>
    rw [instrFault_eq_paramFaults rfl, paramFaults, firstFault_singleton] at h
    exact exec_output_of_fault h
  | jumpTrue m1 m2 =>
    replace h : firstFault [_, _, targetFault (decide (s.core.operand 1 m1 ≠ 0#64)) _] = some e := h
    rw [exec_jumpTrue, complete_jumpWhen, not_isZero, h]
  | jumpFalse m1 m2 =>
    replace h : firstFault [_, _, targetFault (isZero (s.core.operand 1 m1)) _] = some e := h
    rw [exec_jumpFalse, complete_jumpWhen, h]
  | changeRelative m1 =>
    replace h : firstFault [_, overflowFault _ _] = some e := h
    rw [exec_changeRelative, complete_adjustBase, h]
  | halt => cases h

/-- Format F3 without a fault stores some word. -/
theorem Completes.ofStore {s : State} {i : Instr} {m1 m2 m3 : Mode} (r : Word)
    (hi : i.params = [(.value, m1), (.value, m2), (.destination, m3)])
    (h : exec i s = .next (s.setCore
      { s.core with
        mem := s.core.mem.write (s.core.destAddr 3 m3) r
        mlen := s.core.lengthAfter (instrReads s.core i ++ [s.core.destAddr 3 m3])
        pc := s.core.pc + 4 })) : ∃ t, exec i s = .next t ∧ Completes s i t := by
  rw [storeResult_core] at h
  exact ⟨_, h, .store m1 m2 m3 r hi⟩

/-- A jump without a fault is taken or not. -/
theorem Completes.ofJump {s : State} {i : Instr} {m1 m2 : Mode} {taken : Bool}
    (hi : i.params = [(.value, m1), (.value, m2)])
    (h : exec i s = .next (s.setCore
      { s.core with
        mlen := s.core.lengthAfter (instrReads s.core i)
        pc := if taken then (s.core.operand 2 m2).toInt.toNat else s.core.pc + 3 })) :
    ∃ t, exec i s = .next t ∧ Completes s i t := by
  cases taken with
  | true => exact ⟨_, h, .jump m1 m2 hi⟩
  | false => exact ⟨_, h, .pass m1 m2 hi⟩

/-- Without a fault an instruction completes. -/
theorem exec_of_no_instrFault {i : Instr} {s : State} (h : instrFault s.params s.core i = none) :
    ∃ t, exec i s = .next t ∧ Completes s i t := by
  cases i with
  | add m1 m2 m3 => exact Completes.ofStore _ rfl (complete_storeResult_alu_of_no_fault rfl h)
  | multiply m1 m2 m3 => exact Completes.ofStore _ rfl (complete_storeResult_alu_of_no_fault rfl h)
  | lessThan m1 m2 m3 =>
    have hparam := (instrFault_eq_paramFaults rfl).symm.trans h
    exact Completes.ofStore _ rfl (complete_storeResult_of_result_ok hparam rfl)
  | equal m1 m2 m3 =>
    have hparam := (instrFault_eq_paramFaults rfl).symm.trans h
    exact Completes.ofStore _ rfl (complete_storeResult_of_result_ok hparam rfl)
  | input m1 =>
    rw [instrFault_eq_paramFaults rfl, paramFaults, firstFault_singleton] at h
    rcases hget : ioGet s with ⟨_ | _ | _, t⟩
    case ok v => exact ⟨_, exec_input_of_get_ok h hget, .get m1 v t hget⟩
    case fail => exact ⟨_, exec_input_of_get_fail h hget, .getFail m1 t hget⟩
    case wait => exact ⟨s, exec_input_of_get_wait h hget, .getWait m1 t hget⟩
  | output m1 =>
    rw [instrFault_eq_paramFaults rfl, paramFaults, firstFault_singleton] at h
    rcases hput : ioPut s (s.core.operand 1 m1) with ⟨_ | _ | _, t⟩
    case ok => exact ⟨_, exec_output_of_put_ok h hput, .put m1 t hput⟩
    case fail => exact ⟨_, exec_output_of_put_fail h hput, .putFail m1 t hput⟩
    case wait => exact absurd (by rw [hput]) (ioPut_never_waits s (s.core.operand 1 m1))
  | jumpTrue m1 m2 =>
    replace h : firstFault [_, _, targetFault (decide (s.core.operand 1 m1 ≠ 0#64)) _] = none := h
    refine Completes.ofJump (taken := decide (s.core.operand 1 m1 ≠ 0#64)) rfl ?_
    rw [exec_jumpTrue, complete_jumpWhen, not_isZero, h]
  | jumpFalse m1 m2 =>
    replace h : firstFault [_, _, targetFault (isZero (s.core.operand 1 m1)) _] = none := h
    refine Completes.ofJump (taken := isZero (s.core.operand 1 m1)) rfl ?_
    rw [exec_jumpFalse, complete_jumpWhen, h]
    rfl
  | changeRelative m1 =>
    replace h : firstFault [_, overflowFault _ _] = none := h
    refine ⟨_, ?_, .adjust m1 (aluWord (s.core.rb.toInt + (s.core.operand 1 m1).toInt))⟩
    rw [exec_changeRelative, complete_adjustBase, h]
    rfl
  | halt => exact ⟨_, haltResult s, .halt⟩

/-- An instruction that answers a next state took its first fault, or had none and completed. -/
theorem exec_cases {i : Instr} {s t : State} (h : exec i s = .next t) :
    (∃ e, instrFault s.params s.core i = some e ∧ t = s.raise e) ∨
      (instrFault s.params s.core i = none ∧ Completes s i t) := by
  cases hf : instrFault s.params s.core i with
  | some e =>
    rw [exec_of_instrFault hf] at h
    cases h
    exact .inl ⟨e, rfl, rfl⟩
  | none =>
    obtain ⟨u, hu, hc⟩ := exec_of_no_instrFault hf
    rw [hu] at h
    cases h
    exact .inr ⟨rfl, hc⟩

end Sys2Proof.Machine
end

section
/-!
The frames of the instructions (R20, R23, R24), read off `exec_cases`.
-/
namespace Sys2Proof.Machine

theorem State.SameOutside.setCore (s : State) (c : CoreState) : s.SameOutside (s.setCore c) :=
  ⟨rfl, rfl, rfl, rfl, rfl, rfl, rfl, rfl⟩

/-- Settles O21: of the ways to complete, an instruction with two values and a destination has the store alone. -/
theorem storingInstructionsFrame : Obligations.StoringInstructionsFrame := by
  intro m1 m2 m3 i s t hi h
  have hparams : i.params = [(.value, m1), (.value, m2), (.destination, m3)] := by
    simp only [List.mem_cons, List.not_mem_nil, or_false] at hi
    rcases hi with rfl | rfl | rfl | rfl <;> rfl
  clear hi
  rcases exec_cases h with ⟨e, -, rfl⟩ | ⟨-, hc⟩
  · exact .inl ⟨e, rfl⟩
  · right
    cases hc with
    | store n1 n2 n3 r hn =>
      obtain ⟨rfl, rfl, rfl⟩ : m1 = n1 ∧ m2 = n2 ∧ m3 = n3 := by simpa [hparams] using hn
      exact ⟨fun a ha => Memory.read_write_ne _ _ ha, rfl, rfl, rfl, rfl, rfl, rfl, rfl, .setCore s _⟩
    | jump n1 n2 hn => simp [hparams] at hn
    | pass n1 n2 hn => simp [hparams] at hn
    | _ => simp [Instr.params] at hparams

/-- Settles O22: of the ways to complete, an instruction without a destination and without a port has the two ends of
a jump, the adjustment and the halt, none of which writes memory. -/
theorem registerInstructionsFrame : Obligations.RegisterInstructionsFrame := by
  intro m1 m2 i s t hi h
  simp only [List.mem_cons, List.not_mem_nil, or_false] at hi
  rcases exec_cases h with ⟨e, -, rfl⟩ | ⟨-, hc⟩
  · exact .inl ⟨e, rfl⟩
  · right
    cases hc with
    | store n1 n2 n3 r hn => rcases hi with rfl | rfl | rfl | rfl <;> cases hn
    | jump n1 n2 hn =>
      exact ⟨fun _ => rfl, rfl, fun _ => rfl, fun _ => rfl, rfl, rfl, rfl, rfl, rfl, .setCore s _⟩
    | pass n1 n2 hn =>
      exact ⟨fun _ => rfl, rfl, fun _ => rfl, fun _ => rfl, rfl, rfl, rfl, rfl, rfl, .setCore s _⟩
    | adjust n1 r =>
      have hm : n1 = m1 := by simpa using hi
      exact ⟨fun _ => rfl, rfl, fun hne => absurd (by rw [hm]) hne, fun _ => rfl, rfl, rfl, rfl, rfl, rfl,
        .setCore s _⟩
    | halt =>
      exact ⟨fun _ => rfl, rfl, fun _ => rfl, fun hne => absurd rfl hne, rfl, rfl, rfl, rfl, rfl,
        .setCore s _⟩
    | _ => simp at hi

/-- A port transaction keeps every channel but those it may use. -/
theorem ioGet_chan {s t : State} {r : Reply Word} (h : ioGet s = (r, t)) (n : Nat)
    (hn : ∀ h, s.core.dev.handles = some h → n ≠ h.1) : t.chan n = s.chan n := by
  have hstep := (ioGet_step s).2 n hn
  rwa [h] at hstep

theorem ioPut_chan {s t : State} {v : Word} {r : Reply Unit} (h : ioPut s v = (r, t)) (n : Nat)
    (hn : ∀ h, s.core.dev.handles = some h → n ≠ h.2) : t.chan n = s.chan n := by
  have hstep := (ioPut_step s v).2 n hn
  rwa [h] at hstep

/-- Settles O23: the three answers of the port; what the transaction keeps is said by `ioGet_step`. -/
theorem inputFrame : Obligations.InputFrame := by
  intro m1 s t h
  rcases exec_cases h with ⟨e, -, rfl⟩ | ⟨-, hc⟩
  · exact .inl ⟨e, rfl⟩
  · right
    cases hc with
    | store n1 n2 n3 r hn => cases hn
    | jump n1 n2 hn => cases hn
    | pass n1 n2 hn => cases hn
    | get _ v u hget =>
      have hp := portStep_of_ioGet hget
      exact ⟨fun a ha => Memory.read_write_ne _ _ ha, rfl, rfl, rfl, rfl, rfl, hp.binding,
        fun n => ioGet_chan hget n, hp.outside.setCore _⟩
    | getFail _ u hget =>
      have hp := portStep_of_ioGet hget
      exact ⟨fun _ _ => rfl, rfl, rfl, rfl, rfl, rfl, hp.binding, fun n => ioGet_chan hget n,
        hp.outside.setCore _⟩
    | getWait _ u hget =>
      exact ⟨fun _ _ => rfl, rfl, rfl, rfl, rfl, rfl, rfl, fun _ _ => rfl, .refl s⟩

/-- Settles O24: the two answers of the port; what the transaction keeps is said by `ioPut_step`. -/
theorem outputFrame : Obligations.OutputFrame := by
  intro m1 s t h
  rcases exec_cases h with ⟨e, -, rfl⟩ | ⟨-, hc⟩
  · exact .inl ⟨e, rfl⟩
  · right
    cases hc with
    | store n1 n2 n3 r hn => cases hn
    | jump n1 n2 hn => cases hn
    | pass n1 n2 hn => cases hn
    | put _ u hput =>
      have hp := portStep_of_ioPut hput
      exact ⟨fun _ => rfl, rfl, rfl, rfl, rfl, rfl, rfl, hp.binding,
        fun n => ioPut_chan hput n, hp.outside.setCore _⟩
    | putFail _ u hput =>
      have hp := portStep_of_ioPut hput
      exact ⟨fun _ => rfl, rfl, rfl, rfl, rfl, rfl, rfl, hp.binding,
        fun n => ioPut_chan hput n, hp.outside.setCore _⟩

/-! ### Which instructions write what -/

/-- R60: the instructions with two values and a destination. -/
theorem Instr.storing_of_params {i : Instr} {m1 m2 m3 : Mode}
    (h : i.params = [(.value, m1), (.value, m2), (.destination, m3)]) :
    i = .add m1 m2 m3 ∨ i = .multiply m1 m2 m3 ∨ i = .lessThan m1 m2 m3 ∨ i = .equal m1 m2 m3 := by
  cases i <;> simp_all [Instr.params]

/-- R60: the instructions with two values and no destination. -/
theorem Instr.jump_of_params {i : Instr} {m1 m2 : Mode} (h : i.params = [(.value, m1), (.value, m2)]) :
    i = .jumpTrue m1 m2 ∨ i = .jumpFalse m1 m2 := by
  cases i <;> simp_all [Instr.params]

/-- Settles O25: a fault writes none of the four; each way to complete writes those its instruction is named for. -/
theorem onlyTheNamedInstructionsWrite : Obligations.OnlyTheNamedInstructionsWrite := by
  intro i s t h
  rcases exec_cases h with ⟨e, -, rfl⟩ | ⟨-, hc⟩
  · exact ⟨(absurd rfl ·), (absurd rfl ·), (absurd rfl ·), (absurd rfl ·)⟩
  · cases hc with
    | store n1 n2 n3 r hn =>
      have hwidth : i.width = 4 := by rw [Instr.width, hn]; rfl
      exact ⟨(absurd rfl ·), (absurd rfl ·), fun _ => .inl ⟨n1, n2, n3, Instr.storing_of_params hn⟩,
        fun _ hpc => absurd (by rw [hwidth]; rfl) hpc⟩
    | jump n1 n2 hn =>
      exact ⟨(absurd rfl ·), (absurd rfl ·), (absurd rfl ·), fun _ _ => ⟨n1, n2, Instr.jump_of_params hn⟩⟩
    | pass n1 n2 hn =>
      exact ⟨(absurd rfl ·), (absurd rfl ·), (absurd rfl ·), fun _ _ => ⟨n1, n2, Instr.jump_of_params hn⟩⟩
    | adjust m1 r =>
      exact ⟨fun _ => ⟨m1, rfl⟩, (absurd rfl ·), (absurd rfl ·), fun _ hpc => absurd rfl hpc⟩
    | halt =>
      exact ⟨(absurd rfl ·), fun _ => .inl rfl, (absurd rfl ·), fun _ hpc => absurd rfl hpc⟩
    | get m1 v u hget =>
      exact ⟨(absurd rfl ·), (absurd rfl ·), fun _ => .inr ⟨m1, rfl⟩, fun _ hpc => absurd rfl hpc⟩
    | getFail m1 u hget =>
      exact ⟨(absurd rfl ·), fun _ => .inr (.inl ⟨m1, rfl⟩), (absurd rfl ·), (absurd rfl ·)⟩
    | getWait m1 u hget => exact ⟨(absurd rfl ·), (absurd rfl ·), (absurd rfl ·), (absurd rfl ·)⟩
    | put m1 u hput =>
      exact ⟨(absurd rfl ·), (absurd rfl ·), (absurd rfl ·), fun _ hpc => absurd rfl hpc⟩
    | putFail m1 u hput =>
      exact ⟨(absurd rfl ·), fun _ => .inr (.inr ⟨m1, rfl⟩), (absurd rfl ·), (absurd rfl ·)⟩

end Sys2Proof.Machine
end

section
/-!
What an instruction does to its core depends on that core, the parameters and the port's answer (R192).
-/
namespace Sys2Proof.Machine

theorem CoreState.SameRegisters.refl (c : CoreState) : c.SameRegisters c :=
  ⟨rfl, rfl, rfl, rfl, rfl, rfl, rfl⟩

/-- The end of an instruction that uses no port, on two states with the same core. -/
theorem complete_sameRegisters {s s' t : State} {r : Except Raise CoreState} (hcore : s'.core = s.core)
    (h : complete s r = .next t) : ∃ t', complete s' r = .next t' ∧ t.core.SameRegisters t'.core := by
  cases r with
  | error e =>
    cases h
    refine ⟨_, complete_error s' e, ?_⟩
    rw [State.raise_core, State.raise_core, hcore]
    exact .refl _
  | ok c =>
    cases h
    exact ⟨_, complete_ok s' c, .refl c⟩

/-- A transaction that answers `r`, with the state it leaves. -/
theorem exists_snd_of_fst_eq {α β : Type} {x : α × β} {r : α} (h : x.1 = r) : ∃ t, x = (r, t) :=
  ⟨x.2, Prod.ext h rfl⟩

section
variable {s s' t : State} {m1 : Mode} (hcore : s'.core = s.core) (hparams : s'.params = s.params)
include hcore hparams

theorem exec_input_sameRegisters (hget : (ioGet s').1 = (ioGet s).1) (h : exec (.input m1) s = .next t) :
    ∃ t', exec (.input m1) s' = .next t' ∧ t.core.SameRegisters t'.core := by
  cases hf : s.core.destFault s.params 1 m1 with
  | some e =>
    rw [exec_input_of_fault hf] at h
    cases h
    refine ⟨_, exec_input_of_fault (by rw [hcore, hparams, hf]), ?_⟩
    rw [State.raise_core, State.raise_core, hcore]
    exact .refl _
  | none =>
    have hf' : s'.core.destFault s'.params 1 m1 = none := by rw [hcore, hparams, hf]
    rcases hu : ioGet s with ⟨r, u⟩
    obtain ⟨u', hu'⟩ : ∃ u', ioGet s' = (r, u') := exists_snd_of_fst_eq (by rw [hget, hu])
    cases r with
    | ok v =>
      rw [exec_input_of_get_ok hf hu] at h
      cases h
      refine ⟨_, exec_input_of_get_ok hf' hu', ?_⟩
      rw [hcore]
      exact ⟨rfl, rfl, rfl, rfl, rfl, rfl, rfl⟩
    | fail =>
      rw [exec_input_of_get_fail hf hu] at h
      cases h
      refine ⟨_, exec_input_of_get_fail hf' hu', ?_⟩
      rw [hcore]
      exact ⟨rfl, rfl, rfl, rfl, rfl, rfl, rfl⟩
    | wait =>
      rw [exec_input_of_get_wait hf hu] at h
      cases h
      exact ⟨_, exec_input_of_get_wait hf' hu', hcore ▸ .refl _⟩

theorem exec_output_sameRegisters (hput : ∀ v, (ioPut s' v).1 = (ioPut s v).1)
    (h : exec (.output m1) s = .next t) :
    ∃ t', exec (.output m1) s' = .next t' ∧ t.core.SameRegisters t'.core := by
  cases hf : s.core.valueFault s.params 1 m1 with
  | some e =>
    rw [exec_output_of_fault hf] at h
    cases h
    refine ⟨_, exec_output_of_fault (by rw [hcore, hparams, hf]), ?_⟩
    rw [State.raise_core, State.raise_core, hcore]
    exact .refl _
  | none =>
    have hf' : s'.core.valueFault s'.params 1 m1 = none := by rw [hcore, hparams, hf]
    rcases hu : ioPut s (s.core.operand 1 m1) with ⟨r, u⟩
    obtain ⟨u', hu'⟩ : ∃ u', ioPut s' (s'.core.operand 1 m1) = (r, u') :=
      exists_snd_of_fst_eq (by rw [hput, hcore, hu])
    cases r with
    | ok =>
      rw [exec_output_of_put_ok hf hu] at h
      cases h
      refine ⟨_, exec_output_of_put_ok hf' hu', ?_⟩
      rw [hcore]
      exact ⟨rfl, rfl, rfl, rfl, rfl, rfl, rfl⟩
    | fail =>
      rw [exec_output_of_put_fail hf hu] at h
      cases h
      refine ⟨_, exec_output_of_put_fail hf' hu', ?_⟩
      rw [hcore]
      exact ⟨rfl, rfl, rfl, rfl, rfl, rfl, rfl⟩
    | wait => exact absurd (by rw [hu]) (ioPut_never_waits s (s.core.operand 1 m1))

end

/-- Settles O60: an instruction without a port is a function of core and parameters; the two with one by its
answer. -/
theorem coreDependsOnlyOnItselfAndPort : Obligations.CoreDependsOnlyOnItselfAndPort := by
  intro i s s' t hcore hparams hget hput h
  cases i with
  | input m1 => exact exec_input_sameRegisters hcore hparams hget h
  | output m1 => exact exec_output_sameRegisters hcore hparams hput h
  | add m1 m2 m3 => rw [exec_add, hcore, hparams]; exact complete_sameRegisters hcore h
  | multiply m1 m2 m3 => rw [exec_multiply, hcore, hparams]; exact complete_sameRegisters hcore h
  | jumpTrue m1 m2 => rw [exec_jumpTrue, hcore, hparams]; exact complete_sameRegisters hcore h
  | jumpFalse m1 m2 => rw [exec_jumpFalse, hcore, hparams]; exact complete_sameRegisters hcore h
  | lessThan m1 m2 m3 => rw [exec_lessThan, hcore, hparams]; exact complete_sameRegisters hcore h
  | equal m1 m2 m3 => rw [exec_equal, hcore, hparams]; exact complete_sameRegisters hcore h
  | changeRelative m1 => rw [exec_changeRelative, hcore, hparams]; exact complete_sameRegisters hcore h
  | halt => rw [exec_halt, hcore]; exact complete_sameRegisters hcore h

end Sys2Proof.Machine
end

section
/-!
The step of a core (R69): its first fault in the order of R158, or the instruction at `pc`, run without one.
-/
namespace Sys2Proof.Machine

/-! ### The write of `idle` -/

@[simp] theorem CoreState.settleIdle_active (c : CoreState) : c.settleIdle.active = c.active := rfl

theorem CoreState.settleIdle_eq_self {c : CoreState} (h : c.dev.settle = c.dev) : c.settleIdle = c := by
  rw [CoreState.settleIdle, h]
  rfl

/-! ### One cycle -/

theorem fetch_of_limit {p : Params} {c : CoreState} (h : p.memLimit ≤ c.pc) :
    fetch p c = .error ⟨.memoryLimit, 0⟩ := by
  rw [fetch, memRead_of_limit_le h, except_error_bind]

theorem fetch_below_limit {p : Params} {c : CoreState} (h : c.pc < p.memLimit) :
    fetch p c = decodeOrRaise (c.mem.read c.pc) := by
  rw [fetch, memRead_of_lt_limit h, except_ok_bind]

theorem cycle_of_decode {s : State} {i : Instr} (hpc : s.core.pc < s.params.memLimit)
    (hd : decode (s.core.mem.read s.core.pc) = .ok i) : cycle s = exec i s := by
  rw [cycle, fetch_below_limit hpc, decodeOrRaise_of_ok hd]

/-- R158: a core's step takes its first fault, or has none, and then the word at `pc` is an instruction without a
fault, which it runs. -/
theorem cycle_cases (s : State) :
    (∃ e, s.core.stepFault s.params = some e ∧ cycle s = .next (s.raise e)) ∨
      (s.core.stepFault s.params = none ∧ s.core.pc < s.params.memLimit ∧
        ∃ i, decode (s.core.mem.read s.core.pc) = .ok i ∧ instrFault s.params s.core i = none ∧
          cycle s = exec i s) := by
  unfold CoreState.stepFault
  by_cases hlim : s.params.memLimit ≤ s.core.pc
  · rw [if_pos hlim]
    exact .inl ⟨_, rfl, by rw [cycle, fetch_of_limit hlim]⟩
  · have hpc := Nat.not_le.mp hlim
    rw [if_neg hlim]
    rcases hd : decode (s.core.mem.read s.core.pc) with (_ | j | _) | i
    case error.invalidOpcode =>
      exact .inl ⟨_, rfl, by rw [cycle, fetch_below_limit hpc, decodeOrRaise_of_error hd]; rfl⟩
    case error.invalidMode =>
      exact .inl ⟨_, rfl, by rw [cycle, fetch_below_limit hpc, decodeOrRaise_of_error hd]; rfl⟩
    case error.truncated => exact absurd hd (decode_not_truncated _)
    case ok =>
      rw [cycle_of_decode hpc hd]
      cases hf : instrFault s.params s.core i with
      | some e => exact .inl ⟨e, hf, exec_of_instrFault hf⟩
      | none => exact .inr ⟨hf, hpc, i, rfl, hf, rfl⟩

/-- What one cycle can leave. -/
theorem cycle_next {s t : State} (h : cycle s = .next t) :
    (∃ e, s.core.stepFault s.params = some e ∧ t = s.raise e) ∨
      (s.core.stepFault s.params = none ∧ s.core.pc < s.params.memLimit ∧
        ∃ i, instrFault s.params s.core i = none ∧ Completes s i t) := by
  rcases cycle_cases s with ⟨e, he, hc⟩ | ⟨hn, hpc, i, -, hi, hc⟩ <;> rw [hc] at h
  · cases h
    exact .inl ⟨e, he, rfl⟩
  · obtain ⟨u, hu, hcomp⟩ := exec_of_no_instrFault hi
    rw [hu] at h
    cases h
    exact .inr ⟨hn, hpc, i, hi, hcomp⟩

/-- An instruction that completes leaves the fault register as it was. -/
theorem Completes.fcause {s t : State} {i : Instr} (h : Completes s i t) : t.core.fcause = s.core.fcause := by
  cases h <;> rfl

/-! ### The step -/

theorem step_unplanned {s : State} (h : s.schedule = []) : step s = coreTurn s := by
  rw [step, h]

theorem step_planned {s : State} {turn : Turn} {rest : List Turn} (h : s.schedule = turn :: rest) :
    step s = takeTurn turn { s with schedule := rest } := by
  rw [step, h]

/-- The step of a core is its turn, with that core in focus. -/
theorem State.CoreStep.step_eq {s u : State} (h : s.CoreStep u) : step s = coreTurn u := by
  cases h with
  | unplanned h => exact step_unplanned h
  | planned k rest h hk =>
    rw [step_planned h]
    exact if_pos hk

theorem State.CoreStep.step_active {s u : State} (h : s.CoreStep u) (hu : u.core.active = true) :
    step s = cycle (u.setCore u.core.settleIdle) := by
  rw [h.step_eq, coreTurn, if_pos hu]

/-- An active core has not faulted. -/
theorem CoreState.fcause_of_active {c : CoreState} (h : c.active = true) : c.fcause = none :=
  (c.status_eq_running_iff.mp (c.active_iff.mp h).2).1

/-- What the step of an active core can leave: its first fault, or its instruction completed. -/
theorem State.CoreStep.next {s u t : State} (h : s.CoreStep u) (hu : u.core.active = true)
    (ht : step s = .next t) :
    (∃ e, u.core.stepFault u.params = some e ∧ t = (u.setCore u.core.settleIdle).raise e) ∨
      (u.core.stepFault u.params = none ∧ t.core.fcause = none) := by
  rw [h.step_active hu] at ht
  rcases cycle_next ht with ⟨e, he, hc⟩ | ⟨hn, -, i, -, hc⟩
  · exact .inl ⟨e, he, hc⟩
  · exact .inr ⟨hn, hc.fcause.trans (CoreState.fcause_of_active hu)⟩

/-- Settles O26: a step that ends with a fault raised one, and raising writes `fcause` and `finfo` alone. -/
theorem faultEntryIsPrecise : Obligations.FaultEntryIsPrecise := by
  intro s u t hstep hu ht hfault
  rcases hstep.next hu ht with ⟨e, he, rfl⟩ | ⟨-, hnone⟩
  · exact ⟨⟨e, he, rfl, rfl⟩, rfl, rfl, rfl, rfl, rfl, rfl, rfl, rfl, .setCore u _⟩
  · exact absurd hnone hfault

/-- Settles O27: the two cases of `cycle_cases`; an instruction that completes raises nothing. -/
theorem firstFaultInOrderIsTaken : Obligations.FirstFaultInOrderIsTaken := by
  intro s u hstep hu
  rw [hstep.step_active hu]
  rcases cycle_cases (u.setCore u.core.settleIdle) with ⟨e, he, hc⟩ | ⟨hn, -, i, -, hi, hc⟩
  · replace he : u.core.stepFault u.params = some e := he
    refine ⟨fun e' he' => ?_, fun hn => ?_⟩
    · rw [he] at he'
      cases he'
      exact hc
    · rw [he] at hn
      cases hn
  · replace hn : u.core.stepFault u.params = none := hn
    refine ⟨fun e he => ?_, fun _ => ?_⟩
    · rw [hn] at he
      cases he
    · obtain ⟨t, ht, hcomp⟩ := exec_of_no_instrFault hi
      exact ⟨t, hc.trans ht, hcomp.fcause.trans (CoreState.fcause_of_active hu)⟩

end Sys2Proof.Machine
end

section
/-!
Which faults there are (R150 to R156): what each part of a step can raise, with which index, and by which
instruction.
-/
namespace Sys2Proof.Machine

/-! ### The parts of a step -/

theorem addrFault_eq_some {p : Params} {i : Fin 4} {a : Int} {e : Raise} (h : addrFault p i a = some e) :
    e = ⟨.negativeAddress, i⟩ ∨ e = ⟨.memoryLimit, i⟩ := by
  unfold addrFault at h
  split_ifs at h <;> cases h
  · exact .inl rfl
  · exact .inr rfl

theorem CoreState.valueFault_eq_some {p : Params} {c : CoreState} {i : Fin 4} {m : Mode} {e : Raise}
    (h : c.valueFault p i m = some e) : e = ⟨.negativeAddress, i⟩ ∨ e = ⟨.memoryLimit, i⟩ := by
  unfold CoreState.valueFault at h
  split_ifs at h
  · cases h
    exact .inr rfl
  · cases m with
    | immediate => cases h
    | position => exact addrFault_eq_some h
    | relative => exact addrFault_eq_some h

theorem CoreState.destFault_eq_some {p : Params} {c : CoreState} {i : Fin 4} {m : Mode} {e : Raise}
    (h : c.destFault p i m = some e) :
    (e = ⟨.negativeAddress, i⟩ ∨ e = ⟨.memoryLimit, i⟩) ∨
      (m = .immediate ∧ e = ⟨.immediateDestination, i⟩) := by
  unfold CoreState.destFault at h
  split_ifs at h
  · cases h
    exact .inl (.inr rfl)
  · cases m with
    | immediate => cases h; exact .inr ⟨rfl, rfl⟩
    | position => exact .inl (addrFault_eq_some h)
    | relative => exact .inl (addrFault_eq_some h)

theorem overflowFault_eq_some {p : Params} {z : Int} {e : Raise} (h : overflowFault p z = some e) :
    p.ovf = .fault ∧ e = ⟨.arithmeticOverflow, 0⟩ := by
  cases ho : p.ovf with
  | wrap => rw [overflowFault_of_wrap ho] at h; cases h
  | fault =>
    unfold overflowFault at h
    rw [ho] at h
    split_ifs at h
    cases h
    exact ⟨rfl, rfl⟩

theorem targetFault_eq_some {taken : Bool} {t : Word} {e : Raise} (h : targetFault taken t = some e) :
    e = ⟨.negativeAddress, 2⟩ := by
  unfold targetFault at h
  split_ifs at h
  cases h
  rfl

/-- R64: the mode digit rejected is one of the three. -/
theorem decode_invalidMode_ne_zero {w : Word} {i : Fin 4} (h : decode w = .error (.invalidMode i)) : i ≠ 0 := by
  unfold decode decodeNat at h
  split_ifs at h
  · cases h
  · split at h
    · cases h; decide
    · cases h; decide
    · cases h; decide
    · split at h <;> cases h
  · cases h

/-! ### What an instruction can raise -/

/-- What instruction `i` can raise, and when. -/
inductive Raises (p : Params) (i : Instr) : Raise → Prop where
  | limit (j : Fin 4) : Raises p i ⟨.memoryLimit, j⟩
  | negative (j : Fin 4) (hj : j ≠ 0) : Raises p i ⟨.negativeAddress, j⟩
  /-- R153: the destination of a storing instruction -/
  | destination (m1 m2 : Mode)
      (hi : i ∈ [.add m1 m2 .immediate, .multiply m1 m2 .immediate, .lessThan m1 m2 .immediate,
        .equal m1 m2 .immediate]) : Raises p i ⟨.immediateDestination, 3⟩
  /-- R153: the destination of Input -/
  | inputDestination (hi : i = .input .immediate) : Raises p i ⟨.immediateDestination, 1⟩
  /-- R156 -/
  | overflow (m1 m2 m3 : Mode) (hp : p.ovf = .fault)
      (hi : i ∈ [.add m1 m2 m3, .multiply m1 m2 m3, .changeRelative m1]) :
      Raises p i ⟨.arithmeticOverflow, 0⟩

theorem Raises.ofAddress {p : Params} {i : Instr} {j : Fin 4} {e : Raise} (hj : j ≠ 0)
    (h : e = ⟨.negativeAddress, j⟩ ∨ e = ⟨.memoryLimit, j⟩) : Raises p i e := by
  rcases h with rfl | rfl
  · exact .negative j hj
  · exact .limit j

theorem Raises.ofValue {p : Params} {c : CoreState} {i : Instr} {j : Fin 4} {m : Mode} {e : Raise} (hj : j ≠ 0)
    (h : c.valueFault p j m = some e) : Raises p i e :=
  .ofAddress hj (CoreState.valueFault_eq_some h)

theorem Raises.ofDest {p : Params} {c : CoreState} {i : Instr} {j : Fin 4} {m : Mode} {e : Raise} (hj : j ≠ 0)
    (himm : m = .immediate → Raises p i ⟨.immediateDestination, j⟩) (h : c.destFault p j m = some e) :
    Raises p i e := by
  rcases CoreState.destFault_eq_some h with h | ⟨hm, rfl⟩
  · exact .ofAddress hj h
  · exact himm hm

/-- The faults of format F3's parameters. -/
theorem Raises.ofThreeParams {p : Params} {c : CoreState} {i : Instr} {m1 m2 m3 : Mode} {e : Raise}
    (himm : m3 = .immediate → i ∈ [.add m1 m2 .immediate, .multiply m1 m2 .immediate,
      .lessThan m1 m2 .immediate, .equal m1 m2 .immediate])
    (h : some e ∈ [c.valueFault p 1 m1, c.valueFault p 2 m2, c.destFault p 3 m3]) : Raises p i e := by
  simp only [List.mem_cons, List.not_mem_nil, or_false] at h
  rcases h with h | h | h
  · exact .ofValue (by decide) h.symm
  · exact .ofValue (by decide) h.symm
  · exact .ofDest (by decide) (fun hm => .destination m1 m2 (himm hm)) h.symm

theorem Raises.ofTwoParams {p : Params} {c : CoreState} {i : Instr} {m1 m2 : Mode} {e : Raise}
    (h : some e ∈ [c.valueFault p 1 m1, c.valueFault p 2 m2]) : Raises p i e := by
  simp only [List.mem_cons, List.not_mem_nil, or_false] at h
  rcases h with h | h
  · exact .ofValue (by decide) h.symm
  · exact .ofValue (by decide) h.symm

theorem raises_of_paramFault {p : Params} {c : CoreState} {i : Instr} {e : Raise}
    (h : some e ∈ paramFaults p c i) : Raises p i e := by
  cases i with
  | add m1 m2 m3 => exact .ofThreeParams (by rintro rfl; simp) h
  | multiply m1 m2 m3 => exact .ofThreeParams (by rintro rfl; simp) h
  | lessThan m1 m2 m3 => exact .ofThreeParams (by rintro rfl; simp) h
  | equal m1 m2 m3 => exact .ofThreeParams (by rintro rfl; simp) h
  | input m1 =>
    exact .ofDest (j := 1) (by decide) (by rintro rfl; exact .inputDestination rfl)
      (List.mem_singleton.mp h).symm
  | output m1 => exact .ofValue (j := 1) (by decide) (List.mem_singleton.mp h).symm
  | jumpTrue m1 m2 => exact .ofTwoParams h
  | jumpFalse m1 m2 => exact .ofTwoParams h
  | changeRelative m1 => exact .ofValue (j := 1) (by decide) (List.mem_singleton.mp h).symm
  | halt => cases h

theorem raises_of_executeFault {p : Params} {c : CoreState} {i : Instr} {e : Raise}
    (h : executeFault p c i = some e) : Raises p i e := by
  cases i with
  | add m1 m2 m3 =>
    obtain ⟨hp, rfl⟩ := overflowFault_eq_some h
    exact .overflow m1 m2 m3 hp (by simp)
  | multiply m1 m2 m3 =>
    obtain ⟨hp, rfl⟩ := overflowFault_eq_some h
    exact .overflow m1 m2 m3 hp (by simp)
  | changeRelative m1 =>
    obtain ⟨hp, rfl⟩ := overflowFault_eq_some h
    exact .overflow m1 m1 m1 hp (by simp)
  | jumpTrue m1 m2 =>
    obtain rfl := targetFault_eq_some h
    exact .negative 2 (by decide)
  | jumpFalse m1 m2 =>
    obtain rfl := targetFault_eq_some h
    exact .negative 2 (by decide)
  | input m1 => cases h
  | output m1 => cases h
  | lessThan m1 m2 m3 => cases h
  | equal m1 m2 m3 => cases h
  | halt => cases h

theorem raises_of_instrFault {p : Params} {c : CoreState} {i : Instr} {e : Raise}
    (h : instrFault p c i = some e) : Raises p i e := by
  rcases List.mem_append.mp (mem_of_firstFault h) with h | h
  · exact raises_of_paramFault h
  · exact raises_of_executeFault (List.mem_singleton.mp h).symm

/-- R150: what an instruction raises has a `finfo` that fits. -/
theorem Raises.fits {p : Params} {i : Instr} {e : Raise} (h : Raises p i e) :
    finfoFits (some e.fault) e.info = true := by
  cases h with
  | negative j hj => exact decide_eq_true hj
  | _ => rfl

/-! ### What a step can raise -/

/-- R158: the fetch, the opcode or the mode digits fault, or the instruction at `pc` does. -/
theorem CoreState.stepFault_cases {p : Params} {c : CoreState} {e : Raise} (h : c.stepFault p = some e) :
    e = ⟨.memoryLimit, 0⟩ ∨ e = ⟨.invalidOpcode, 0⟩ ∨ (∃ j, j ≠ 0 ∧ e = ⟨.invalidMode, j⟩) ∨
      ∃ i, decode (c.mem.read c.pc) = .ok i ∧ Raises p i e := by
  unfold CoreState.stepFault at h
  split_ifs at h
  · cases h
    exact .inl rfl
  · rcases hd : decode (c.mem.read c.pc) with (_ | j | _) | i <;> rw [hd] at h
    case error.invalidOpcode => cases h; exact .inr (.inl rfl)
    case error.invalidMode => cases h; exact .inr (.inr (.inl ⟨j, decode_invalidMode_ne_zero hd, rfl⟩))
    case error.truncated => cases h
    case ok => exact .inr (.inr (.inr ⟨i, rfl, raises_of_instrFault h⟩))

/-- R150: a step's fault has a `finfo` that fits. -/
theorem CoreState.stepFault_fits {p : Params} {c : CoreState} {e : Raise} (h : c.stepFault p = some e) :
    finfoFits (some e.fault) e.info = true := by
  rcases CoreState.stepFault_cases h with rfl | rfl | ⟨j, hj, rfl⟩ | ⟨i, -, hr⟩
  · rfl
  · rfl
  · exact decide_eq_true hj
  · exact hr.fits

theorem CoreState.stepFault_immediateDestination {p : Params} {c : CoreState} {e : Raise}
    (h : c.stepFault p = some e) (hf : e.fault = .immediateDestination) :
    (∃ m1 m2, e.info = 3 ∧
      decode (c.mem.read c.pc) ∈
        [.ok (Instr.add m1 m2 .immediate), .ok (Instr.multiply m1 m2 .immediate),
          .ok (Instr.lessThan m1 m2 .immediate), .ok (Instr.equal m1 m2 .immediate)]) ∨
      (e.info = 1 ∧ decode (c.mem.read c.pc) = .ok (.input .immediate)) := by
  rcases CoreState.stepFault_cases h with rfl | rfl | ⟨j, hj, rfl⟩ | ⟨i, hd, hr⟩
  · cases hf
  · cases hf
  · cases hf
  · cases hr with
    | destination m1 m2 hi => exact .inl ⟨m1, m2, rfl, by simpa [hd] using hi⟩
    | inputDestination hi => exact .inr ⟨rfl, by rw [hd, hi]⟩
    | _ => cases hf

theorem CoreState.stepFault_arithmeticOverflow {p : Params} {c : CoreState} {e : Raise}
    (h : c.stepFault p = some e) (hf : e.fault = .arithmeticOverflow) :
    p.ovf = .fault ∧ ∃ m1 m2 m3, decode (c.mem.read c.pc) ∈
      [.ok (Instr.add m1 m2 m3), .ok (Instr.multiply m1 m2 m3), .ok (Instr.changeRelative m1)] := by
  rcases CoreState.stepFault_cases h with rfl | rfl | ⟨j, hj, rfl⟩ | ⟨i, hd, hr⟩
  · cases hf
  · cases hf
  · cases hf
  · cases hr with
    | overflow m1 m2 m3 hp hi => exact ⟨hp, m1, m2, m3, by simpa [hd] using hi⟩
    | _ => cases hf

/-- Settles O28: the codes are those of the definition; the rest is read off the fault of the step. -/
theorem faultCodesAndInfo : Obligations.FaultCodesAndInfo := by
  refine ⟨rfl, rfl, rfl, rfl, rfl, rfl, fun s u t f hstep hu ht hf => ?_⟩
  rcases hstep.next hu ht with ⟨e, he, rfl⟩ | ⟨-, hnone⟩
  · obtain rfl : e.fault = f := Option.some.inj hf
    exact ⟨rfl, CoreState.stepFault_fits he, CoreState.stepFault_immediateDestination he,
      CoreState.stepFault_arithmeticOverflow he⟩
  · rw [hnone] at hf
    cases hf

end Sys2Proof.Machine
end

section
/-!
The addresses an instruction without a fault reads and writes lie below the limit (R45), and the invariant of an
instance is kept by each operation an instruction is made of, so by every cycle (R22, R27, R32).
-/
namespace Sys2Proof.Machine

/-! ### Addresses below the limit -/

theorem toNat_lt_of_addrFault {p : Params} {i : Fin 4} {a : Int} (h : addrFault p i a = none) :
    a.toNat < p.memLimit := by
  unfold addrFault at h
  split_ifs at h
  omega

theorem CoreState.lt_limit_of_valueFault {p : Params} {c : CoreState} {i : Fin 4} {m : Mode}
    (h : c.valueFault p i m = none) :
    c.pc + i.val < p.memLimit ∧ ∀ a ∈ c.valueReads i m, a < p.memLimit := by
  unfold CoreState.valueFault at h
  split_ifs at h with hlim
  have hparam := Nat.not_le.mp hlim
  refine ⟨hparam, ?_⟩
  cases m with
  | immediate => simpa [CoreState.valueReads] using hparam
  | position => simpa [CoreState.valueReads] using ⟨hparam, toNat_lt_of_addrFault h⟩
  | relative => simpa [CoreState.valueReads] using ⟨hparam, toNat_lt_of_addrFault h⟩

theorem CoreState.lt_limit_of_destFault {p : Params} {c : CoreState} {i : Fin 4} {m : Mode}
    (h : c.destFault p i m = none) : c.pc + i.val < p.memLimit ∧ c.destAddr i m < p.memLimit := by
  unfold CoreState.destFault at h
  split_ifs at h with hlim
  refine ⟨Nat.not_le.mp hlim, ?_⟩
  cases m with
  | immediate => cases h
  | position => exact toNat_lt_of_addrFault h
  | relative => exact toNat_lt_of_addrFault h

/-- No fault of the instruction: none of a parameter. -/
theorem paramFaults_none {p : Params} {c : CoreState} {i : Instr} (h : instrFault p c i = none) :
    ∀ o ∈ paramFaults p c i, o = none := fun o ho =>
  (firstFault_eq_none_iff _).mp h o (List.mem_append_left _ ho)

/-- R60: a three-parameter instruction without a fault has none in its two values and its destination. -/
theorem faults_none_of_three {p : Params} {c : CoreState} {i : Instr} {m1 m2 m3 : Mode}
    (hi : i.params = [(.value, m1), (.value, m2), (.destination, m3)]) (h : instrFault p c i = none) :
    c.valueFault p 1 m1 = none ∧ c.valueFault p 2 m2 = none ∧ c.destFault p 3 m3 = none := by
  have hl : paramFaults p c i = [c.valueFault p 1 m1, c.valueFault p 2 m2, c.destFault p 3 m3] := by
    rcases Instr.storing_of_params hi with rfl | rfl | rfl | rfl <;> rfl
  simpa [hl] using paramFaults_none h

theorem faults_none_of_two {p : Params} {c : CoreState} {i : Instr} {m1 m2 : Mode}
    (hi : i.params = [(.value, m1), (.value, m2)]) (h : instrFault p c i = none) :
    c.valueFault p 1 m1 = none ∧ c.valueFault p 2 m2 = none := by
  have hl : paramFaults p c i = [c.valueFault p 1 m1, c.valueFault p 2 m2] := by
    rcases Instr.jump_of_params hi with rfl | rfl <;> rfl
  simpa [hl] using paramFaults_none h

section
variable {p : Params} {c : CoreState} {m1 m2 m3 : Mode} (hpc : c.pc < p.memLimit)
include hpc

theorem reads_lt_of_value (h1 : c.valueFault p 1 m1 = none) :
    ∀ a ∈ c.pc :: c.valueReads 1 m1, a < p.memLimit :=
  List.forall_mem_cons.mpr ⟨hpc, (CoreState.lt_limit_of_valueFault h1).2⟩

theorem reads_lt_of_two (h1 : c.valueFault p 1 m1 = none) (h2 : c.valueFault p 2 m2 = none) :
    ∀ a ∈ c.pc :: c.valueReads 1 m1 ++ c.valueReads 2 m2, a < p.memLimit :=
  List.forall_mem_append.mpr ⟨reads_lt_of_value hpc h1, (CoreState.lt_limit_of_valueFault h2).2⟩

theorem reads_lt_of_three (h1 : c.valueFault p 1 m1 = none) (h2 : c.valueFault p 2 m2 = none)
    (h3 : c.destFault p 3 m3 = none) :
    ∀ a ∈ c.pc :: c.valueReads 1 m1 ++ c.valueReads 2 m2 ++ [c.pc + 3], a < p.memLimit :=
  List.forall_mem_append.mpr ⟨reads_lt_of_two hpc h1 h2,
    List.forall_mem_singleton.mpr (CoreState.lt_limit_of_destFault h3).1⟩

/-- R45: every address an instruction without a fault reads, its own included, is below the limit. -/
theorem instrReads_lt_limit {i : Instr} (h : instrFault p c i = none) :
    ∀ a ∈ instrReads c i, a < p.memLimit := by
  have hparam := paramFaults_none h
  cases i with
  | add n1 n2 n3 =>
    obtain ⟨h1, h2, h3⟩ := faults_none_of_three rfl h
    exact reads_lt_of_three hpc h1 h2 h3
  | multiply n1 n2 n3 =>
    obtain ⟨h1, h2, h3⟩ := faults_none_of_three rfl h
    exact reads_lt_of_three hpc h1 h2 h3
  | lessThan n1 n2 n3 =>
    obtain ⟨h1, h2, h3⟩ := faults_none_of_three rfl h
    exact reads_lt_of_three hpc h1 h2 h3
  | equal n1 n2 n3 =>
    obtain ⟨h1, h2, h3⟩ := faults_none_of_three rfl h
    exact reads_lt_of_three hpc h1 h2 h3
  | jumpTrue n1 n2 =>
    obtain ⟨h1, h2⟩ := faults_none_of_two rfl h
    exact reads_lt_of_two hpc h1 h2
  | jumpFalse n1 n2 =>
    obtain ⟨h1, h2⟩ := faults_none_of_two rfl h
    exact reads_lt_of_two hpc h1 h2
  | output n1 => exact reads_lt_of_value hpc (hparam _ (List.mem_singleton_self _))
  | changeRelative n1 => exact reads_lt_of_value hpc (hparam _ (List.mem_singleton_self _))
  | input n1 =>
    have hdest : c.destFault p 1 n1 = none := hparam _ (List.mem_singleton_self _)
    exact List.forall_mem_cons.mpr
      ⟨hpc, List.forall_mem_singleton.mpr (CoreState.lt_limit_of_destFault hdest).1⟩
  | halt => exact List.forall_mem_singleton.mpr hpc

end

/-! ### The invariant, an operation at a time -/

namespace CoreState.Inv

variable {p : Params} {c : CoreState}

theorem reading (h : c.Inv p) {l : List Nat} (hl : ∀ a ∈ l, a < p.memLimit) : (c.reading l).Inv p :=
  { h with
    zeroPast := fun a ha => h.zeroPast a ((c.lengthAfter_ge l).trans ha)
    lengthLe := c.lengthAfter_le l _ h.lengthLe hl }

/-- The cells past the new length are past the old one, and are not the one written. -/
theorem memWrite (h : c.Inv p) {a : Nat} (ha : a < p.memLimit) (v : Word) : (c.memWrite a v).Inv p :=
  { h with
    canonical := c.memWrite_wf a v h.canonical
    zeroPast := fun b hb => by
      rw [CoreState.memWrite_mlen, max_le_iff] at hb
      rw [CoreState.memWrite_mem, Memory.read_write_ne _ _ (by omega)]
      exact h.zeroPast b hb.1
    lengthLe := by
      rw [CoreState.memWrite_mlen]
      exact max_le h.lengthLe ha }

theorem jump (h : c.Inv p) {n : Nat} (hn : n ≤ 9223372036854775807) : (c.jump n).Inv p :=
  { h with pcLe := hn }

theorem advance (h : c.Inv p) {n : Nat} (hn : c.pc + n ≤ 9223372036854775807) : (c.advance n).Inv p :=
  { h with pcLe := hn }

theorem setRb (h : c.Inv p) (v : Word) : (c.setRb v).Inv p := { h with }

theorem setDev (h : c.Inv p) (d : Device) : (c.setDev d).Inv p := { h with }

theorem settleIdle (h : c.Inv p) : c.settleIdle.Inv p := h.setDev _

/-- R32: a core halts without a fault, and only once it has been run. -/
theorem halt (h : c.Inv p) (hcause : c.fcause = none) (hstarted : c.started = true) : c.halt.Inv p :=
  { h with
    haltedClean := fun _ => hcause
    releasedHalted := fun _ => rfl
    unrunRunning := fun hn => absurd hn (by simp [hstarted]) }

/-- R25, R150: a core that is not halted and has been run takes a fault with a `finfo` that fits. -/
theorem raise (h : c.Inv p) {e : Raise} (hhalted : c.halted = false) (hstarted : c.started = true)
    (hfits : finfoFits (some e.fault) e.info = true) : (c.raise e).Inv p :=
  { h with
    haltedClean := fun hn => absurd hn (by simp [hhalted])
    infoFits := hfits
    unrunRunning := fun hn => absurd hn (by simp [hstarted]) }

/-- R126: only a halted core releases its handles. -/
theorem release (h : c.Inv p) (hhalted : c.halted = true) : CoreState.Inv p { c with released := true } :=
  { h with releasedHalted := fun _ => hhalted }

theorem start (h : c.Inv p) : c.start.Inv p := { h with unrunRunning := nofun }

end CoreState.Inv

/-! ### The invariant, a cycle at a time -/

theorem Word.toInt_toNat_le (w : Word) : w.toInt.toNat ≤ 9223372036854775807 := by
  have h := (Word.toInt_bounds w).2
  simp only [Word.maxZ] at h
  omega

/-- An instruction that completes keeps the invariant of its core. -/
theorem Completes.inv {s t : State} {i : Instr} (h : Completes s i t) (hp : s.params.legal)
    (hinv : s.core.Inv s.params) (hact : s.core.active = true) (hpc : s.core.pc < s.params.memLimit)
    (hf : instrFault s.params s.core i = none) : t.core.Inv s.params := by
  have hlimit := hp.2
  have hread := hinv.reading (instrReads_lt_limit hpc hf)
  have hcause := CoreState.fcause_of_active hact
  have hstarted := (s.core.active_iff.mp hact).1
  have hparam := paramFaults_none hf
  cases h with
  | store m1 m2 m3 r hi =>
    obtain ⟨-, -, h3⟩ := faults_none_of_three hi hf
    obtain ⟨hpc3, hdest⟩ := CoreState.lt_limit_of_destFault h3
    have hpc4 : s.core.pc + 4 ≤ 9223372036854775807 := le_trans hpc3 hlimit
    exact (hread.memWrite hdest r).advance hpc4
  | jump m1 m2 hi => exact hread.jump (Word.toInt_toNat_le _)
  | pass m1 m2 hi =>
    obtain ⟨-, h2⟩ := faults_none_of_two hi hf
    have hpc3 : s.core.pc + 3 ≤ 9223372036854775807 :=
      le_trans (CoreState.lt_limit_of_valueFault h2).1 hlimit
    exact hread.advance hpc3
  | adjust m1 r =>
    have h1 : s.core.valueFault s.params 1 m1 = none := hparam _ (List.mem_singleton_self _)
    have hpc2 : s.core.pc + 2 ≤ 9223372036854775807 :=
      le_trans (CoreState.lt_limit_of_valueFault h1).1 hlimit
    exact (hread.setRb r).advance hpc2
  | halt => exact (hread.halt hcause hstarted).advance (le_trans hpc hlimit)
  | get m1 v u hget =>
    have h1 : s.core.destFault s.params 1 m1 = none := hparam _ (List.mem_singleton_self _)
    obtain ⟨hpc1, hdest⟩ := CoreState.lt_limit_of_destFault h1
    have hpc2 : s.core.pc + 2 ≤ 9223372036854775807 := le_trans hpc1 hlimit
    exact ((hread.setDev u.core.dev).memWrite hdest v).advance hpc2
  | getFail m1 u hget => exact (hread.setDev u.core.dev).halt hcause hstarted
  | getWait m1 u hget => exact hinv
  | put m1 u hput =>
    have h1 : s.core.valueFault s.params 1 m1 = none := hparam _ (List.mem_singleton_self _)
    have hpc2 : s.core.pc + 2 ≤ 9223372036854775807 :=
      le_trans (CoreState.lt_limit_of_valueFault h1).1 hlimit
    exact (hread.setDev u.core.dev).advance hpc2
  | putFail m1 u hput => exact (hread.setDev u.core.dev).halt hcause hstarted

theorem cycle_inv {s t : State} (hp : s.params.legal) (hinv : s.core.Inv s.params)
    (hact : s.core.active = true) (h : cycle s = .next t) : t.core.Inv s.params := by
  rcases cycle_next h with ⟨e, he, rfl⟩ | ⟨-, hpc, i, hf, hc⟩
  · obtain ⟨hstarted, hstatus⟩ := s.core.active_iff.mp hact
    exact hinv.raise (s.core.status_eq_running_iff.mp hstatus).2 hstarted (CoreState.stepFault_fits he)
  · exact hc.inv hp hinv hact hpc hf

/-! ### The invariant, a step at a time -/

/-- R126: `Release` is enabled only for a Halted instance with handles it has not released. -/
theorem releaseHandles_eq_some_iff (c : CoreState) (h : Nat × Nat) :
    releaseHandles c = some h ↔ c.status = .halted ∧ c.released = false ∧ c.dev.handles = some h := by
  unfold releaseHandles
  cases c.status <;> cases c.released <;> simp

theorem InstanceStep.inv {s : State} {k : Nat} {c c' : CoreState} (h : InstanceStep s k c c')
    (hp : s.params.legal) (hinv : c.Inv s.params) : c'.Inv s.params := by
  cases h with
  | same => exact hinv
  | settle => exact hinv.settleIdle
  | release hr =>
    obtain ⟨x, hx⟩ := Option.ne_none_iff_exists'.mp hr
    obtain ⟨hstatus, -, -⟩ := (releaseHandles_eq_some_iff c x).mp hx
    exact hinv.release (c.status_eq_halted_iff.mp hstatus).2
  | start => exact hinv.start
  | run hr turn u v hup huc hv =>
    rw [← hup] at hp hinv ⊢
    exact cycle_inv hp (huc ▸ hinv.settleIdle) (by rw [huc, CoreState.settleIdle_active, hr]) hv

/-- R34: an instance right after the load of a program that fits meets the invariant. -/
theorem CoreState.load_inv {p : Params} {program : List Word} (h : program.length ≤ p.memLimit) (d : Device) :
    (CoreState.load program d).Inv p where
  canonical := Memory.wf_ofWords 0 program
  zeroPast a ha := by
    rw [CoreState.load_mem_read]
    exact List.getD_eq_default program _ ha
  lengthLe := h
  pcLe := Nat.zero_le _
  haltedClean _ := rfl
  infoFits := rfl
  releasedHalted := nofun
  unrunRunning _ := rfl

theorem Loaded.inv {p : Params} {c : CoreState} (h : Loaded p c) : c.Inv p := by
  obtain ⟨program, d, hl, rfl | rfl⟩ := h
  · exact CoreState.load_inv hl d
  · exact (CoreState.load_inv hl d).start

/-- Settles O55: each instance of the next state is one of the old ones, changed as `InstanceStep` says, or newly
loaded. -/
theorem stepKeepsInvariant : Obligations.StepKeepsInvariant := by
  intro s t hinv h
  obtain ⟨hparams, heach, hfresh⟩ := step_instances h
  refine ⟨hparams ▸ hinv.legal, fun c' hc' => ?_⟩
  rw [hparams]
  obtain ⟨k, hk⟩ := List.mem_iff_getElem?.mp hc'
  cases hs : s.instances[k]? with
  | none => exact (hfresh k c' hk hs).inv
  | some c =>
    obtain ⟨d, hd, hstep⟩ := heach k c hs
    obtain rfl : c' = d := Option.some.inj (hk.symm.trans hd)
    exact hstep.inv hinv.legal (hinv.each c (List.mem_of_getElem? hs))

/-- Settles O54: a load that fits meets the invariant, and `State.reset` is one of the empty program. -/
theorem resetMeetsInvariant : Obligations.ResetMeetsInvariant := by
  have hload : ∀ (p : Params) (program : List Word) (d : Device), p.legal → program.length ≤ p.memLimit →
      (State.loaded p program d).Inv := fun p program d hp hl =>
    ⟨hp, fun c hc => by
      obtain rfl : c = CoreState.load program d := List.mem_singleton.mp hc
      exact CoreState.load_inv hl d⟩
  exact ⟨hload _ [] .inert ⟨by decide, by decide⟩ (Nat.zero_le _), ⟨_, .inert, rfl⟩, hload⟩

end Sys2Proof.Machine
end

section
/-!
What every step keeps of every instance (R5, R20, R24, R25, R27, R33, R183), read off `step_instances`.
-/
namespace Sys2Proof.Machine

theorem Device.settle_binding (d : Device) : d.settle.binding = d.binding := by
  cases d with
  | nonblocking cin cout first idle owed => cases owed <;> rfl
  | _ => rfl

/-- An instruction that completes keeps the binding of its device and what the `idle` cell has held. -/
theorem Completes.device {s t : State} {i : Instr} (h : Completes s i t) :
    t.core.dev.binding = s.core.dev.binding ∧ t.core.dev.idleCell = s.core.dev.idleCell := by
  cases h with
  | get m1 v u h => exact ⟨(portStep_of_ioGet h).binding, (portStep_of_ioGet h).idleCell⟩
  | getFail m1 u h => exact ⟨(portStep_of_ioGet h).binding, (portStep_of_ioGet h).idleCell⟩
  | put m1 u h => exact ⟨(portStep_of_ioPut h).binding, (portStep_of_ioPut h).idleCell⟩
  | putFail m1 u h => exact ⟨(portStep_of_ioPut h).binding, (portStep_of_ioPut h).idleCell⟩
  | _ => exact ⟨rfl, rfl⟩

theorem cycle_device {s t : State} (h : cycle s = .next t) :
    t.core.dev.binding = s.core.dev.binding ∧ t.core.dev.idleCell = s.core.dev.idleCell := by
  rcases cycle_next h with ⟨e, -, rfl⟩ | ⟨-, -, i, -, hc⟩
  · exact ⟨rfl, rfl⟩
  · exact hc.device

/-- Settles O56: `step_instances`, and of the ways an instance changes only its own cycle and the write of `idle`
touch the device, neither its binding. -/
theorem parametersAndBindingsNeverChange : Obligations.ParametersAndBindingsNeverChange := by
  intro s t h
  obtain ⟨hparams, heach, -⟩ := step_instances h
  refine ⟨hparams, fun k c hk => ?_⟩
  obtain ⟨c', hc', hstep⟩ := heach k c hk
  refine ⟨c', hc', ?_⟩
  cases hstep with
  | same => rfl
  | settle => exact c.dev.settle_binding
  | release hr => rfl
  | start => rfl
  | run hr turn u v hup huc hv => rw [(cycle_device hv).1, huc]; exact c.dev.settle_binding

/-- Settles O57: a faulted instance neither releases nor runs a cycle. -/
theorem faultIsSticky : Obligations.FaultIsSticky := by
  intro s t k c h hk hfault
  obtain ⟨c', hc', hstep⟩ := (step_instances h).each k c hk
  refine ⟨c', hc', ?_⟩
  cases hstep with
  | same => exact ⟨.refl c, rfl, .inl rfl⟩
  | settle => exact ⟨⟨rfl, rfl, rfl, rfl, rfl, rfl, rfl⟩, rfl, .inr (.inl rfl)⟩
  | release hr =>
    obtain ⟨x, hx⟩ := Option.ne_none_iff_exists'.mp hr
    obtain ⟨hstatus, -, -⟩ := (releaseHandles_eq_some_iff c x).mp hx
    exact absurd (c.status_eq_halted_iff.mp hstatus).1 hfault
  | start => exact ⟨⟨rfl, rfl, rfl, rfl, rfl, rfl, rfl⟩, rfl, .inr (.inr rfl)⟩
  | run hr turn u v hup huc hv => exact absurd (CoreState.fcause_of_active hr) hfault

/-- Settles O58: of the ways an instance changes only its own cycle touches memory or registers. -/
theorem otherAgentsLeaveCoreAlone : Obligations.OtherAgentsLeaveCoreAlone := by
  intro s t k c h hk hfocus hplanned
  obtain ⟨c', hc', hstep⟩ := (step_instances h).each k c hk
  refine ⟨c', hc', ?_⟩
  cases hstep with
  | same => exact .refl c
  | settle => exact ⟨rfl, rfl, rfl, rfl, rfl, rfl, rfl⟩
  | release hr => exact ⟨rfl, rfl, rfl, rfl, rfl, rfl, rfl⟩
  | start => exact ⟨rfl, rfl, rfl, rfl, rfl, rfl, rfl⟩
  | run hr turn u v hup huc hv =>
    rcases turn with ⟨hs, hk'⟩ | ⟨rest, hs⟩
    · exact absurd hk' (hfocus hs)
    · exact absurd hs (hplanned rest)

/-- Nothing an instruction does shortens the store, or clears a bit that stays set. -/
theorem Completes.grows {s t : State} {i : Instr} (h : Completes s i t) :
    s.core.mlen ≤ t.core.mlen ∧ (s.core.halted = true → t.core.halted = true) ∧
      t.core.released = s.core.released ∧ t.core.started = s.core.started := by
  have hread := s.core.lengthAfter_ge (instrReads s.core i)
  cases h with
  | store m1 m2 m3 r hi => exact ⟨hread.trans (le_max_left _ _), id, rfl, rfl⟩
  | get m1 v u hget => exact ⟨hread.trans (le_max_left _ _), id, rfl, rfl⟩
  | halt => exact ⟨hread, fun _ => rfl, rfl, rfl⟩
  | getFail m1 u hget => exact ⟨hread, fun _ => rfl, rfl, rfl⟩
  | putFail m1 u hput => exact ⟨hread, fun _ => rfl, rfl, rfl⟩
  | getWait m1 u hget => exact ⟨le_rfl, id, rfl, rfl⟩
  | jump m1 m2 hi => exact ⟨hread, id, rfl, rfl⟩
  | pass m1 m2 hi => exact ⟨hread, id, rfl, rfl⟩
  | adjust m1 r => exact ⟨hread, id, rfl, rfl⟩
  | put m1 u hput => exact ⟨hread, id, rfl, rfl⟩

theorem cycle_grows {s t : State} (h : cycle s = .next t) :
    s.core.mlen ≤ t.core.mlen ∧ (s.core.halted = true → t.core.halted = true) ∧
      t.core.released = s.core.released ∧ t.core.started = s.core.started := by
  rcases cycle_next h with ⟨e, -, rfl⟩ | ⟨-, -, i, -, hc⟩
  · exact ⟨le_rfl, id, rfl, rfl⟩
  · exact hc.grows

/-- Settles O59: each way an instance changes, by itself. -/
theorem lengthGrowsAndHaltedStays : Obligations.LengthGrowsAndHaltedStays := by
  intro s t k c h hk
  obtain ⟨c', hc', hstep⟩ := (step_instances h).each k c hk
  refine ⟨c', hc', ?_⟩
  cases hstep with
  | same => exact ⟨le_rfl, id, id, id, fun _ => id⟩
  | settle => exact ⟨le_rfl, id, id, id, fun _ => c.dev.held_settle⟩
  | release hr => exact ⟨le_rfl, id, fun _ => rfl, id, fun _ => id⟩
  | start => exact ⟨le_rfl, id, id, fun _ => rfl, fun _ => id⟩
  | run hr turn u v hup huc hv =>
    obtain ⟨hlen, hhalted, hreleased, hstarted⟩ := cycle_grows hv
    have hcell := (cycle_device hv).2
    rw [huc] at hlen hhalted hreleased hstarted hcell
    exact ⟨hlen, hhalted, hreleased.trans, hstarted.trans, fun b hb => hcell ▸ c.dev.held_settle hb⟩

end Sys2Proof.Machine
end

section
/-!
The fields of a decoded word (R61), and the word the encoder gives back (R72, R74).
-/
namespace Sys2Proof

/-- The instruction of an opcode has the modes it is given, in order. -/
theorem instrOfOpcode_modeDigit {op : Nat} {m1 m2 m3 : Mode} {i : Instr}
    (h : instrOfOpcode op m1 m2 m3 = some i) :
    (0 < i.params.length → i.modeDigit 0 = m1.digit) ∧
      (1 < i.params.length → i.modeDigit 1 = m2.digit) ∧
      (2 < i.params.length → i.modeDigit 2 = m3.digit) := by
  unfold instrOfOpcode at h
  split at h <;> cases h <;> simp [Instr.params, Instr.modeDigit]

theorem Instr.params_length_le (i : Instr) : i.params.length ≤ 3 := by
  cases i <;> simp [Instr.params]

theorem Instr.modeDigit_of_length_le {i : Instr} {k : Nat} (h : i.params.length ≤ k) : i.modeDigit k = 0 := by
  rw [Instr.modeDigit, List.getElem?_eq_none h]

theorem decode_nonneg {w : Word} {i : Instr} (h : decode w = .ok i) : 0 ≤ w.toInt := by
  by_contra hneg
  rw [decode_of_neg (Int.not_le.mp hneg)] at h
  cases h

/-- R61: the opcode and the modes of a word that decodes are its decimal digits. -/
theorem decode_fields {w : Word} {i : Instr} (h : decode w = .ok i) :
    i.opcode = w.toNat % 100 ∧
      ∀ k, k < i.params.length → i.modeDigit k = w.toNat / 10 ^ (k + 2) % 10 := by
  rw [decode_of_nonneg (decode_nonneg h)] at h
  obtain ⟨m1, m2, m3, h1, h2, h3, hi⟩ := decodeNat_ok h
  obtain ⟨d0, d1, d2⟩ := instrOfOpcode_modeDigit hi
  refine ⟨instrOfOpcode_opcode hi, fun k hk => ?_⟩
  have hk3 : k < 3 := lt_of_lt_of_le hk i.params_length_le
  match k with
  | 0 => exact (d0 hk).trans (modeOfDigit_digit h1)
  | 1 => exact (d1 hk).trans (modeOfDigit_digit h2)
  | 2 => exact (d2 hk).trans (modeOfDigit_digit h3)

/-- Settles O2: the sign by the decoder's first check, the rest by `decode_fields`. -/
theorem decodedFieldsAreDecimalDigits : Obligations.DecodedFieldsAreDecimalDigits := by
  intro w i h
  exact ⟨decode_nonneg h, decode_fields h⟩

/-- Settles O5: below 100000 a word is its opcode and its three mode digits, which are the instruction's, also where
it has no parameter. -/
theorem encodeGivesBackCanonicalWord : Obligations.EncodeGivesBackCanonicalWord := by
  intro w i h hw hzero
  obtain ⟨hop, hmodes⟩ := decode_fields h
  have hdigit : ∀ k < 3, i.modeDigit k = w.toNat / 10 ^ (k + 2) % 10 := fun k hk => by
    rcases Nat.lt_or_ge k i.params.length with hlt | hge
    · exact hmodes k hlt
    · rw [Instr.modeDigit_of_length_le hge, hzero k hge hk]
  have h0 := hdigit 0 (by decide)
  have h1 := hdigit 1 (by decide)
  have h2 := hdigit 2 (by decide)
  have hnat : encodeNat i = w.toNat := by
    unfold encodeNat
    omega
  rw [encode, hnat, BitVec.ofNat_toNat, BitVec.setWidth_eq]

end Sys2Proof
end

section
/-!
A write to memory (R43, R44), and the uniqueness of the canonical form.
-/
namespace Sys2Proof.Machine

/-- Settles O7: the read after the write, and the growth in the words of R43. -/
theorem writeThenReadAndGrowth : Obligations.WriteThenReadAndGrowth := by
  intro c a v hwf
  have hother : ∀ b, b ≠ a → (c.memWrite a v).mem.read b = c.mem.read b := fun b hb =>
    Memory.read_write_ne c.mem v hb
  refine ⟨?_, hother, congrArg CoreState.mlen (c.grow_eq_ite a), fun hzero b hb hne => ?_,
    c.memWrite_wf a v hwf, rfl, rfl, rfl, rfl, rfl⟩
  · rw [CoreState.memWrite_mem, Memory.read_write _ hwf, if_pos rfl]
  · rw [hother b hne, hzero b hb]

/-- The head of a canonical memory reads its word, which is not 0. -/
theorem Memory.read_head_ne_zero {k : Nat} {v : Word} {m : Memory}
    (h : Memory.wf ((k, v) :: m) = true) : Memory.read ((k, v) :: m) k ≠ 0#64 := by
  rw [Memory.read_cons, if_pos rfl]
  exact ((Memory.wf_cons k v m).mp h).1

/-- Every address below the head of a canonical memory reads 0. -/
theorem Memory.read_below_head {k : Nat} {v : Word} {m : Memory} (h : Memory.wf ((k, v) :: m) = true)
    {a : Nat} (ha : a < k) : Memory.read ((k, v) :: m) a = 0#64 := by
  rw [Memory.read_cons, if_neg ha.ne]
  exact Memory.read_of_above ((Memory.wf_cons k v m).mp h).2.1 ha.le

/-- Settles O9: the two lists have the same first address, as the lower one would read 0 in the other memory; then the
same word there, and the rest read alike. -/
theorem equalReadsMeanEqualMemories : Obligations.EqualReadsMeanEqualMemories := by
  intro m
  induction m with
  | nil =>
    intro n _ hn h
    cases n with
    | nil => rfl
    | cons y n => exact absurd (h y.1).symm (Memory.read_head_ne_zero hn)
  | cons x m ih =>
    intro n hm hn h
    obtain ⟨k, v⟩ := x
    cases n with
    | nil => exact absurd (h k) (Memory.read_head_ne_zero hm)
    | cons y n =>
      obtain ⟨k', v'⟩ := y
      have hk : k = k' := by
        rcases Nat.lt_trichotomy k k' with hlt | heq | hgt
        · exact absurd ((h k).trans (Memory.read_below_head hn hlt)) (Memory.read_head_ne_zero hm)
        · exact heq
        · exact absurd ((h k').symm.trans (Memory.read_below_head hm hgt)) (Memory.read_head_ne_zero hn)
      subst hk
      have hv : v = v' := by simpa [Memory.read_cons] using h k
      obtain ⟨-, habove, hwf⟩ := (Memory.wf_cons k v m).mp hm
      obtain ⟨-, habove', hwf'⟩ := (Memory.wf_cons k v' n).mp hn
      have hrest : ∀ a, Memory.read m a = Memory.read n a := fun a => by
        rcases Nat.lt_or_ge k a with hlt | hle
        · simpa [Memory.read_cons, hlt.ne'] using h a
        · rw [Memory.read_of_above habove hle, Memory.read_of_above habove' hle]
      rw [hv, ih n hwf hwf' hrest]

end Sys2Proof.Machine
end

section
/-!
The step of a core in its parts: the instruction at `pc` (R69), the core that takes no step (R32, R160, R183), the
fetch of what was just stored (R52), and the core blocked at its port (R112).
-/
namespace Sys2Proof.Machine

/-- R168: an instance's planned turn is the step of the state with that instance in focus. -/
theorem State.coreStep_planned {s : State} {k : Nat} {rest : List Turn} {c : CoreState}
    (hs : s.schedule = .core k :: rest) (hk : s.instances[k]? = some c) :
    s.CoreStep (State.focus { s with schedule := rest } k) :=
  .planned k rest hs (List.getElem?_eq_some_iff.mp hk).1

theorem State.CoreStep.step_decoded {s u : State} {i : Instr} (h : s.CoreStep u) (hu : u.core.active = true)
    (hpc : u.core.pc < u.params.memLimit) (hd : decode (u.core.mem.read u.core.pc) = .ok i) :
    step s = exec i (u.setCore u.core.settleIdle) :=
  (h.step_active hu).trans (cycle_of_decode (s := u.setCore u.core.settleIdle) hpc hd)

/-- Settles O29: the active core's cycle, and the focus, which moves no instance. -/
theorem stepRunsDecodedInstruction : Obligations.StepRunsDecodedInstruction := by
  refine ⟨fun s u i hstep hu hpc hd => hstep.step_decoded hu hpc hd,
    fun s i hs hact hpc hd hsettle => ?_, fun s k rest c hs hk => ?_⟩
  · rw [(State.CoreStep.unplanned hs).step_decoded hact hpc hd, CoreState.settleIdle_eq_self hsettle]
    rfl
  · have hk' : (State.instances { s with schedule := rest })[k]? = some c := hk
    exact ⟨_, State.coreStep_planned hs hk, State.focus_core hk', State.focus_before_length hk',
      State.instances_focus _ k, State.focus_params _ k, State.focus_chans _ k, State.focus_conns _ k,
      State.focus_orch _ k, State.focus_received _ k, State.focus_schedule _ k⟩

theorem CoreState.active_eq_false {c : CoreState} (h : c.status ≠ .running ∨ c.started = false) :
    c.active = false := by
  rw [← Bool.not_eq_true, c.active_iff]
  rintro ⟨hstarted, hstatus⟩
  rcases h with h | h
  · exact h hstatus
  · rw [hstarted] at h
    cases h

theorem coreTurn_of_not_active {s : State} (h : s.core.active = false) : coreTurn s = .next s := by
  rw [coreTurn, h]
  rfl

/-- Settles O31: a core that is not active has no turn; bringing it into focus changes no instance. -/
theorem stoppedCoreTakesNoStep : Obligations.StoppedCoreTakesNoStep := by
  intro s
  refine ⟨fun hs hstop => ?_, fun k rest c hs hk hstop => ?_⟩
  · rw [step_unplanned hs, coreTurn_of_not_active (CoreState.active_eq_false hstop)]
  · have hk' : (State.instances { s with schedule := rest })[k]? = some c := hk
    have hinactive : (State.focus { s with schedule := rest } k).core.active = false := by
      rw [State.focus_core hk']
      exact CoreState.active_eq_false hstop
    exact ⟨_, (State.coreStep_planned hs hk).step_eq.trans (coreTurn_of_not_active hinactive),
      State.instances_focus _ k, State.focus_params _ k, State.focus_chans _ k, State.focus_conns _ k,
      State.focus_orch _ k, State.focus_received _ k, State.focus_schedule _ k⟩

/-! ### A store and the next fetch -/

/-- An active core with no turn planned before it fetches the word at its `pc`. -/
theorem State.FetchesNext.ofRead {t : State} {w : Word} (hs : t.schedule = []) (hact : t.core.active = true)
    (hpc : t.core.pc < t.params.memLimit) (hw : t.core.mem.read t.core.pc = w) : t.FetchesNext w := by
  have hstep : step t = cycle (t.setCore t.core.settleIdle) := (State.CoreStep.unplanned hs).step_active hact
  have hfetch : fetch t.params t.core.settleIdle = decodeOrRaise w :=
    (fetch_below_limit (c := t.core.settleIdle) hpc).trans (congrArg decodeOrRaise hw)
  refine ⟨fun i hi => ?_, fun e he => ?_⟩
  · rw [hstep, cycle, State.setCore_params, State.setCore_core, hfetch, hi]
  · rw [hstep, cycle, State.setCore_params, State.setCore_core, hfetch, he]

/-- R52: a word stored at the address `pc` has passed to is fetched next. -/
theorem State.FetchesNext.ofWrite {t : State} {m : Memory} {a : Nat} {w : Word} (hs : t.schedule = [])
    (hact : t.core.active = true) (ha : a < t.params.memLimit) (hwf : m.wf = true)
    (hmem : t.core.mem = m.write a w) (hpc : t.core.pc = a) : t.FetchesNext w :=
  .ofRead hs hact (hpc ▸ ha) (by rw [hmem, hpc, Memory.read_write m hwf, if_pos rfl])

/-- Settles O30: each of the five instructions writes at the address `pc` passes to, below the limit as it has no
fault. -/
theorem storeSeenByNextFetch : Obligations.StoreSeenByNextFetch := by
  intro s hact hs hwf
  have hdest : ∀ {i : Instr} {m1 m2 m3 : Mode}, i.params = [(.value, m1), (.value, m2), (.destination, m3)] →
      instrFault s.params s.core i = none → s.core.destAddr 3 m3 < s.params.memLimit := fun hi hf =>
    (CoreState.lt_limit_of_destFault (faults_none_of_three hi hf).2.2).2
  refine ⟨fun m1 m2 m3 haddr => ⟨fun hf => ?add, fun hf => ?multiply, fun hf => ?lessThan, fun hf => ?equal⟩,
    fun m1 v haddr hf hget => ?input⟩
  case add =>
    exact ⟨_, (addResult m1 m2 m3 s).2 hf, .ofWrite hs hact (hdest rfl hf) hwf rfl haddr.symm⟩
  case multiply =>
    exact ⟨_, (multiplyResult m1 m2 m3 s).2 hf, .ofWrite hs hact (hdest rfl hf) hwf rfl haddr.symm⟩
  case lessThan =>
    have hparam := (instrFault_eq_paramFaults rfl).symm.trans hf
    exact ⟨_, (lessThanResult m1 m2 m3 s).2 hparam, .ofWrite hs hact (hdest rfl hf) hwf rfl haddr.symm⟩
  case equal =>
    have hparam := (instrFault_eq_paramFaults rfl).symm.trans hf
    exact ⟨_, (equalResult m1 m2 m3 s).2 hparam, .ofWrite hs hact (hdest rfl hf) hwf rfl haddr.symm⟩
  case input =>
    have h1 : s.core.destFault s.params 1 m1 = none := paramFaults_none hf _ (List.mem_singleton_self _)
    obtain ⟨u, hu⟩ := exists_snd_of_fst_eq hget
    exact ⟨_, ((inputResult m1 s).2 h1).1 v u hu,
      .ofWrite hs hact (CoreState.lt_limit_of_destFault h1).2 hwf rfl haddr.symm⟩

/-! ### A blocked core -/

/-- R112: the devices whose `get` can wait, and when. -/
theorem ioGet_wait_device {s : State} (h : (ioGet s).1 = .wait) :
    ∃ cin cout, s.core.dev.handles = some (cin, cout) ∧ (s.chan cin).q = [] ∧
      (s.chan cin).txAlive = true ∧ ∀ idle owed, s.core.dev ≠ .nonblocking cin cout true idle owed := by
  cases hd : s.core.dev with
  | inert => rw [ioGet_inert hd] at h; cases h
  | latest lv => rw [ioGet_latest hd] at h; cases h
  | blocking cin cout =>
    rw [ioGet_blocking hd] at h
    rcases s.recv_cases cin with ⟨v, rest, -, e⟩ | ⟨-, -, e⟩ | ⟨hq, ht, -⟩
    · rw [e] at h; cases h
    · rw [e] at h; cases h
    · exact ⟨cin, cout, rfl, hq, ht, nofun⟩
  | nonblocking cin cout first idle owed =>
    cases first with
    | false =>
      have hget : ioGet s = firstGet s cin cout idle owed := by rw [ioGet, hd]
      rw [hget, firstGet] at h
      rcases s.recv_cases cin with ⟨v, rest, -, e⟩ | ⟨-, -, e⟩ | ⟨hq, ht, -⟩
      · rw [e] at h; cases h
      · rw [e] at h; cases h
      · exact ⟨cin, cout, rfl, hq, ht, nofun⟩
    | true =>
      have hget : ioGet s = laterGet s cin cout idle := by rw [ioGet, hd]
      rw [hget, laterGet] at h
      rcases s.tryRecv_cases cin with ⟨v, rest, -, e⟩ | ⟨-, -, e⟩ | ⟨-, -, e⟩ <;> rw [e] at h <;> cases h

/-- Settles O37: what a `get` and a `put` can answer, and the step of an Input that waits. -/
theorem blockedCoreWaitsUnchanged : Obligations.BlockedCoreWaitsUnchanged := by
  refine ⟨ioPut_never_waits, fun s => ioGet_wait_device, fun s u m1 hstep hu hsettle hpc hd hf hget => ?_⟩
  rw [hstep.step_decoded hu hpc hd, CoreState.settleIdle_eq_self hsettle, State.setCore_core_self]
  obtain ⟨t, ht⟩ := exists_snd_of_fst_eq hget
  exact exec_input_of_get_wait hf ht

end Sys2Proof.Machine
end

section
/-!
The Non-blocking-with-status device (R123): its first and later gets, its put, and the write of `idle`.
-/
namespace Sys2Proof.Machine

section
variable {s : State} {cin cout : Nat} {idle : IdleCell} {owed : Option Bool}

theorem ioGet_nonblocking_first (h : s.core.dev = .nonblocking cin cout false idle owed) :
    ioGet s = firstGet s cin cout idle owed := by
  rw [ioGet, h]

theorem ioGet_nonblocking_later (h : s.core.dev = .nonblocking cin cout true idle owed) :
    ioGet s = laterGet s cin cout idle := by
  rw [ioGet, h]

theorem ioPut_nonblocking {first : Bool} (h : s.core.dev = .nonblocking cin cout first idle owed) (v : Word) :
    ioPut s v = s.send cout v := by
  rw [ioPut, h]

theorem State.tryRecv_cons {i : Nat} {v : Word} {rest : List Word} (h : (s.chan i).q = v :: rest) :
    s.tryRecv i = (.value v, s.setChan i { s.chan i with q := rest }) := by
  rw [State.tryRecv, Channel.tryRecv_cons h]

theorem State.tryRecv_closed {i : Nat} (hq : (s.chan i).q = []) (ht : (s.chan i).txAlive = false) :
    s.tryRecv i = (.closed, s) := by
  rw [State.tryRecv, Channel.tryRecv_closed hq ht]
  simp only [State.setChan_chan]

theorem State.tryRecv_empty {i : Nat} (hq : (s.chan i).q = []) (ht : (s.chan i).txAlive = true) :
    s.tryRecv i = (.empty, s) := by
  rw [State.tryRecv, Channel.tryRecv_empty hq ht]
  simp only [State.setChan_chan]

/-- A queued word is the answer of the first and of a later `get`, which both owe a write of 0. -/
theorem ioGet_nonblocking_word {first : Bool} (h : s.core.dev = .nonblocking cin cout first idle owed)
    {v : Word} {rest : List Word} (hq : (s.chan cin).q = v :: rest) :
    ioGet s = (.ok v, (s.setChan cin { s.chan cin with q := rest }).setDev
      (.nonblocking cin cout true idle (some false))) := by
  cases first with
  | false => rw [ioGet_nonblocking_first h, firstGet, State.recv_cons hq]
  | true => rw [ioGet_nonblocking_later h, laterGet, State.tryRecv_cons hq]

end

/-- R123: the write of `idle` is the turn of the device. -/
theorem step_settleIdle {s : State} {k : Nat} {rest : List Turn} (h : s.schedule = .settleIdle k :: rest) :
    step s = .next (State.modifyInstance { s with schedule := rest } k CoreState.settleIdle) := by
  rw [step_planned h, takeTurn]

/-- The state after the write: what was owed is written, if anything was. -/
theorem CoreState.settleIdle_nonblocking {c : CoreState} {cin cout : Nat} {first : Bool} {idle : IdleCell}
    {owed : Option Bool} (h : c.dev = .nonblocking cin cout first idle owed) :
    c.settleIdle = { c with dev := .nonblocking cin cout first (owed.elim idle idle.write) none } := by
  rw [CoreState.settleIdle, h]
  cases owed <;> rfl

/-- Settles O36: the `get` by the queue and the producer of the input channel, the `put` as a send, and the device's
own write. -/
theorem nonblockingDeviceGet : Obligations.NonblockingDeviceGet := by
  refine ⟨fun s cin cout first idle owed hdev hcin hcout => ?device, fun s k rest c hs hk => ?write⟩
  case device =>
    simp only [ioPut_nonblocking hdev]
    refine ⟨fun v rest hq => ?word, fun hq ht => ⟨?closedLater, ?closedFirst⟩,
      fun hq ht => ⟨?emptyFirst, ?emptyLater⟩,
      fun v hrx => exists_setChan_frame hcout (State.send_alive v hrx), State.send_dropped⟩
    case word =>
      refine ⟨_, ioGet_nonblocking_word hdev hq, s.chan_setChan_self _ hcin, fun n hn => s.chan_setChan_ne _ hn,
        ?_, rfl, rfl⟩
      exact (State.PortStep.setChan s cin _).outside.setCore _
    case closedLater =>
      rintro rfl
      rw [ioGet_nonblocking_later hdev, laterGet, State.tryRecv_closed hq ht]
    case closedFirst =>
      rintro rfl
      rw [ioGet_nonblocking_first hdev, firstGet, State.recv_closed hq ht]
    case emptyFirst =>
      rintro rfl
      rw [ioGet_nonblocking_first hdev, firstGet, State.recv_empty hq ht]
    case emptyLater =>
      rintro rfl
      refine ⟨s.setDev (.nonblocking cin cout true idle (some true)), ?_, rfl,
        (State.SameOutsidePort.refl s).setCore _, rfl, rfl⟩
      rw [ioGet_nonblocking_later hdev, laterGet, State.tryRecv_empty hq ht]
  case write =>
    obtain ⟨hparams, hchans, hconns, horch, hreceived, -⟩ :=
      State.modifyInstance_frame { s with schedule := rest } k CoreState.settleIdle
    have hinst : (State.instances { s with schedule := rest })[k]? = some c := hk
    refine ⟨_, step_settleIdle hs, ?_, hchans, hparams, hconns, horch, hreceived,
      fun cin cout first idle owed hdev => CoreState.settleIdle_nonblocking hdev⟩
    rw [State.instances_modifyInstance, modify_eq_set _ hinst]
    rfl

end Sys2Proof.Machine
end

section
/-!
The drops of handles: Release of a Halted core (R126), and the drops of a Faulted one's (R160).
-/
namespace Sys2Proof.Machine

/-! ### What a drop keeps of a channel -/

@[simp] theorem Channel.dropRx_q (ch : Channel) : ch.dropRx.q = ch.q := rfl
@[simp] theorem Channel.dropRx_rxAlive (ch : Channel) : ch.dropRx.rxAlive = false := rfl
@[simp] theorem Channel.dropTx_q (ch : Channel) : ch.dropTx.q = ch.q := rfl
@[simp] theorem Channel.dropTx_rxAlive (ch : Channel) : ch.dropTx.rxAlive = ch.rxAlive := rfl
@[simp] theorem Channel.dropTx_txAlive (ch : Channel) : ch.dropTx.txAlive = false := rfl

/-- What is queued is in no drop's way, and each drop leaves the other flag. -/
@[simp] theorem State.dropTx_chan_q (s : State) (i n : Nat) :
    ((s.modChan i Channel.dropTx).chan n).q = (s.chan n).q := by
  rw [State.chan_dropTx]
  split_ifs with h
  · rw [h, Channel.dropTx_q]
  · rfl

@[simp] theorem State.dropTx_chan_rxAlive (s : State) (i n : Nat) :
    ((s.modChan i Channel.dropTx).chan n).rxAlive = (s.chan n).rxAlive := by
  rw [State.chan_dropTx]
  split_ifs with h
  · rw [h, Channel.dropTx_rxAlive]
  · rfl

@[simp] theorem State.dropRx_chan_q (s : State) (i n : Nat) :
    ((s.modChan i Channel.dropRx).chan n).q = (s.chan n).q := by
  rw [State.chan_dropRx]
  split_ifs with h
  · rw [h, Channel.dropRx_q]
  · rfl

/-! ### The turns -/

theorem releaseHandles_eq_none {c : CoreState}
    (h : c.status ≠ .halted ∨ c.released = true ∨ c.dev.handles = none) : releaseHandles c = none := by
  rw [Option.eq_none_iff_forall_ne_some]
  intro x hx
  obtain ⟨hstatus, hreleased, hhandles⟩ := (releaseHandles_eq_some_iff c x).mp hx
  simp [hstatus, hreleased, hhandles] at h

/-- R160: only a Faulted instance's handles may be dropped so. -/
theorem faultedHandles_eq_some_iff (c : CoreState) (h : Nat × Nat) :
    faultedHandles c = some h ↔ c.status = .faulted ∧ c.dev.handles = some h := by
  unfold faultedHandles
  cases c.status <;> simp

theorem faultedHandles_eq_none {c : CoreState} (h : c.status ≠ .faulted ∨ c.dev.handles = none) :
    faultedHandles c = none := by
  rw [Option.eq_none_iff_forall_ne_some]
  intro x hx
  obtain ⟨hstatus, hhandles⟩ := (faultedHandles_eq_some_iff c x).mp hx
  simp [hstatus, hhandles] at h

section
variable {s : State} {k : Nat} {c : CoreState} (hk : s.instances[k]? = some c)
include hk

theorem releaseTurn_of_some {cin cout : Nat} (h : releaseHandles c = some (cin, cout)) :
    releaseTurn s k = ((s.modChan cin Channel.dropRx).modChan cout Channel.dropTx).modifyInstance k
      fun c => { c with released := true } := by
  rw [releaseTurn, hk, Option.bind_some, h]

theorem releaseTurn_of_none (h : releaseHandles c = none) : releaseTurn s k = s := by
  rw [releaseTurn, hk, Option.bind_some, h]

theorem faultedDropRxTurn_of_some {cin cout : Nat} (h : faultedHandles c = some (cin, cout)) :
    faultedDropRxTurn s k = s.modChan cin Channel.dropRx := by
  rw [faultedDropRxTurn, hk, Option.bind_some, h]

theorem faultedDropRxTurn_of_none (h : faultedHandles c = none) : faultedDropRxTurn s k = s := by
  rw [faultedDropRxTurn, hk, Option.bind_some, h]

theorem faultedDropTxTurn_of_some {cin cout : Nat} (h : faultedHandles c = some (cin, cout)) :
    faultedDropTxTurn s k = s.modChan cout Channel.dropTx := by
  rw [faultedDropTxTurn, hk, Option.bind_some, h]

theorem faultedDropTxTurn_of_none (h : faultedHandles c = none) : faultedDropTxTurn s k = s := by
  rw [faultedDropTxTurn, hk, Option.bind_some, h]

end

/-- Settles O39: each turn by whether it is enabled; a drop changes one flag of one channel. -/
theorem releaseDropsBothHandles : Obligations.ReleaseDropsBothHandles := by
  intro s k rest c hk
  have hk' : (State.instances { s with schedule := rest })[k]? = some c := hk
  refine ⟨fun hs => ?release, fun hs => ?dropRx, fun hs => ?dropTx⟩
  case release =>
    rw [step_planned hs, takeTurn]
    refine ⟨fun cin cout hstatus hreleased hhandles => ?_, fun h => ?_⟩
    · rw [releaseTurn_of_some hk' ((releaseHandles_eq_some_iff c _).mpr ⟨hstatus, hreleased, hhandles⟩)]
      refine ⟨_, rfl, ?_, ?_, ?_, fun n => ?_, fun n hcin hcout => ?_⟩
      · exact (State.instances_modifyInstance _ k _).trans (modify_eq_set _ hk)
      · simp [State.chan_dropRx]
      · simp [State.chan_dropTx]
      · simp
      · simp [State.chan_dropTx, State.chan_dropRx, hcin, hcout]
    · rw [releaseTurn_of_none hk' (releaseHandles_eq_none h)]
  case dropRx =>
    rw [step_planned hs, takeTurn]
    refine ⟨fun cin cout hstatus hhandles => ?_, fun h => ?_⟩
    · rw [faultedDropRxTurn_of_some hk' ((faultedHandles_eq_some_iff c _).mpr ⟨hstatus, hhandles⟩)]
      exact ⟨_, rfl, rfl, by simp [State.chan_dropRx], fun n hn => State.chan_modChan_ne _ _ hn⟩
    · rw [faultedDropRxTurn_of_none hk' (faultedHandles_eq_none h)]
  case dropTx =>
    rw [step_planned hs, takeTurn]
    refine ⟨fun cin cout hstatus hhandles => ?_, fun h => ?_⟩
    · rw [faultedDropTxTurn_of_some hk' ((faultedHandles_eq_some_iff c _).mpr ⟨hstatus, hhandles⟩)]
      exact ⟨_, rfl, rfl, by simp [State.chan_dropTx], fun n hn => State.chan_modChan_ne _ _ hn⟩
    · rw [faultedDropTxTurn_of_none hk' (faultedHandles_eq_none h)]

end Sys2Proof.Machine
end

section
/-!
The Connector (R133 to R136): its three steps, and the whole queued stream relayed a word at a time.
-/
namespace Sys2Proof.Machine

/-! ### What a send keeps of a channel -/

@[simp] theorem Channel.send_q (ch : Channel) (v : Word) :
    (ch.send v).2.q = if ch.rxAlive then ch.q ++ [v] else ch.q := by
  unfold Channel.send; split <;> rfl

@[simp] theorem Channel.send_txAlive (ch : Channel) (v : Word) : (ch.send v).2.txAlive = ch.txAlive := by
  unfold Channel.send; split <;> rfl

@[simp] theorem Channel.send_rxAlive (ch : Channel) (v : Word) : (ch.send v).2.rxAlive = ch.rxAlive := by
  unfold Channel.send; split <;> rfl

/-- R115: after a send on channel `i`, for every number, past the last too. -/
theorem State.chan_send (s : State) (i : Nat) (v : Word) (n : Nat) :
    (s.send i v).2.chan n = if n = i then ((s.chan i).send v).2 else s.chan n := by
  have hset : (s.send i v).2.chan n =
      if n = i ∧ i < s.chans.length then ((s.chan i).send v).2 else s.chan n := s.chan_setChan i _ n
  rw [hset]
  by_cases hn : n = i
  · subst hn
    by_cases hl : n < s.chans.length
    · simp [hl]
    · simp [hl, s.chan_gone (Nat.not_lt.mp hl), Channel.gone, Channel.send]
  · simp [hn]

@[simp] theorem State.send_conns (s : State) (i : Nat) (v : Word) : (s.send i v).2.conns = s.conns := rfl

@[simp] theorem State.send_chans_length (s : State) (i : Nat) (v : Word) :
    (s.send i v).2.chans.length = s.chans.length := State.setChan_length ..

@[simp] theorem State.setConn_chan (s : State) (j : Nat) (c : Connector) (n : Nat) :
    (s.setConn j c).chan n = s.chan n := rfl

theorem State.setConn_getElem {s : State} {j : Nat} {c : Connector} (h : s.conns[j]? = some c) (d : Connector) :
    (s.setConn j d).conns[j]? = some d := by
  rw [State.setConn_conns, List.getElem?_set_self (List.getElem?_eq_some_iff.mp h).1]

/-! ### The turn of a Connector, by what it holds -/

section
variable {s : State} {j : Nat} {c : Connector} (hj : s.conns[j]? = some c)
include hj

theorem connectorTurn_done (h : c.done = true) : connectorTurn s j = s := by
  simp only [connectorTurn, hj, h, if_true]

theorem connectorTurn_empty (h : c.done = false) (hcur : c.cur = none) :
    connectorTurn s j = connectorReceive s j c := by
  simp [connectorTurn, hj, h, hcur]

/-- R134: with `v` in hand, it is sent to the next downstream. -/
theorem connectorTurn_holding {v : Word} {d : Nat} (h : c.done = false) (hcur : c.cur = some v)
    (hd : c.down[c.k]? = some d) :
    connectorTurn s j = (s.send d v).2.setConn j
      { c with cur := if c.k + 1 = c.down.length then none else some v, k := c.k + 1 } := by
  simp [connectorTurn, hj, h, hcur, connectorSend, hd]

/-- R133: with nothing in hand, the oldest word upstream is taken. -/
theorem connectorTurn_takes {v : Word} {rest : List Word} (h : c.done = false) (hcur : c.cur = none)
    (hq : (s.chan c.up).q = v :: rest) :
    connectorTurn s j =
      (s.setChan c.up { s.chan c.up with q := rest }).setConn j { c with cur := some v, k := 0 } := by
  rw [connectorTurn_empty hj h hcur, connectorReceive, State.recv_cons hq]

/-- R135: with nothing in hand and upstream closed, the Connector terminates. -/
theorem connectorTurn_closed (h : c.done = false) (hcur : c.cur = none) (hq : (s.chan c.up).q = [])
    (ht : (s.chan c.up).txAlive = false) :
    connectorTurn s j =
      ((s.modChan c.up Channel.dropRx).dropAllTx c.down).setConn j { c with done := true } := by
  rw [connectorTurn_empty hj h hcur, connectorReceive, State.recv_closed hq ht]

theorem connectorTurn_waits (h : c.done = false) (hcur : c.cur = none) (hq : (s.chan c.up).q = [])
    (ht : (s.chan c.up).txAlive = true) : connectorTurn s j = s := by
  rw [connectorTurn_empty hj h hcur, connectorReceive, State.recv_empty hq ht]

end

theorem step_connector {s : State} {j : Nat} {rest : List Turn} (h : s.schedule = .connector j :: rest) :
    step s = .next (connectorTurn { s with schedule := rest } j) := by
  rw [step_planned h, takeTurn]

/-- Settles O40: the turn of a Connector that holds a word is one send. -/
theorem connectorSendsToNextDownstream : Obligations.ConnectorSendsToNextDownstream := by
  intro s j rest c v d hs hj hdone hcur hd _
  have hj' : (State.conns { s with schedule := rest })[j]? = some c := hj
  rw [step_connector hs, connectorTurn_holding hj' hdone hcur hd]
  refine ⟨_, rfl, ?_, fun n hn => ?_, State.setConn_getElem (by rw [State.send_conns]; exact hj) _, rfl⟩
  · rw [State.setConn_chan, State.chan_send, if_pos rfl, Channel.send_q]
    rfl
  · rw [State.setConn_chan, State.chan_send, if_neg hn]
    rfl

/-! ### Termination -/

/-- R135: after the drops of these producer handles. -/
theorem State.chan_dropAllTx (s : State) (l : List Nat) (n : Nat) :
    (s.dropAllTx l).chan n = if n ∈ l then (s.chan n).dropTx else s.chan n := by
  induction l generalizing s with
  | nil => simp [State.dropAllTx]
  | cons d l ih =>
    rw [State.dropAllTx, ih, State.chan_dropTx]
    by_cases hn : n = d
    · subst hn
      by_cases hl : n ∈ l <;> simp [hl, Channel.dropTx]
    · simp [hn]

theorem State.dropAllTx_conns (s : State) (l : List Nat) : (s.dropAllTx l).conns = s.conns := by
  induction l generalizing s with
  | nil => rfl
  | cons d l ih => rw [State.dropAllTx, ih, State.modChan_conns]

/-- Settles O42: the three turns without a word in hand. -/
theorem connectorTerminatesOnClosedUpstream : Obligations.ConnectorTerminatesOnClosedUpstream := by
  intro s j rest c hs hj hcur hq
  have hj' : (State.conns { s with schedule := rest })[j]? = some c := hj
  rw [step_connector hs]
  refine ⟨fun hdone ht => ?closed, fun hdone ht => ?waits, fun hdone => ?done⟩
  case closed =>
    rw [connectorTurn_closed hj' hdone hcur hq ht]
    refine ⟨_, rfl, State.setConn_getElem (by rw [State.dropAllTx_conns]; exact hj) _, ?_, fun d hd => ?_,
      fun n => ?_, fun n hup hdown => ?_, ?_⟩
    · rw [State.setConn_chan, State.chan_dropAllTx, State.chan_dropRx, if_pos rfl]
      split_ifs <;> rfl
    · rw [State.setConn_chan, State.chan_dropAllTx, if_pos hd, Channel.dropTx_txAlive]
    · rw [State.setConn_chan, State.chan_dropAllTx]
      split_ifs <;> simp
    · rw [State.setConn_chan, State.chan_dropAllTx, if_neg hdown, State.chan_dropRx, if_neg hup]
      rfl
    · exact ((State.SameInstances.modChan _ _ _).trans
        ((State.SameInstances.dropAllTx _ c.down).trans (.setConn _ j _))).instances
  case waits => rw [connectorTurn_waits hj' hdone hcur hq ht]
  case done => rw [connectorTurn_done hj' hdone]

/-! ### The whole stream -/

theorem connectorTurns_add (j m n : Nat) (s : State) :
    connectorTurns j (m + n) s = connectorTurns j n (connectorTurns j m s) := by
  induction m generalizing s with
  | zero => rw [Nat.zero_add]; rfl
  | succ m ih => rw [Nat.succ_add]; exact ih _

/-- The turns with `v` in hand, from downstream `k` on: `v` is sent to each of the rest, once, and then the Connector
holds nothing. -/
theorem connectorTurns_sends {j : Nat} {c : Connector} {v : Word} (hdone : c.done = false) (ds : List Nat)
    (hne : ds ≠ []) (hnodup : ds.Nodup) :
    ∀ (k : Nat) (s : State), c.down.drop k = ds → s.conns[j]? = some { c with cur := some v, k := k } →
      (connectorTurns j ds.length s).conns[j]? = some { c with cur := none, k := c.down.length } ∧
      (connectorTurns j ds.length s).chans.length = s.chans.length ∧
      ∀ n, (connectorTurns j ds.length s).chan n =
        if n ∈ ds then ((s.chan n).send v).2 else s.chan n := by
  induction ds with
  | nil => exact absurd rfl hne
  | cons d ds ih =>
    intro k s hdrop hj
    obtain ⟨hd, hnodup⟩ := List.nodup_cons.mp hnodup
    have hdk : c.down[k]? = some d := by
      rw [← Nat.add_zero k, ← List.getElem?_drop, hdrop, List.getElem?_cons_zero]
    have hrest : c.down.drop (k + 1) = ds := by rw [← List.drop_drop, hdrop, List.drop_one, List.tail_cons]
    have hlength : c.down.length - (k + 1) = ds.length := by rw [← hrest, List.length_drop]
    have hk : k < c.down.length := (List.getElem?_eq_some_iff.mp hdk).1
    have hturn : connectorTurns j (d :: ds).length s = connectorTurns j ds.length ((s.send d v).2.setConn j
        { c with cur := if k + 1 = c.down.length then none else some v, k := k + 1 }) :=
      congrArg (connectorTurns j ds.length) (connectorTurn_holding hj hdone rfl hdk)
    have hconn := State.setConn_getElem (s := (s.send d v).2) hj
      { c with cur := if k + 1 = c.down.length then none else some v, k := k + 1 }
    rw [hturn]
    cases ds with
    | nil =>
      have hlast : k + 1 = c.down.length := by simp at hlength; omega
      rw [if_pos hlast] at hconn ⊢
      refine ⟨hlast ▸ hconn, State.send_chans_length s d v, fun n => ?_⟩
      rw [List.length_nil, connectorTurns, State.setConn_chan, State.chan_send]
      simp only [List.mem_singleton]
      split_ifs with hn
      · rw [hn]
      · rfl
    | cons d' ds =>
      have hmore : k + 1 ≠ c.down.length := by simp at hlength; omega
      rw [if_neg hmore] at hconn ⊢
      obtain ⟨hc, hl, hch⟩ := ih (List.cons_ne_nil _ _) hnodup (k + 1) _ hrest hconn
      refine ⟨hc, hl.trans (State.send_chans_length s d v), fun n => ?_⟩
      rw [hch, State.setConn_chan, State.chan_send]
      by_cases hn : n = d
      · subst hn
        simp [hd]
      · simp [hn]

/-- What the words `ws` relayed from channel `up` to the channels `down` have changed from `s` to `t`. -/
structure Relayed (up : Nat) (down : List Nat) (ws : List Word) (s t : State) : Prop where
  upstream : (s.chan up).q = ws ++ (t.chan up).q
  downstream : ∀ d ∈ down, (t.chan d).q = if (s.chan d).rxAlive then (s.chan d).q ++ ws else (s.chan d).q
  alive : ∀ n, (t.chan n).txAlive = (s.chan n).txAlive ∧ (t.chan n).rxAlive = (s.chan n).rxAlive
  length : t.chans.length = s.chans.length

theorem Relayed.refl (up : Nat) (down : List Nat) (s : State) : Relayed up down [] s s :=
  ⟨rfl, fun d _ => by rw [List.append_nil, ite_self], fun _ => ⟨rfl, rfl⟩, rfl⟩

theorem Relayed.trans {up : Nat} {down : List Nat} {ws vs : List Word} {s t u : State}
    (h : Relayed up down ws s t) (g : Relayed up down vs t u) : Relayed up down (ws ++ vs) s u where
  upstream := by rw [h.upstream, g.upstream, List.append_assoc]
  downstream d hd := by
    rw [g.downstream d hd, h.downstream d hd, (h.alive d).2]
    split_ifs
    · rw [List.append_assoc]
    · rfl
  alive n := ⟨(g.alive n).1.trans (h.alive n).1, (g.alive n).2.trans (h.alive n).2⟩
  length := g.length.trans h.length

/-- One word: the turn that takes it and a turn for each downstream. -/
theorem connectorTurns_relays_word {s : State} {j : Nat} {c : Connector} {v : Word} {rest : List Word}
    (hj : s.conns[j]? = some c) (hdone : c.done = false) (hcur : c.cur = none) (hdown : c.down ≠ [])
    (hnodup : c.down.Nodup) (hup : c.up ∉ c.down) (hlt : c.up < s.chans.length)
    (hq : (s.chan c.up).q = v :: rest) :
    (connectorTurns j (c.down.length + 1) s).conns[j]? = some { c with cur := none, k := c.down.length } ∧
      Relayed c.up c.down [v] s (connectorTurns j (c.down.length + 1) s) := by
  have htakes := connectorTurn_takes hj hdone hcur hq
  rw [connectorTurns, htakes]
  obtain ⟨hc, hl, hch⟩ := connectorTurns_sends (v := v) hdone c.down hdown hnodup 0 _ rfl
    (State.setConn_getElem (s := s.setChan c.up { s.chan c.up with q := rest }) hj _)
  refine ⟨hc, ?_, fun d hd => ?_, fun n => ?_, hl.trans (State.setChan_length ..)⟩
  · rw [hch, if_neg hup, State.setConn_chan, State.chan_setChan_self _ _ hlt, hq]
    rfl
  · have hne : d ≠ c.up := fun h => hup (h ▸ hd)
    rw [hch, if_pos hd, State.setConn_chan, State.chan_setChan_ne _ _ hne, Channel.send_q]
  · have halive : ((s.setChan c.up { s.chan c.up with q := rest }).chan n).txAlive = (s.chan n).txAlive ∧
        ((s.setChan c.up { s.chan c.up with q := rest }).chan n).rxAlive = (s.chan n).rxAlive := by
      rw [State.chan_setChan]
      split_ifs with hn
      · rw [hn.1]
        exact ⟨rfl, rfl⟩
      · exact ⟨rfl, rfl⟩
    rw [hch, State.setConn_chan]
    split_ifs
    · rw [Channel.send_txAlive, Channel.send_rxAlive]
      exact halive
    · exact halive

/-- All the words queued upstream, one after the other. -/
theorem connectorTurns_relays_stream {j : Nat} (ws : List Word) :
    ∀ {s : State} {c : Connector}, s.conns[j]? = some c → c.done = false → c.cur = none → c.down ≠ [] →
      c.down.Nodup → c.up ∉ c.down → c.up < s.chans.length → (s.chan c.up).q = ws →
        Relayed c.up c.down ws s (connectorTurns j (ws.length * (c.down.length + 1)) s) ∧
        ∃ k, (connectorTurns j (ws.length * (c.down.length + 1)) s).conns[j]? = some { c with k := k } := by
  induction ws with
  | nil =>
    intro s c hj _ _ _ _ _ _ _
    rw [List.length_nil, Nat.zero_mul]
    exact ⟨.refl _ _ s, c.k, hj⟩
  | cons v ws ih =>
    intro s c hj hdone hcur hdown hnodup hup hlt hq
    obtain ⟨hc, hword⟩ := connectorTurns_relays_word hj hdone hcur hdown hnodup hup hlt hq
    have hrest : ((connectorTurns j (c.down.length + 1) s).chan c.up).q = ws := by
      have hqueue := hword.upstream
      rw [hq] at hqueue
      exact (List.cons.inj hqueue).2.symm
    obtain ⟨hstream, k, hk⟩ := ih hc hdone rfl hdown hnodup hup (hword.length.symm ▸ hlt) hrest
    rw [List.length_cons, Nat.succ_mul, Nat.add_comm, connectorTurns_add]
    exact ⟨hword.trans hstream, k, hcur ▸ hk⟩

/-- Settles O41: by induction over the words queued upstream, each taken and sent to every downstream. -/
theorem connectorRelaysWholeStream : Obligations.ConnectorRelaysWholeStream := by
  intro s j c hj hdone hcur hdown hnodup hup hlt _
  obtain ⟨hstream, hconn⟩ := connectorTurns_relays_stream _ hj hdone hcur hdown hnodup hup hlt rfl
  have hempty := List.append_right_eq_self.mp hstream.upstream.symm
  exact ⟨_, rfl, hempty, hstream.downstream, hstream.alive, hconn⟩

end Sys2Proof.Machine
end

section
/-!
The Network Orchestrator (R144 to R147): its atomic actions, the routing of a group, and the detection of idleness.
-/
namespace Sys2Proof.Machine

/-! ### The action of each phase -/

section
variable {s : State} {o : Orchestrator} (ho : s.orch = some o) (seen : Bool)
include ho

theorem orchestratorTurn_drain {i : Nat} (h : o.phase = .drain i) :
    orchestratorTurn s seen = sweepTurn s o i := by
  simp only [orchestratorTurn, ho, h]

theorem orchestratorTurn_sendX {i d : Nat} {x y : Word} (h : o.phase = .sendX i d x y) :
    orchestratorTurn s seen = netSend s o d x { o with phase := .sendY i d y } := by
  simp only [orchestratorTurn, ho, h]

theorem orchestratorTurn_sendY {i d : Nat} {y : Word} (h : o.phase = .sendY i d y) :
    orchestratorTurn s seen = netSend s o d y { o with phase := .drain i } := by
  simp only [orchestratorTurn, ho, h]

theorem orchestratorTurn_check {i : Nat} (h : o.phase = .check i) :
    orchestratorTurn s seen = .next (checkTurn s o i seen) := by
  simp only [orchestratorTurn, ho, h]

theorem orchestratorTurn_deliverX {x y : Word} (h : o.phase = .deliverX x y) :
    orchestratorTurn s seen = netSend s o 0 x { o with phase := .deliverY x y } := by
  simp only [orchestratorTurn, ho, h]

theorem orchestratorTurn_deliverY {x y : Word} (h : o.phase = .deliverY x y) :
    orchestratorTurn s seen =
      netSend s o 0 y { o with lastSent := some (x, y), idleCount := 0, phase := .pause } := by
  simp only [orchestratorTurn, ho, h]

theorem orchestratorTurn_pause (h : o.phase = .pause) :
    orchestratorTurn s seen = .next (s.setOrch { o with routed := false, phase := .drain 0 }) := by
  simp only [orchestratorTurn, ho, h]

theorem orchestratorTurn_ended {y : Word} (h : o.phase = .ended y) : orchestratorTurn s seen = .next s := by
  simp only [orchestratorTurn, ho, h]

end

theorem orchestratorTurns_cons {s t : State} {seen : Bool} (h : orchestratorTurn s seen = .next t)
    (rest : List Bool) : orchestratorTurns (seen :: rest) s = orchestratorTurns rest t := by
  rw [orchestratorTurns, h]

/-! ### The sweep -/

section
variable {s : State} {o : Orchestrator} {i : Nat} {n : NetNode} (hn : o.nodes[i]? = some n)
include hn

theorem sweepTurn_word {v : Word} {rest : List Word} {o' : Orchestrator} (hq : (s.chan n.outCh).q = v :: rest)
    (h : o.receive i (n.part ++ [v]) = some o') :
    sweepTurn s o i = .next ((s.setChan n.outCh { s.chan n.outCh with q := rest }).setOrch o') := by
  simp only [sweepTurn, hn, State.tryRecv_cons hq, h]

theorem sweepTurn_misrouted {v : Word} {rest : List Word} (hq : (s.chan n.outCh).q = v :: rest)
    (h : o.receive i (n.part ++ [v]) = none) : sweepTurn s o i = .fault .orchestratorFailure := by
  simp only [sweepTurn, hn, State.tryRecv_cons hq, h]

theorem sweepTurn_empty (hq : (s.chan n.outCh).q = []) (ht : (s.chan n.outCh).txAlive = true) :
    sweepTurn s o i = .next (s.setOrch { o with phase := .drain (i + 1) }) := by
  simp only [sweepTurn, hn, State.tryRecv_empty hq ht]

theorem sweepTurn_closed (hq : (s.chan n.outCh).q = []) (ht : (s.chan n.outCh).txAlive = false) :
    sweepTurn s o i = .fault .orchestratorFailure := by
  simp only [sweepTurn, hn, State.tryRecv_closed hq ht]

theorem Orchestrator.setPart_node (ws : List Word) :
    (o.setPart i ws).nodes[i]? = some { n with part := ws } := by
  simp [Orchestrator.setPart, hn]

/-- A new part changes no node's machine or channels. -/
theorem Orchestrator.setPart_inCh (k : Nat) (ws : List Word) :
    ∃ n', (o.setPart k ws).nodes[i]? = some n' ∧ n'.inCh = n.inCh := by
  by_cases hk : k = i
  · subst hk
    exact ⟨_, Orchestrator.setPart_node hn ws, rfl⟩
  · exact ⟨n, by simp [Orchestrator.setPart, hk, hn], rfl⟩

/-! ### Sends to a machine -/

theorem netSend_alive (h : (s.chan n.inCh).rxAlive = true) (v : Word) (after : Orchestrator) :
    netSend s o i v after = .next ((s.send n.inCh v).2.setOrch after) := by
  simp only [netSend, hn, State.send_alive v h]

theorem netSend_dropped (h : (s.chan n.inCh).rxAlive = false) (v : Word) (after : Orchestrator) :
    netSend s o i v after = .fault .orchestratorFailure := by
  simp only [netSend, hn, State.send_dropped v h]

end

@[simp] theorem State.setOrch_chan (s : State) (o : Orchestrator) (n : Nat) :
    (s.setOrch o).chan n = s.chan n := rfl

theorem State.send_rxAlive (s : State) (i : Nat) (v : Word) (n : Nat) :
    ((s.send i v).2.chan n).rxAlive = (s.chan n).rxAlive := by
  rw [State.chan_send]
  split_ifs with h
  · rw [h, Channel.send_rxAlive]
  · rfl

/-- Two words sent to a live consumer, with the orchestrator going on in between. -/
theorem State.send_send_q {s : State} {i : Nat} (h : (s.chan i).rxAlive = true) (x y : Word) (o : Orchestrator) :
    ((((s.send i x).2.setOrch o).send i y).2.chan i).q = (s.chan i).q ++ [x, y] := by
  rw [State.chan_send, if_pos rfl, Channel.send_q, State.setOrch_chan, State.send_rxAlive, h, if_pos rfl,
    State.chan_send, if_pos rfl, Channel.send_q, h, if_pos rfl, List.append_assoc]
  rfl

/-! ### Groups -/

/-- Fewer than three words make no group. -/
theorem Orchestrator.receive_part {o : Orchestrator} {ws : List Word} (h : ws.length < 3) (i : Nat) :
    o.receive i ws = some { o.setPart i ws with phase := .drain i } := by
  unfold Orchestrator.receive
  split
  · simp at h
  · rfl

/-- The third word makes a group, which is routed with the part emptied. -/
theorem Orchestrator.receive_group (o : Orchestrator) (i : Nat) {part : List Word} {dest x : Word}
    (h : part = [dest, x]) (y : Word) : o.receive i (part ++ [y]) = (o.setPart i []).route i dest x y := by
  rw [h]
  rfl

theorem Orchestrator.machineAt_of_toInt_eq {o : Orchestrator} {dest : Word} {d : Nat}
    (hdest : dest.toInt = (d : Int)) (hd : d < o.nodes.length) : o.machineAt dest = some d := by
  rw [Orchestrator.machineAt, hdest, if_pos ⟨Int.natCast_nonneg d, Int.ofNat_lt.mpr hd⟩, Int.toNat_natCast]

theorem Orchestrator.machineAt_eq_none {o : Orchestrator} {dest : Word}
    (h : dest.toInt < 0 ∨ (o.nodes.length : Int) ≤ dest.toInt) : o.machineAt dest = none := by
  rw [Orchestrator.machineAt, if_neg (by omega)]

theorem Orchestrator.setPart_length (o : Orchestrator) (i : Nat) (ws : List Word) :
    (o.setPart i ws).nodes.length = o.nodes.length := List.length_modify ..

section
variable {o : Orchestrator} {i : Nat} {dest x y : Word}

theorem Orchestrator.route_firstSolution (hd : dest = o.sentinel) (hm : o.mode = .firstSolution) :
    o.route i dest x y = some { o with routed := true, phase := .ended y } := by
  simp only [Orchestrator.route, if_pos hd, hm]

theorem Orchestrator.route_repeatValue (hd : dest = o.sentinel) (hm : o.mode = .repeatValue) :
    o.route i dest x y = some { o with routed := true, held := some (x, y), phase := .drain i } := by
  simp only [Orchestrator.route, if_pos hd, hm]

theorem Orchestrator.route_machine {d : Nat} (hne : dest ≠ o.sentinel) (hd : o.machineAt dest = some d) :
    o.route i dest x y = some { o with routed := true, phase := .sendX i d x y } := by
  simp only [Orchestrator.route, if_neg hne, hd]

theorem Orchestrator.route_nowhere (hne : dest ≠ o.sentinel) (hd : o.machineAt dest = none) :
    o.route i dest x y = none := by
  simp only [Orchestrator.route, if_neg hne, hd]

end

/-- Two actions in a row that send `x`, then `y`, to a machine that lives, as in routing a group (R144) and in
delivering the held pair (R145). -/
theorem orchestratorTurns_send_send {s : State} {o o₁ o₂ : Orchestrator} {d : Nat} {m : NetNode} {x y : Word}
    {seen seen' : Bool} (hx : ∀ u : State, u.orch = some o → orchestratorTurn u seen = netSend u o d x o₁)
    (hy : ∀ u : State, u.orch = some o₁ → orchestratorTurn u seen' = netSend u o₁ d y o₂)
    (hm : o.nodes[d]? = some m) (hm₁ : o₁.nodes[d]? = some m) (hrx : (s.chan m.inCh).rxAlive = true) :
    ∃ t : State, orchestratorTurns [seen, seen'] (s.setOrch o) = .next (t.setOrch o₂) ∧
      (t.chan m.inCh).q = (s.chan m.inCh).q ++ [x, y] := by
  have h1 := (hx (s.setOrch o) rfl).trans (netSend_alive (s := s.setOrch o) hm hrx x o₁)
  have hrx₁ := (State.send_rxAlive (s.setOrch o) m.inCh x m.inCh).trans hrx
  have h2 := (hy (((s.setOrch o).send m.inCh x).2.setOrch o₁) rfl).trans
    (netSend_alive (s := ((s.setOrch o).send m.inCh x).2.setOrch o₁) hm₁ hrx₁ y o₂)
  rw [orchestratorTurns_cons h1, orchestratorTurns_cons h2]
  exact ⟨_, rfl, State.send_send_q (s := s.setOrch o) hrx x y o₁⟩

/-- R144: a group for a machine, from the word that completes it to its second send: three actions. -/
theorem orchestratorTurns_route {s : State} {o : Orchestrator} {i d : Nat} {n m : NetNode} {dest x v : Word}
    {rest : List Word} (ho : s.orch = some o) (hphase : o.phase = .drain i) (hn : o.nodes[i]? = some n)
    (hq : (s.chan n.outCh).q = v :: rest) (hpart : n.part = [dest, x]) (hne : dest ≠ o.sentinel)
    (hdest : dest.toInt = (d : Int)) (hm : o.nodes[d]? = some m) (hio : m.inCh ≠ n.outCh)
    (hrx : (s.chan m.inCh).rxAlive = true) (seen seen₁ seen₂ : Bool) :
    ∃ t o', orchestratorTurns [seen, seen₁, seen₂] s = .next t ∧ t.orch = some o' ∧
      (t.chan m.inCh).q = (s.chan m.inCh).q ++ [x, v] ∧ o'.phase = .drain i ∧
      o'.routed = true ∧ o'.nodes[i]? = some { n with part := [] } := by
  have hlt : d < (o.setPart i []).nodes.length := by
    rw [Orchestrator.setPart_length]
    exact (List.getElem?_eq_some_iff.mp hm).1
  have hroute : o.receive i (n.part ++ [v]) =
      some { o.setPart i [] with routed := true, phase := .sendX i d x v } :=
    (o.receive_group i hpart v).trans
      (Orchestrator.route_machine hne (Orchestrator.machineAt_of_toInt_eq hdest hlt))
  obtain ⟨m', hm', hin⟩ := Orchestrator.setPart_inCh hm i []
  have hkept : (s.setChan n.outCh { s.chan n.outCh with q := rest }).chan m'.inCh = s.chan m.inCh := by
    rw [hin, State.chan_setChan_ne _ _ hio]
  have hword := (orchestratorTurn_drain ho seen hphase).trans (sweepTurn_word hn hq hroute)
  obtain ⟨t, ht, hqueue⟩ := orchestratorTurns_send_send
    (o := { o.setPart i [] with routed := true, phase := .sendX i d x v })
    (fun _ h => orchestratorTurn_sendX h seen₁ rfl) (fun _ h => orchestratorTurn_sendY h seen₂ rfl) hm' hm'
    (hkept.symm ▸ hrx)
  rw [hkept, hin] at hqueue
  exact ⟨_, _, (orchestratorTurns_cons hword _).trans ht, rfl, hqueue, rfl, rfl, Orchestrator.setPart_node hn []⟩

/-- Settles O43: the part that grows, the group by its destination, and the empty queue. -/
theorem orchestratorRoutesGroups : Obligations.OrchestratorRoutesGroups := by
  intro s o i n v rest seen seen₁ seen₂ ho hphase hn
  rw [orchestratorTurn_drain ho seen hphase]
  refine ⟨fun hq hout => ⟨fun hshort => ?part, fun dest x hpart => ⟨fun hd hm => ?first, fun hd hm => ?held,
    fun d m hne hdest hm _ hio hrx => ?machine⟩⟩, fun hq ht => ?empty⟩
  case part =>
    have hreceive := Orchestrator.receive_part (o := o) (ws := n.part ++ [v]) (by simp; omega) i
    refine ⟨_, _, sweepTurn_word hn hq hreceive, rfl, rfl, Orchestrator.setPart_node hn _, ?_⟩
    rw [State.setOrch_chan, State.chan_setChan_self _ _ hout]
  case first =>
    have hreceive := (o.receive_group i hpart v).trans (Orchestrator.route_firstSolution hd hm)
    exact ⟨_, sweepTurn_word hn hq hreceive, rfl⟩
  case held =>
    have hreceive := (o.receive_group i hpart v).trans (Orchestrator.route_repeatValue hd hm)
    exact ⟨_, _, sweepTurn_word hn hq hreceive, rfl, rfl, rfl, rfl, Orchestrator.setPart_node hn []⟩
  case machine => exact orchestratorTurns_route ho hphase hn hq hpart hne hdest hm hio hrx seen seen₁ seen₂
  case empty => exact ⟨_, sweepTurn_empty hn hq ht, rfl, fun _ => rfl⟩

/-- Settles O45: each of the failing actions. -/
theorem orchestratorFailureEndsRun : Obligations.OrchestratorFailureEndsRun := by
  intro s o seen ho
  refine ⟨fun i n hphase hn hq ht => ?closed, fun i n dest x y rest hphase hn hpart hq hne hnone => ?nowhere,
    fun i d m x y hphase hm hrx => ?send, fun m x y hphase hm hrx => ?deliver⟩
  case closed => rw [orchestratorTurn_drain ho seen hphase, sweepTurn_closed hn hq ht]
  case nowhere =>
    rw [← Orchestrator.setPart_length o i []] at hnone
    have hreceive := (o.receive_group i hpart y).trans
      (Orchestrator.route_nowhere hne (Orchestrator.machineAt_eq_none hnone))
    rw [orchestratorTurn_drain ho seen hphase, sweepTurn_misrouted hn hq hreceive]
  case send =>
    rcases hphase with hphase | hphase
    · rw [orchestratorTurn_sendX ho seen hphase, netSend_dropped hm hrx]
    · rw [orchestratorTurn_sendY ho seen hphase, netSend_dropped hm hrx]
  case deliver =>
    rcases hphase with hphase | hphase
    · rw [orchestratorTurn_deliverX ho seen hphase, netSend_dropped hm hrx]
    · rw [orchestratorTurn_deliverY ho seen hphase, netSend_dropped hm hrx]

/-! ### Idleness -/

theorem sweepTurn_end {s : State} {o : Orchestrator} {i : Nat} (h : o.nodes.length ≤ i) :
    sweepTurn s o i = .next (s.setOrch o.sweepEnd) := by
  simp only [sweepTurn, List.getElem?_eq_none h]

theorem Orchestrator.sweepEnd_idleCount (o : Orchestrator) :
    o.sweepEnd.idleCount = if o.routed then 0 else o.idleCount + 1 := by
  unfold Orchestrator.sweepEnd
  split_ifs <;> rfl

theorem Orchestrator.sweepEnd_phase (o : Orchestrator) :
    o.sweepEnd.phase =
      if o.routed = false ∧ o.threshold < o.idleCount + 1 ∧ o.held ≠ none then .check 0 else .pause := by
  simp only [ne_eq, ← Option.isSome_iff_ne_none, Orchestrator.sweepEnd]
  cases o.routed with
  | true => rfl
  | false =>
    simp only [Bool.false_eq_true, if_false, true_and]
    split_ifs <;> rfl

theorem checkTurn_flag {s : State} {o : Orchestrator} {i : Nat} {n : NetNode} (hn : o.nodes[i]? = some n)
    (seen : Bool) :
    checkTurn s o i seen = s.setOrch
      { o with phase := if (s.idleCell n.machine).read seen then .check (i + 1) else .pause } := by
  simp only [checkTurn, hn]
  split_ifs <;> rfl

theorem checkTurn_all {s : State} {o : Orchestrator} {i : Nat} (h : o.nodes.length ≤ i) (seen : Bool) :
    checkTurn s o i seen = s.setOrch o.allIdle := by
  simp only [checkTurn, List.getElem?_eq_none h]

theorem Orchestrator.allIdle_repeated {o : Orchestrator} {x y : Word} (hh : o.held = some (x, y))
    (hl : o.lastSent = some (x, y)) : o.allIdle = { o with phase := .ended y } := by
  simp only [Orchestrator.allIdle, hh, if_pos hl]

theorem Orchestrator.allIdle_new {o : Orchestrator} {x y : Word} (hh : o.held = some (x, y))
    (hl : o.lastSent ≠ some (x, y)) : o.allIdle = { o with phase := .deliverX x y } := by
  simp only [Orchestrator.allIdle, hh, if_neg hl]

/-- Settles O44: what the cell may be read as, then the action of each phase. -/
theorem orchestratorDetectsIdleness : Obligations.OrchestratorDetectsIdleness := by
  refine ⟨fun c b v => ⟨c.held_read b, IdleCell.read_of_held, c.held_value, by simp, c.write_value v,
    c.held_write v b⟩, fun s o seen seen₁ seen₂ ho => ⟨fun i hphase hi => ?sweepEnd, fun i n hphase hn => ?flag,
    fun i x y hphase hi hheld => ⟨fun hlast => ?repeated, fun m hlast hm _ hrx => ?deliver⟩, fun hphase => ?pause,
    fun y hphase => orchestratorTurn_ended ho seen hphase⟩⟩
  case sweepEnd =>
    rw [orchestratorTurn_drain ho seen hphase, sweepTurn_end hi]
    exact ⟨_, _, rfl, rfl, o.sweepEnd_idleCount, o.sweepEnd_phase⟩
  case flag =>
    rw [orchestratorTurn_check ho seen hphase, checkTurn_flag hn]
    exact ⟨_, _, rfl, rfl, rfl⟩
  case repeated =>
    rw [orchestratorTurn_check ho seen hphase, checkTurn_all hi, Orchestrator.allIdle_repeated hheld hlast]
    exact ⟨_, rfl, rfl⟩
  case deliver =>
    have hread : orchestratorTurn s seen = .next (s.setOrch { o with phase := .deliverX x y }) := by
      rw [orchestratorTurn_check ho seen hphase, checkTurn_all hi, Orchestrator.allIdle_new hheld hlast]
    obtain ⟨t, ht, hqueue⟩ := orchestratorTurns_send_send (o := { o with phase := .deliverX x y })
      (fun _ h => orchestratorTurn_deliverX h seen₁ rfl) (fun _ h => orchestratorTurn_deliverY h seen₂ rfl) hm hm hrx
    exact ⟨_, _, (orchestratorTurns_cons hread _).trans ht, rfl, hqueue, rfl, hheld, rfl, rfl⟩
  case pause => exact ⟨_, orchestratorTurn_pause ho seen hphase, rfl, rfl, rfl, rfl, rfl⟩

end Sys2Proof.Machine
end

section
/-!
Program text (R73): which pieces are numbers, and of which words; which texts are programs.
-/
namespace Sys2Proof.Machine

/-! ### Digits and numbers -/

theorem digitValue_of_decimalDigit {ch : Char} (h : decimalDigit ch = true) :
    digitValue ch = some (ch.toNat - '0'.toNat) :=
  if_pos (of_decide_eq_true h)

theorem digitValue_of_not_decimalDigit {ch : Char} (h : decimalDigit ch = false) : digitValue ch = none :=
  if_neg (of_decide_eq_false h)

/-- Reading digits after those that gave `acc`: in base ten, if all are digits. -/
theorem readDigits_eq (acc : Nat) (cs : List Char) :
    readDigits acc cs =
      if cs.all decimalDigit then some (cs.foldl (fun n ch => 10 * n + (ch.toNat - '0'.toNat)) acc) else none := by
  induction cs generalizing acc with
  | nil => rfl
  | cons ch cs ih =>
    rw [readDigits, List.all_cons]
    cases h : decimalDigit ch with
    | false => rw [digitValue_of_not_decimalDigit h]; rfl
    | true =>
      rw [digitValue_of_decimalDigit h, Bool.true_and, List.foldl_cons, ← Nat.mul_comm acc 10]
      exact ih _

theorem readNat_eq (cs : List Char) : readNat cs = if digitsText cs then some (natValue cs) else none := by
  cases cs with
  | nil => rfl
  | cons ch cs => exact readDigits_eq 0 (ch :: cs)

section
variable {cs : List Char} (h : ∀ ds, cs ≠ '-' :: ds)
include h

theorem readInt_of_no_minus : readInt cs = (readNat cs).map fun n => (n : Int) := by
  unfold readInt
  split
  · exact absurd rfl (h _)
  · rfl

theorem numberText_of_no_minus : numberText cs = digitsText cs := by
  unfold numberText
  split
  · exact absurd rfl (h _)
  · rfl

theorem numberValue_of_no_minus : numberValue cs = (natValue cs : Int) := by
  unfold numberValue
  split
  · exact absurd rfl (h _)
  · rfl

end

theorem readInt_minus (ds : List Char) : readInt ('-' :: ds) = (readNat ds).map fun n => -(n : Int) := rfl

theorem numberText_minus (ds : List Char) : numberText ('-' :: ds) = digitsText ds := rfl

theorem numberValue_minus (ds : List Char) : numberValue ('-' :: ds) = -(natValue ds : Int) := rfl

/-- R73: the reader takes exactly the number texts, at their value. -/
theorem readInt_eq (cs : List Char) : readInt cs = if numberText cs then some (numberValue cs) else none := by
  by_cases hminus : ∃ ds, cs = '-' :: ds
  · obtain ⟨ds, rfl⟩ := hminus
    rw [readInt_minus, numberText_minus, numberValue_minus, readNat_eq]
    cases digitsText ds with
    | true => rfl
    | false => rfl
  · have h := not_exists.mp hminus
    rw [readInt_of_no_minus h, numberText_of_no_minus h, numberValue_of_no_minus h, readNat_eq]
    cases digitsText cs with
    | true => rfl
    | false => rfl

/-! ### Pieces -/

theorem readPiece_of_numberText {cs : List Char} (h : numberText (stripBlanks cs) = true) :
    readPiece cs =
      if Word.minZ ≤ numberValue (stripBlanks cs) ∧ numberValue (stripBlanks cs) ≤ Word.maxZ then
        some (Word.ofZ (numberValue (stripBlanks cs)))
      else none := by
  rw [readPiece, readInt_eq, if_pos h]

theorem readPiece_of_not_numberText {cs : List Char} (h : numberText (stripBlanks cs) = false) :
    readPiece cs = none := by
  rw [readPiece, readInt_eq, h, if_neg Bool.false_ne_true]

/-- R73: a piece is the word `w` exactly if it is a number text of the integer `w` stands for. -/
theorem readPiece_eq_some_iff (cs : List Char) (w : Word) :
    readPiece cs = some w ↔ numberText (stripBlanks cs) = true ∧ numberValue (stripBlanks cs) = w.toInt := by
  cases hn : numberText (stripBlanks cs) with
  | false => simp [readPiece_of_not_numberText hn]
  | true =>
    rw [readPiece_of_numberText hn]
    constructor
    · intro h
      split_ifs at h with hz
      cases h
      exact ⟨rfl, (Word.toInt_ofZ hz).symm⟩
    · rintro ⟨-, h⟩
      rw [h, if_pos (Word.toInt_bounds w), Word.ofZ, BitVec.ofInt_toInt]

/-- R73: a piece is no word exactly if it is no number text or its integer is out of range. -/
theorem readPiece_eq_none_iff (cs : List Char) :
    readPiece cs = none ↔
      numberText (stripBlanks cs) = false ∨ numberValue (stripBlanks cs) < Word.minZ ∨
        Word.maxZ < numberValue (stripBlanks cs) := by
  cases hn : numberText (stripBlanks cs) with
  | false => simp [readPiece_of_not_numberText hn]
  | true =>
    rw [readPiece_of_numberText hn]
    split_ifs with hz
    · simp only [false_iff, false_or]
      omega
    · simp only [false_or, true_iff]
      omega

theorem mapM_eq_some_iff_forall₂ {α β : Type} (f : α → Option β) (l : List α) (bs : List β) :
    l.mapM f = some bs ↔ List.Forall₂ (fun a b => f a = some b) l bs := by
  induction l generalizing bs with
  | nil => simp [eq_comm]
  | cons a l ih =>
    cases bs with
    | nil => simp [List.mapM_cons, Option.bind_eq_some_iff]
    | cons b bs =>
      rw [List.forall₂_cons, ← ih]
      simp [List.mapM_cons, Option.bind_eq_some_iff]

theorem mapM_eq_none_iff_exists {α β : Type} (f : α → Option β) (l : List α) :
    l.mapM f = none ↔ ∃ a ∈ l, f a = none := by
  induction l with
  | nil => simp
  | cons a l ih =>
    cases h : f a with
    | none => simp [List.mapM_cons, h]
    | some b =>
      have htail : (a :: l).mapM f = none ↔ l.mapM f = none := by
        rw [List.mapM_cons, h]
        cases l.mapM f <;> simp
      rw [htail, ih]
      simp [h]

theorem parseProgram_eq_some_iff (text : List Char) (ws : List Word) :
    parseProgram text = some ws ↔
      List.Forall₂ (fun piece w => numberText piece = true ∧ numberValue piece = w.toInt)
        (programPieces text) ws := by
  rw [parseProgram, mapM_eq_some_iff_forall₂, programPieces, List.forall₂_map_left_iff]
  simp only [readPiece_eq_some_iff]

theorem parseProgram_eq_none_iff (text : List Char) :
    parseProgram text = none ↔
      ∃ piece ∈ programPieces text,
        numberText piece = false ∨ numberValue piece < Word.minZ ∨ Word.maxZ < numberValue piece := by
  rw [parseProgram, mapM_eq_none_iff_exists, programPieces]
  simp only [readPiece_eq_none_iff, List.mem_map, exists_exists_and_eq_and]

/-! ### Line breaks and blanks -/

theorem joinLines_append (a b : List Char) : joinLines (a ++ b) = joinLines a ++ joinLines b :=
  List.filter_append ..

theorem joinLines_self {a : List Char} (h : ∀ ch ∈ a, ch ≠ '\n' ∧ ch ≠ '\r') : joinLines a = a :=
  List.filter_eq_self.mpr fun ch hch => decide_eq_true (h ch hch)

theorem isBlank_iff (ch : Char) : isBlank ch = true ↔ ch = ' ' ∨ ch = '\t' := by
  simp [isBlank]

/-- Blanks at the front are stripped. -/
theorem stripBlanks_append_left {l : List Char} (h : ∀ ch ∈ l, isBlank ch = true) (cs : List Char) :
    stripBlanks (l ++ cs) = stripBlanks cs := by
  rw [stripBlanks, List.dropWhile_append_of_pos h, ← stripBlanks]

/-- Blanks at the end are stripped, also behind blanks alone. -/
theorem stripBlanks_append_right (cs : List Char) {r : List Char} (h : ∀ ch ∈ r, isBlank ch = true) :
    stripBlanks (cs ++ r) = stripBlanks cs := by
  have hr : r.dropWhile isBlank = [] := List.dropWhile_eq_nil_iff.mpr h
  rw [stripBlanks, stripBlanks, List.dropWhile_append, hr]
  split_ifs with hcs
  · rw [List.isEmpty_iff.mp hcs]
  · rw [List.reverse_append, List.dropWhile_append_of_pos fun ch hch => h ch (List.mem_reverse.mp hch)]

/-- No character but a blank is stripped. -/
theorem mem_stripBlanks {cs : List Char} {ch : Char} (h : ch ∈ cs) (hb : isBlank ch = false) :
    ch ∈ stripBlanks cs := by
  have hdrop : ∀ l : List Char, ch ∈ l → ch ∈ l.dropWhile isBlank := fun l hl => by
    rw [← List.takeWhile_append_dropWhile (p := isBlank) (l := l), List.mem_append] at hl
    exact hl.resolve_left fun ht => by simp [List.mem_takeWhile_imp ht] at hb
  exact List.mem_reverse.mpr (hdrop _ (List.mem_reverse.mpr (hdrop cs h)))

/-- Every character of a text but the commas is in some piece. -/
theorem mem_splitCommas {cs : List Char} {ch : Char} (h : ch ∈ cs) (hc : ch ≠ ',') :
    ∃ piece ∈ splitCommas cs, ch ∈ piece := by
  induction cs with
  | nil => cases h
  | cons a cs ih =>
    rw [splitCommas]
    rcases List.mem_cons.mp h with rfl | h
    · cases splitCommas cs with
      | nil => exact ⟨[ch], List.mem_cons_self .., List.mem_cons_self ..⟩
      | cons p ps =>
        simp only [if_neg hc]
        exact ⟨ch :: p, List.mem_cons_self .., List.mem_cons_self ..⟩
    · obtain ⟨piece, hpiece, hmem⟩ := ih h
      cases hs : splitCommas cs with
      | nil => rw [hs] at hpiece; cases hpiece
      | cons p ps =>
        rw [hs] at hpiece
        dsimp only
        split_ifs
        · exact ⟨piece, List.mem_cons_of_mem _ hpiece, hmem⟩
        · rcases List.mem_cons.mp hpiece with rfl | hps
          · exact ⟨a :: piece, List.mem_cons_self .., List.mem_cons_of_mem _ hmem⟩
          · exact ⟨piece, List.mem_cons_of_mem _ hps, hmem⟩

/-! ### Characters -/

theorem numberText_chars {cs : List Char} (h : numberText cs = true) :
    ∀ ch ∈ cs, ch = '-' ∨ decimalDigit ch = true := by
  unfold numberText at h
  split at h
  · intro ch hch
    simp only [digitsText, Bool.and_eq_true, List.all_eq_true] at h
    rcases List.mem_cons.mp hch with rfl | hch
    · exact .inl rfl
    · exact .inr (h.2 ch hch)
  · intro ch hch
    simp only [digitsText, Bool.and_eq_true, List.all_eq_true] at h
    exact .inr (h.2 ch hch)

/-- A number text has no blank in it. -/
theorem numberText_not_blank {cs : List Char} (h : numberText cs = true) : ∀ ch ∈ cs, isBlank ch = false := by
  intro ch hch
  rw [← Bool.not_eq_true, isBlank_iff]
  rintro (rfl | rfl)
  · rcases numberText_chars h _ hch with h | h <;> revert h <;> decide
  · rcases numberText_chars h _ hch with h | h <;> revert h <;> decide

/-- R73: the characters of a text that is a program. -/
theorem programChar_of_parses {text : List Char} {ws : List Word} (h : parseProgram text = some ws) :
    ∀ ch ∈ text, programChar ch = true := by
  intro ch hch
  by_contra hbad
  simp only [programChar, Bool.or_eq_true, decide_eq_true_eq, not_or, Bool.not_eq_true] at hbad
  obtain ⟨⟨⟨⟨⟨hdigit, hminus⟩, hcomma⟩, hblank⟩, hnl⟩, hcr⟩ := hbad
  have hjoin : ch ∈ joinLines text := List.mem_filter.mpr ⟨hch, decide_eq_true ⟨hnl, hcr⟩⟩
  obtain ⟨piece, hpiece, hmem⟩ := mem_splitCommas hjoin hcomma
  have hnumber : numberText (stripBlanks piece) = true := by
    by_contra hn
    have hnone := (parseProgram_eq_none_iff text).mpr
      ⟨_, List.mem_map_of_mem hpiece, .inl (Bool.not_eq_true _ ▸ hn)⟩
    rw [h] at hnone
    cases hnone
  rcases numberText_chars hnumber ch (mem_stripBlanks hmem hblank) with h | h
  · exact hminus h
  · rw [digitValue_of_decimalDigit h] at hdigit
    cases hdigit

/-! ### A program as it is printed -/

/-- What a printed integer is made of is no comma, no blank and no line break. -/
theorem intText_chars {z : Int} {ch : Char} (h : ch ∈ (intText z).toList) :
    ch ≠ ',' ∧ isBlank ch = false ∧ ch ≠ '\n' ∧ ch ≠ '\r' := by
  have hne : ∀ x : Char, x.isDigit = false → x ≠ '-' → ch ≠ x := by
    rintro x hd hm rfl
    rcases mem_intText h with h | h
    · rw [hd] at h
      cases h
    · exact hm h
  refine ⟨hne ',' (by decide) (by decide), ?_, hne '\n' (by decide) (by decide), hne '\r' (by decide) (by decide)⟩
  rw [← Bool.not_eq_true, isBlank_iff, not_or]
  exact ⟨hne ' ' (by decide) (by decide), hne '\t' (by decide) (by decide)⟩

theorem readPiece_intText (w : Word) : readPiece (intText w.toInt).toList = some w := by
  rw [readPiece, stripBlanks_self fun ch h => (intText_chars h).2.1, readInt_intText]
  simp only [if_pos (Word.toInt_bounds w), Word.ofZ, BitVec.ofInt_toInt]

theorem programText_cons_cons (w v : Word) (ws : List Word) :
    programText (w :: v :: ws) = (intText w.toInt).toList ++ ',' :: programText (v :: ws) := rfl

theorem splitCommas_programText {ws : List Word} (h : ws ≠ []) :
    splitCommas (programText ws) = ws.map fun w => (intText w.toInt).toList := by
  have hcomma : ∀ w : Word, ',' ∉ (intText w.toInt).toList := fun w hw => (intText_chars hw).1 rfl
  induction ws with
  | nil => exact absurd rfl h
  | cons w ws ih =>
    cases ws with
    | nil => exact splitCommas_self (hcomma w)
    | cons v ws =>
      rw [programText_cons_cons, splitCommas_append (hcomma w), ih (List.cons_ne_nil v ws)]
      rfl

theorem programText_no_lines (ws : List Word) : ∀ ch ∈ programText ws, ch ≠ '\n' ∧ ch ≠ '\r' := by
  have hint : ∀ w : Word, ∀ ch ∈ (intText w.toInt).toList, ch ≠ '\n' ∧ ch ≠ '\r' :=
    fun w ch h => (intText_chars h).2.2
  induction ws with
  | nil => nofun
  | cons w ws ih =>
    cases ws with
    | nil => exact hint w
    | cons v ws =>
      rw [programText_cons_cons]
      exact List.forall_mem_append.mpr ⟨hint w, List.forall_mem_cons.mpr ⟨by decide, ih⟩⟩

theorem parseProgram_programText {ws : List Word} (h : ws ≠ []) : parseProgram (programText ws) = some ws := by
  rw [parseProgram, joinLines_self (programText_no_lines ws), splitCommas_programText h, mapM_eq_some_iff_forall₂,
    List.forall₂_map_left_iff, List.forall₂_same]
  exact fun w _ => readPiece_intText w

/-- Settles O47: the reader's answer on a text by its pieces, each part of the reader, and the examples by
evaluation. -/
theorem programTextIsReadBack : Obligations.ProgramTextIsReadBack := by
  refine ⟨fun ws => parseProgram_programText, parseProgram_eq_some_iff, parseProgram_eq_none_iff,
    fun text ⟨ch, hch, hbad⟩ => ?chars, fun a b => ?lines,
    fun piece rest h => ⟨splitCommas_self h, splitCommas_append h⟩, fun l cs r hblank => ?blanks,
    by decide, by decide, by decide, by decide, by decide, by decide, by decide, by decide, by decide⟩
  case chars =>
    rw [Option.eq_none_iff_forall_ne_some]
    intro ws h
    rw [programChar_of_parses h ch hch] at hbad
    cases hbad
  case lines =>
    simp only [joinLines_append]
    refine ⟨rfl, rfl, fun hnl hcr => joinLines_self fun ch hch => ⟨?_, ?_⟩⟩
    · rintro rfl
      exact hnl hch
    · rintro rfl
      exact hcr hch
  case blanks =>
    have hall : ∀ ch ∈ l ++ r, isBlank ch = true := fun ch hch => (isBlank_iff ch).mpr (hblank ch hch)
    obtain ⟨hl, hr⟩ := List.forall_mem_append.mp hall
    refine ⟨?_, fun hn => stripBlanks_self (numberText_not_blank hn)⟩
    rw [stripBlanks_append_right _ hr, stripBlanks_append_left hl]

end Sys2Proof.Machine
end

section
/-!
The host's turn (R186): its sends, receives and drops, its loads (R124, R180), its Connectors (R131) and what it is
told (R171, R183 to R185).
-/
namespace Sys2Proof.Machine

theorem step_host {s : State} {a : HostAction} {rest : List Turn} (h : s.schedule = .host a :: rest) :
    step s = hostTurn { s with schedule := rest } a := by
  rw [step_planned h, takeTurn]

/-! ### Handles -/

theorem hostRecv_word {s : State} {i : Nat} {v : Word} {rest : List Word} (h : (s.chan i).q = v :: rest) :
    hostRecv s i =
      { s.setChan i { s.chan i with q := rest } with received := s.received ++ [(i, v)] } := by
  rw [hostRecv, State.recv_cons h]
  rfl

/-- Settles O48: each action by the test of its handle. -/
theorem hostUsesOnlyItsHandles : Obligations.HostUsesOnlyItsHandles := by
  intro s n rest v
  refine ⟨fun hs => ?send, fun hs => ?dropTx, fun hs => ?dropRx, fun hs => ?recv⟩
  case send =>
    rw [step_host hs]
    exact ⟨fun h => if_pos h, fun h => if_neg (Bool.eq_false_iff.mp h)⟩
  case dropTx =>
    rw [step_host hs]
    exact ⟨fun h => if_pos h, fun h => if_neg (Bool.eq_false_iff.mp h)⟩
  case dropRx =>
    rw [step_host hs]
    exact ⟨fun h => if_pos h, fun h => if_neg (Bool.eq_false_iff.mp h)⟩
  case recv =>
    rw [step_host hs]
    refine ⟨fun w q h hq hn => ⟨_, if_pos h, ?_, ?_⟩, fun h => if_neg (Bool.eq_false_iff.mp h)⟩
    · rw [hostRecv_word (s := { s with schedule := rest }) hq]
    · rw [hostRecv_word (s := { s with schedule := rest }) hq]
      exact congrArg Channel.q (State.chan_setChan_self _ _ hn)

/-! ### Loads -/

/-- A load makes the channels of the device alone. -/
theorem State.loadInstance_chans (s : State) (program : List Word) (kind : DeviceKind) :
    (s.loadInstance program kind).chans = (attach s kind).1.chans := by
  cases kind <;> rfl

theorem hostLoad_fits {s : State} {program : List Word} (h : program.length ≤ s.params.memLimit)
    (kind : DeviceKind) : hostLoad s program kind = .next (s.loadInstance program kind) :=
  if_pos h

theorem hostLoad_too_long {s : State} {program : List Word} (h : s.params.memLimit < program.length)
    (kind : DeviceKind) : hostLoad s program kind = .refused .loadRefused :=
  if_neg (Nat.not_le.mpr h)

theorem attach_chans_channels (s : State) (kind : DeviceKind) (h : kind = .blocking ∨ kind = .nonblocking) :
    (attach s kind).1.chans =
      s.chans ++
        [⟨[], true, true, .host, .device s.instances.length⟩,
          ⟨[], true, true, .device s.instances.length, .host⟩] := by
  rcases h with rfl | rfl <;> exact List.append_assoc ..

/-- The host's `Load` of a program that fits. -/
theorem step_load {s : State} {program : List Word} {kind : DeviceKind} {rest : List Turn}
    (hs : s.schedule = .host (.load program kind) :: rest) (h : program.length ≤ s.params.memLimit) :
    ∃ t, step s = .next t ∧ t.instances = s.instances ++ [CoreState.load program (attach s kind).2] ∧
      t.chans = (attach s kind).1.chans := by
  refine ⟨_, (step_host hs).trans (hostLoad_fits (s := { s with schedule := rest }) h kind), ?_, ?_⟩
  · rw [State.instances_loadInstance]
    cases kind <;> rfl
  · rw [State.loadInstance_chans]
    cases kind <;> rfl

/-- Settles O49: the load for each device, its refusal, the text, and the new channel. -/
theorem constructionGivesFreshDevices : Obligations.ConstructionGivesFreshDevices := by
  intro s program rest
  refine ⟨fun hfits => ⟨fun hs => ?inert, fun hs => ?blocking, fun hs => ?nonblocking, fun v hs => ?latest⟩,
    fun kind hlong hs => ?refused, fun kind text hs => ⟨fun hp => ?text, fun hp => ?noText⟩, fun hs => ?newChannel⟩
  case inert =>
    obtain ⟨t, ht, hi, hc⟩ := step_load hs hfits
    exact ⟨t, ht, hc, hi⟩
  case blocking =>
    obtain ⟨t, ht, hi, hc⟩ := step_load hs hfits
    exact ⟨t, ht, hi, hc.trans (attach_chans_channels s _ (.inl rfl))⟩
  case nonblocking =>
    obtain ⟨t, ht, hi, hc⟩ := step_load hs hfits
    exact ⟨t, ht, hi, hc.trans (attach_chans_channels s _ (.inr rfl))⟩
  case latest =>
    obtain ⟨t, ht, hi, hc⟩ := step_load hs hfits
    exact ⟨t, ht, hc, hi⟩
  case refused => exact (step_host hs).trans (hostLoad_too_long (s := { s with schedule := rest }) hlong kind)
  case text =>
    have hload : step { s with schedule := .host (.load program kind) :: rest } =
        hostLoad { s with schedule := rest } program kind := rfl
    rw [step_host hs, hload, hostTurn, hp]
  case noText => rw [step_host hs, hostTurn, hp]
  case newChannel => exact ⟨_, step_host hs, rfl, rfl⟩

/-! ### Connectors -/

theorem State.lt_of_hostRx {s : State} {i : Nat} (h : s.hostRx i = true) : i < s.chans.length := by
  by_contra hi
  rw [State.hostRx, s.chan_gone (Nat.not_lt.mp hi)] at h
  cases h

theorem State.lt_of_hostTx {s : State} {i : Nat} (h : s.hostTx i = true) : i < s.chans.length := by
  by_contra hi
  rw [State.hostTx, s.chan_gone (Nat.not_lt.mp hi)] at h
  cases h

/-- A handle another agent holds is not the host's. -/
theorem State.hostRx_of_holder {s : State} {i : Nat} (h : (s.chan i).rxHolder ≠ .host) : s.hostRx i = false := by
  simp [State.hostRx, h]

theorem State.hostTx_of_holder {s : State} {i : Nat} (h : (s.chan i).txHolder ≠ .host) : s.hostTx i = false := by
  simp [State.hostTx, h]

theorem moveTx_conns (s : State) (h : Holder) (l : List Nat) : (moveTx s h l).conns = s.conns := by
  induction l generalizing s with
  | nil => rfl
  | cons d l ih => rw [moveTx, ih, State.modChan_conns]

/-- R131: the moves change the holders of these producer handles alone. -/
theorem chan_moveTx (s : State) (h : Holder) (l : List Nat) (n : Nat) :
    (moveTx s h l).chan n =
      if n ∈ l ∧ n < s.chans.length then { s.chan n with txHolder := h } else s.chan n := by
  induction l generalizing s with
  | nil => simp [moveTx]
  | cons d l ih =>
    rw [moveTx, ih, State.chan_modChan, State.modChan_chans, List.length_set]
    by_cases hn : n = d
    · subst hn
      by_cases hl : n < s.chans.length <;> by_cases hm : n ∈ l <;> simp [hl, hm]
    · simp [hn]

theorem State.canConnect_iff (s : State) (up : Nat) (down : List Nat) :
    s.canConnect up down = true ↔
      s.hostRx up = true ∧ down ≠ [] ∧ down.Nodup ∧ ∀ d ∈ down, s.hostTx d = true := by
  simp [State.canConnect, and_assoc]

/-- Two channels of which the queue and the two flags are the same; their holders may differ. -/
structure Channel.SameUse (a b : Channel) : Prop where
  q : b.q = a.q
  txAlive : b.txAlive = a.txAlive
  rxAlive : b.rxAlive = a.rxAlive

theorem Channel.SameUse.trans {a b c : Channel} (h : a.SameUse b) (g : b.SameUse c) : a.SameUse c :=
  ⟨g.q.trans h.q, g.txAlive.trans h.txAlive, g.rxAlive.trans h.rxAlive⟩

/-- A change of a channel's holders, seen at any channel. -/
theorem State.sameUse_modChan (s : State) (i : Nat) {f : Channel → Channel} (hf : ∀ ch : Channel, ch.SameUse (f ch))
    (n : Nat) : (s.chan n).SameUse ((s.modChan i f).chan n) := by
  rw [State.chan_modChan]
  split_ifs with h
  · rw [h.1]
    exact hf _
  · exact ⟨rfl, rfl, rfl⟩

theorem sameUse_moveTx (s : State) (h : Holder) (l : List Nat) (n : Nat) :
    (s.chan n).SameUse ((moveTx s h l).chan n) := by
  induction l generalizing s with
  | nil => exact ⟨rfl, rfl, rfl⟩
  | cons d l ih => exact (s.sameUse_modChan d (f := fun ch => { ch with txHolder := h })
    (fun _ => ⟨rfl, rfl, rfl⟩) n).trans (ih _)

theorem moveTx_rxHolder (s : State) (h : Holder) (l : List Nat) (n : Nat) :
    ((moveTx s h l).chan n).rxHolder = (s.chan n).rxHolder := by
  rw [chan_moveTx]
  split_ifs <;> rfl

theorem moveTx_txHolder {s : State} (h : Holder) {l : List Nat} {n : Nat} (hn : n ∈ l) (hlt : n < s.chans.length) :
    ((moveTx s h l).chan n).txHolder = h := by
  rw [chan_moveTx, if_pos ⟨hn, hlt⟩]

/-- R131: the handles moved into the next Connector. -/
def handlesMoved (s : State) (up : Nat) (down : List Nat) : State :=
  moveTx (s.modChan up fun ch => { ch with rxHolder := .connector s.conns.length }) (.connector s.conns.length) down

theorem hostConnect_of_canConnect {s : State} {up : Nat} {down : List Nat} (h : s.canConnect up down = true) :
    hostConnect s up down =
      .next { handlesMoved s up down with
        conns := (handlesMoved s up down).conns ++
          [{ up := up, down := down, cur := none, k := 0, done := false }] } :=
  if_pos h

theorem handlesMoved_conns (s : State) (up : Nat) (down : List Nat) : (handlesMoved s up down).conns = s.conns :=
  moveTx_conns ..

theorem handlesMoved_instances (s : State) (up : Nat) (down : List Nat) :
    (handlesMoved s up down).instances = s.instances :=
  ((State.SameInstances.modChan s up _).trans (moveTx_instances _ _ down)).instances

theorem sameUse_handlesMoved (s : State) (up : Nat) (down : List Nat) (n : Nat) :
    (s.chan n).SameUse ((handlesMoved s up down).chan n) :=
  (s.sameUse_modChan up (f := fun ch => { ch with rxHolder := .connector s.conns.length })
    (fun _ => ⟨rfl, rfl, rfl⟩) n).trans (sameUse_moveTx ..)

theorem handlesMoved_rxHolder {s : State} {up : Nat} (h : up < s.chans.length) (down : List Nat) :
    ((handlesMoved s up down).chan up).rxHolder = .connector s.conns.length := by
  rw [handlesMoved, moveTx_rxHolder, State.chan_modChan, if_pos ⟨rfl, h⟩]

theorem handlesMoved_txHolder {s : State} {down : List Nat} {d : Nat} (up : Nat) (hd : d ∈ down)
    (h : d < s.chans.length) : ((handlesMoved s up down).chan d).txHolder = .connector s.conns.length :=
  moveTx_txHolder _ hd (by rw [State.modChan_chans, List.length_set]; exact h)

/-- Settles O50: the test of the handles, then the moves, each of which changes one holder. -/
theorem connectMovesTheHandles : Obligations.ConnectMovesTheHandles := by
  intro s up down rest hs
  rw [step_host hs]
  refine ⟨fun hup hne hnodup hdown => ?made, fun h => ?refused⟩
  case made =>
    have hcan := (State.canConnect_iff { s with schedule := rest } up down).mpr ⟨hup, hne, hnodup, hdown⟩
    have hrx := handlesMoved_rxHolder (s := { s with schedule := rest }) (State.lt_of_hostRx hup) down
    have htx := fun d hd =>
      handlesMoved_txHolder (s := { s with schedule := rest }) up hd (State.lt_of_hostTx (hdown d hd))
    have huse := sameUse_handlesMoved { s with schedule := rest } up down
    refine ⟨_, hostConnect_of_canConnect hcan, ?_, hrx, State.hostRx_of_holder ?_,
      fun d hd => ⟨htx d hd, State.hostTx_of_holder ?_⟩,
      fun n => ⟨(huse n).q, (huse n).txAlive, (huse n).rxAlive⟩, handlesMoved_instances ..⟩
    · rw [handlesMoved_conns]
    · exact ne_of_eq_of_ne hrx nofun
    · exact ne_of_eq_of_ne (htx d hd) nofun
  case refused =>
    refine if_neg fun hcan => ?_
    obtain ⟨hup, hne, -, hdown⟩ := (s.canConnect_iff up down).mp hcan
    rcases h with h | h | ⟨d, hd, h⟩
    · exact hne h
    · rw [hup] at h; cases h
    · rw [hdown d hd] at h; cases h

/-! ### What the host is told -/

theorem CoreState.runResult_of_not_started {c : CoreState} (h : c.started = false) : c.runResult = none := by
  simp [CoreState.runResult, h]

theorem CoreState.runResult_of_running {c : CoreState} (h : c.status = .running) : c.runResult = none := by
  simp [CoreState.runResult, h]

theorem CoreState.runResult_of_halted {c : CoreState} (hs : c.started = true) (h : c.status = .halted) :
    c.runResult = some .halted := by
  simp [CoreState.runResult, hs, h]

theorem CoreState.runResult_of_faulted {c : CoreState} {f : FaultCode} (hs : c.started = true)
    (h : c.fcause = some f) : c.runResult = some (.faulted f c.finfo) := by
  have hstatus : c.status = .faulted := c.status_eq_faulted_iff.mpr (by simp [h])
  simp [CoreState.runResult, hs, hstatus, h]

/-- `Run` of a core that has been run has returned once the core has stopped. -/
theorem CoreState.runResult_isSome {c : CoreState} (hs : c.started = true) (h : c.status ≠ .running) :
    ∃ r, c.runResult = some r := by
  cases hf : c.fcause with
  | some f => exact ⟨_, CoreState.runResult_of_faulted hs hf⟩
  | none =>
    refine ⟨_, CoreState.runResult_of_halted hs ?_⟩
    cases hh : c.halted with
    | true => exact c.status_eq_halted_iff.mpr ⟨hf, hh⟩
    | false => exact absurd (c.status_eq_running_iff.mpr ⟨hf, hh⟩) h

/-- R184: nothing to inspect before `Run` has returned. -/
theorem CoreState.inspect_of_runResult_none {c : CoreState} (h : c.runResult = none) :
    (∀ a, c.inspect a = none) ∧ c.inspectLength = none ∧ c.inspectLatest = none := by
  simp [CoreState.inspect, CoreState.inspectLength, CoreState.inspectLatest, h]

theorem CoreState.ended_iff (c : CoreState) :
    c.ended = true ↔ c.status = .halted ∧ (c.released = true ∨ c.dev.handles = none) := by
  unfold CoreState.ended
  cases c.status <;> simp

/-- R183: the host's `Run` of an instance. -/
theorem step_run {s : State} {k : Nat} {rest : List Turn} {c : CoreState}
    (hs : s.schedule = .host (.run k) :: rest) (hk : s.instances[k]? = some c) :
    step s = .next (State.modifyInstance { s with schedule := rest } k CoreState.start) :=
  (step_host hs).trans (if_pos (List.getElem?_eq_some_iff.mp hk).1)

/-- Settles O53: `Run`, its result and `Inspect` by the status, and the end of the system by its cores. -/
theorem runReturnsAndInspectReads : Obligations.RunReturnsAndInspectReads := by
  refine ⟨fun s k rest hs => ⟨fun c hk => ?run, fun hk => ?noInstance⟩,
    fun c => ⟨fun h => ?notReturned, CoreState.runResult_of_halted,
      fun f hstarted hf => ⟨c.status_eq_faulted_iff.mpr (by simp [hf]), CoreState.runResult_of_faulted hstarted hf⟩,
      fun hstarted hstopped => ?inspect⟩, fun s waited => ?ended⟩
  case run =>
    obtain ⟨hparams, hchans, hconns, horch, hreceived, hschedule⟩ :=
      State.modifyInstance_frame { s with schedule := rest } k CoreState.start
    exact ⟨_, step_run hs hk, (State.instances_modifyInstance _ k _).trans (modify_eq_set _ hk), hparams, hchans,
      hconns, horch, hreceived, hschedule⟩
  case noInstance => exact (step_host hs).trans (if_neg (Nat.not_lt.mpr hk))
  case notReturned =>
    have hnone : c.runResult = none :=
      h.elim CoreState.runResult_of_running CoreState.runResult_of_not_started
    exact ⟨hnone, CoreState.inspect_of_runResult_none hnone⟩
  case inspect =>
    obtain ⟨r, hr⟩ := CoreState.runResult_isSome hstarted hstopped
    refine ⟨fun a => ⟨fun ha => ?_, fun ha => ?_⟩, ?_, fun lv hdev => ?_⟩
    · simp [CoreState.inspect, hr, ha]
    · simp [CoreState.inspect, hr, Nat.not_lt.mpr ha]
    · simp [CoreState.inspectLength, hr]
    · simp [CoreState.inspectLatest, hr, hdev, Device.latestValue]
  case ended =>
    simp only [State.ended, Bool.and_eq_true, List.all_eq_true, CoreState.ended_iff, s.mem_systemCores, and_assoc]
    refine and_congr ?_ Iff.rfl
    exact ⟨fun h k c hk hsys => h c ⟨k, hk, hsys⟩, fun h c ⟨k, hk, hsys⟩ => h k c hk hsys⟩

end Sys2Proof.Machine
end

section
/-!
Opening a network (R141 to R143): what the enrolment of the machines does to their channels and to the instances, for
the network the host hands over (R124) and for the one that is booted.
-/
namespace Sys2Proof.Machine

/-! ### The parameters of a network -/

/-- R141. -/
theorem State.canOpen_iff (s : State) (n : Nat) (sentinel : Word) :
    s.canOpen n sentinel = true ↔
      s.orch = none ∧ (1 ≤ n ∧ n ≤ 9223372036854775808) ∧ (sentinel.toInt < 0 ∨ (n : Int) ≤ sentinel.toInt) := by
  simp only [State.canOpen, Bool.and_eq_true, Option.isNone_iff_eq_none, decide_eq_true_eq, Bool.not_eq_true',
    Bool.and_eq_false_iff, decide_eq_false_iff_not, not_le, not_lt, and_assoc]

/-- Every address of a network is a word (R141). -/
theorem toInt_ofNat_address {i n : Nat} (hi : i < n) (hn : n ≤ 9223372036854775808) :
    (BitVec.ofNat 64 i).toInt = (i : Int) := by
  have hlt : i < 9223372036854775808 := lt_of_lt_of_le hi hn
  rw [BitVec.toInt_eq_toNat_of_lt] <;> rw [BitVec.toNat_ofNat, Nat.mod_eq_of_lt (by omega)]
  omega

/-! ### Enrolment: the channels -/

/-- The addresses sent to channel `k` when machines with these nodes are enrolled from address `i` on. -/
def addressesSent (k i : Nat) : List NetNode → List Word
  | [] => []
  | n :: rest => (if k = n.inCh then [BitVec.ofNat 64 i] else []) ++ addressesSent k (i + 1) rest

theorem addressesSent_of_not_mem {k : Nat} {nodes : List NetNode} (h : k ∉ nodes.map NetNode.inCh) (i : Nat) :
    addressesSent k i nodes = [] := by
  induction nodes generalizing i with
  | nil => rfl
  | cons n nodes ih =>
    obtain ⟨hne, hrest⟩ : k ≠ n.inCh ∧ k ∉ nodes.map NetNode.inCh := by simpa using h
    rw [addressesSent, if_neg hne, ih hrest]
    rfl

/-- With distinct input channels each machine is sent one word, its address. -/
theorem addressesSent_of_nodup {nodes : List NetNode} (hnodup : (nodes.map NetNode.inCh).Nodup) {j : Nat}
    {m : NetNode} (hj : nodes[j]? = some m) (i : Nat) :
    addressesSent m.inCh i nodes = [BitVec.ofNat 64 (i + j)] := by
  induction nodes generalizing i j with
  | nil => cases hj
  | cons n nodes ih =>
    obtain ⟨hn, hnodup⟩ := List.nodup_cons.mp hnodup
    cases j with
    | zero =>
      obtain rfl : n = m := Option.some.inj hj
      rw [addressesSent, if_pos rfl, addressesSent_of_not_mem hn]
      rfl
    | succ j =>
      have hne : m.inCh ≠ n.inCh := fun h =>
        hn (h ▸ List.mem_map_of_mem (f := NetNode.inCh) (List.mem_of_getElem? hj))
      rw [addressesSent, if_neg hne, ih hnodup hj, Nat.add_right_comm, Nat.add_assoc]
      rfl

/-- The far handles of a machine's device, taken by the orchestrator (R143). -/
theorem chan_handlesTaken (s : State) (n : NetNode) {k : Nat} (hk : k < s.chans.length) :
    ((s.modChan n.inCh fun ch => { ch with txHolder := .orchestrator }).modChan n.outCh fun ch =>
        { ch with rxHolder := .orchestrator }).chan k =
      { s.chan k with
        txHolder := if k = n.inCh then .orchestrator else (s.chan k).txHolder
        rxHolder := if k = n.outCh then .orchestrator else (s.chan k).rxHolder } := by
  have hin : (s.modChan n.inCh fun ch => { ch with txHolder := .orchestrator }).chan k =
      { s.chan k with txHolder := if k = n.inCh then .orchestrator else (s.chan k).txHolder } := by
    rw [State.chan_modChan]
    by_cases h : k = n.inCh
    · rw [if_pos ⟨h, h ▸ hk⟩, if_pos h, h]
    · rw [if_neg fun hn => h hn.1, if_neg h]
  rw [State.chan_modChan, hin]
  by_cases h : k = n.outCh
  · rw [if_pos ⟨h, by rw [State.modChan_chans, List.length_set]; exact h ▸ hk⟩, ← h, hin, if_pos rfl]
  · rw [if_neg fun hn => h hn.1, if_neg h]

/-- A channel after the enrolment of a machine: its holders and what is queued. -/
theorem chan_enrol (s : State) (i : Nat) (n : NetNode) {k : Nat} (hk : k < s.chans.length) :
    (enrol s i n).chan k =
      { s.chan k with
        q := if (s.chan k).rxAlive then (s.chan k).q ++ (if k = n.inCh then [BitVec.ofNat 64 i] else [])
          else (s.chan k).q
        txHolder := if k = n.inCh then .orchestrator else (s.chan k).txHolder
        rxHolder := if k = n.outCh then .orchestrator else (s.chan k).rxHolder } := by
  rw [enrol, State.modifyInstance_chan, State.chan_send, chan_handlesTaken s n hk]
  by_cases h : k = n.inCh
  · have htaken := chan_handlesTaken s n (k := n.inCh) (h ▸ hk)
    subst h
    rw [if_pos rfl, htaken, Channel.send]
    split_ifs <;> simp_all
  · simp [h]

theorem enrol_chans_length (s : State) (i : Nat) (n : NetNode) :
    (enrol s i n).chans.length = s.chans.length := by
  rw [enrol, (State.modifyInstance_frame _ _ _).2.1, State.send_chans_length, State.modChan_chans, List.length_set,
    State.modChan_chans, List.length_set]

theorem enrolAll_chans_length (s : State) (i : Nat) (nodes : List NetNode) :
    (enrolAll s i nodes).chans.length = s.chans.length := by
  induction nodes generalizing s i with
  | nil => rfl
  | cons n nodes ih => rw [enrolAll, ih, enrol_chans_length]

/-- A channel after the enrolment of all machines. -/
theorem chan_enrolAll (s : State) (i : Nat) (nodes : List NetNode) {k : Nat} (hk : k < s.chans.length) :
    (enrolAll s i nodes).chan k =
      { s.chan k with
        q := if (s.chan k).rxAlive then (s.chan k).q ++ addressesSent k i nodes else (s.chan k).q
        txHolder := if k ∈ nodes.map NetNode.inCh then .orchestrator else (s.chan k).txHolder
        rxHolder := if k ∈ nodes.map NetNode.outCh then .orchestrator else (s.chan k).rxHolder } := by
  induction nodes generalizing s i with
  | nil => simp [enrolAll, addressesSent]
  | cons n nodes ih =>
    rw [enrolAll, ih _ _ (by rw [enrol_chans_length]; exact hk), chan_enrol s i n hk]
    simp only [List.map_cons, List.mem_cons, addressesSent, Channel.mk.injEq, true_and]
    refine ⟨?_, ?_, ?_⟩
    · split_ifs <;> simp
    · by_cases h : k ∈ nodes.map NetNode.inCh <;> simp [h]
    · by_cases h : k ∈ nodes.map NetNode.outCh <;> simp [h]

/-! ### Enrolment: the instances -/

theorem enrol_instances_modify (s : State) (i : Nat) (n : NetNode) :
    (enrol s i n).instances = s.instances.modify n.machine CoreState.start :=
  State.instances_modifyInstance ..

theorem enrolAll_instances_length (s : State) (i : Nat) (nodes : List NetNode) :
    (enrolAll s i nodes).instances.length = s.instances.length := by
  induction nodes generalizing s i with
  | nil => rfl
  | cons n nodes ih => rw [enrolAll, ih, enrol_instances_modify, List.length_modify]

/-- Each machine enrolled is run; to be run twice is to be run. -/
theorem enrolAll_instance (s : State) (i : Nat) (nodes : List NetNode) {k : Nat} {c : CoreState}
    (hk : s.instances[k]? = some c) :
    (enrolAll s i nodes).instances[k]? =
      some (if k ∈ nodes.map NetNode.machine then c.start else c) := by
  induction nodes generalizing s i c with
  | nil => simpa [enrolAll] using hk
  | cons n nodes ih =>
    have hn : (enrol s i n).instances[k]? = some (if k = n.machine then c.start else c) := by
      rw [enrol_instances_modify, List.getElem?_modify, hk]
      simp [eq_comm (a := k)]
    rw [enrolAll, ih _ _ hn]
    by_cases h : k ∈ nodes.map NetNode.machine <;> by_cases hm : k = n.machine <;> simp [h, hm]

/-! ### The network -/

theorem openNetwork_chan (s : State) (nodes : List NetNode) (sentinel : Word) (threshold : Nat) (mode : NetMode)
    (k : Nat) : (openNetwork s nodes sentinel threshold mode).chan k = (enrolAll s 0 nodes).chan k := rfl

theorem openNetwork_instances_eq (s : State) (nodes : List NetNode) (sentinel : Word) (threshold : Nat)
    (mode : NetMode) :
    (openNetwork s nodes sentinel threshold mode).instances = (enrolAll s 0 nodes).instances := rfl

/-- A machine enrolled at an address: its instance is run, its far handles are the orchestrator's, and a live input
holds its address behind what it held. -/
theorem openNetwork_machine {s : State} {nodes : List NetNode} {i : Nat} {m : NetNode} {c : CoreState}
    (sentinel : Word) (threshold : Nat) (mode : NetMode) (hm : nodes[i]? = some m)
    (hnodup : (nodes.map NetNode.inCh).Nodup) (hk : s.instances[m.machine]? = some c)
    (hin : m.inCh < s.chans.length) (hout : m.outCh < s.chans.length) (hrx : (s.chan m.inCh).rxAlive = true) :
    (openNetwork s nodes sentinel threshold mode).instances[m.machine]? = some c.start ∧
      ((openNetwork s nodes sentinel threshold mode).chan m.inCh).q =
        (s.chan m.inCh).q ++ [BitVec.ofNat 64 i] ∧
      ((openNetwork s nodes sentinel threshold mode).chan m.inCh).txHolder = .orchestrator ∧
      ((openNetwork s nodes sentinel threshold mode).chan m.outCh).rxHolder = .orchestrator := by
  have hmem := List.mem_of_getElem? hm
  rw [openNetwork_instances_eq, openNetwork_chan, openNetwork_chan, chan_enrolAll s 0 nodes hin,
    chan_enrolAll s 0 nodes hout, enrolAll_instance s 0 nodes hk,
    if_pos (List.mem_map_of_mem (f := NetNode.machine) hmem)]
  refine ⟨rfl, ?_, if_pos (List.mem_map_of_mem (f := NetNode.inCh) hmem),
    if_pos (List.mem_map_of_mem (f := NetNode.outCh) hmem)⟩
  rw [addressesSent_of_nodup hnodup hm, Nat.zero_add]
  exact if_pos hrx

/-! ### Handing over -/

theorem State.nodeOf_of_device {s : State} {m : NetNode} {c : CoreState} {first : Bool} {idle : IdleCell}
    {owed : Option Bool} (hk : s.instances[m.machine]? = some c)
    (hd : c.dev = .nonblocking m.inCh m.outCh first idle owed) (hp : m.part = []) :
    s.nodeOf m.machine = some m := by
  simp only [State.nodeOf, hk, Option.map_some, hd]
  rw [← hp]

theorem State.nodeOf_eq_some {s : State} {k : Nat} {m : NetNode} (h : s.nodeOf k = some m) :
    ∃ c first idle owed, s.instances[k]? = some c ∧ c.dev = .nonblocking m.inCh m.outCh first idle owed := by
  unfold State.nodeOf at h
  cases hk : s.instances[k]? with
  | none => rw [hk] at h; cases h
  | some c =>
    rw [hk, Option.map_some] at h
    cases hd : c.dev <;> rw [hd] at h <;> cases h
    exact ⟨c, _, _, _, rfl, hd⟩

/-- The instances a host hands over stand for the nodes they make. -/
theorem filterMap_nodeOf {s : State} {nodes : List NetNode} (h : ∀ m ∈ nodes, s.nodeOf m.machine = some m) :
    (nodes.map NetNode.machine).filterMap s.nodeOf = nodes := by
  rw [List.filterMap_map]
  exact (List.filterMap_congr h).trans List.filterMap_some

/-- R124: the host may hand these machines over. -/
def canHandOver (s : State) (machines : List Nat) (sentinel : Word) : Bool :=
  s.canOpen machines.length sentinel && decide machines.Nodup &&
    decide ((machines.filterMap s.nodeOf).length = machines.length) &&
    (machines.filterMap s.nodeOf).all fun n => s.hostTx n.inCh && s.hostRx n.outCh

section
variable {s : State} {machines : List Nat} {sentinel : Word} (threshold : Nat) (mode : NetMode)

theorem handOver_of_alive (h : canHandOver s machines sentinel = true)
    (hrx : ∀ n ∈ machines.filterMap s.nodeOf, (s.chan n.inCh).rxAlive = true) :
    handOver s machines sentinel threshold mode =
      .next (openNetwork s (machines.filterMap s.nodeOf) sentinel threshold mode) :=
  (if_pos h).trans (if_pos (List.all_eq_true.mpr hrx))

theorem handOver_of_dropped (h : canHandOver s machines sentinel = true)
    (hrx : ∃ n ∈ machines.filterMap s.nodeOf, (s.chan n.inCh).rxAlive = false) :
    handOver s machines sentinel threshold mode = .fault .orchestratorFailure := by
  refine (if_pos h).trans (if_neg fun hall => ?_)
  obtain ⟨n, hn, hdropped⟩ := hrx
  rw [List.all_eq_true.mp hall n hn] at hdropped
  cases hdropped

theorem handOver_of_not (h : canHandOver s machines sentinel = false) :
    handOver s machines sentinel threshold mode = .refused .hostMisuse :=
  if_neg (Bool.eq_false_iff.mp h)

end

/-- A machine that may be handed over is there, on a Non-blocking-with-status device, and its far handles are the
host's. -/
theorem canHandOver_machine {s : State} {machines : List Nat} {sentinel : Word}
    (h : canHandOver s machines sentinel = true) {k : Nat} (hk : k ∈ machines) :
    ∃ c cin cout first idle owed, s.instances[k]? = some c ∧ c.dev = .nonblocking cin cout first idle owed ∧
      s.hostTx cin = true ∧ s.hostRx cout = true := by
  simp only [canHandOver, Bool.and_eq_true, decide_eq_true_eq, List.filterMap_length_eq_length,
    List.all_eq_true] at h
  obtain ⟨⟨-, hsome⟩, hheld⟩ := h
  obtain ⟨m, hm⟩ := Option.isSome_iff_exists.mp (hsome k hk)
  obtain ⟨c, first, idle, owed, hc, hd⟩ := State.nodeOf_eq_some hm
  obtain ⟨htx, hrx⟩ := hheld m (List.mem_filterMap.mpr ⟨k, hk, hm⟩)
  exact ⟨c, _, _, first, idle, owed, hc, hd, htx, hrx⟩

/-- Settles O52: the nodes are those of the instances; then the enrolment of each machine. -/
theorem handOverMakesTheNetwork : Obligations.HandOverMakesTheNetwork := by
  intro s nodes sentinel threshold mode rest hs
  rw [step_host hs]
  refine ⟨fun horch hne hle hsentinel hmachines hin hheld => ?allowed, fun ⟨m, hm, hbad⟩ => ?refused⟩
  case allowed =>
    have hnodes : (nodes.map NetNode.machine).filterMap (State.nodeOf { s with schedule := rest }) = nodes := by
      refine filterMap_nodeOf fun m hm => ?_
      obtain ⟨hpart, -, -, c, first, idle, owed, hc, hd⟩ := hheld m hm
      exact State.nodeOf_of_device hc hd hpart
    have hcan : canHandOver { s with schedule := rest } (nodes.map NetNode.machine) sentinel = true := by
      have hopen := (State.canOpen_iff { s with schedule := rest } nodes.length sentinel).mpr
        ⟨horch, ⟨List.length_pos_of_ne_nil hne, hle⟩, hsentinel⟩
      simp only [canHandOver, hnodes, List.length_map, hopen, hmachines, decide_true, Bool.true_and,
        List.all_eq_true, Bool.and_eq_true]
      exact fun m hm => ⟨(hheld m hm).2.1, (hheld m hm).2.2.1⟩
    refine ⟨fun hdropped => handOver_of_dropped threshold mode hcan (by rwa [hnodes]), fun halive => ?_⟩
    refine ⟨_, _, handOver_of_alive threshold mode hcan (by rwa [hnodes]), rfl, hnodes, rfl, rfl, rfl, rfl, rfl, rfl,
      rfl, rfl, fun i m c hm hc => ?_⟩
    have hmem := List.mem_of_getElem? hm
    obtain ⟨-, htx, hrx, -⟩ := hheld m hmem
    obtain ⟨hstart, hqueue, htaken, hrtaken⟩ := openNetwork_machine (s := { s with schedule := rest }) sentinel
      threshold mode hm hin hc (State.lt_of_hostTx htx) (State.lt_of_hostRx hrx) (halive m hmem)
    rw [hnodes]
    exact ⟨_, toInt_ofNat_address (List.getElem?_eq_some_iff.mp hm).1 hle, hstart, hqueue,
      State.hostTx_of_holder (ne_of_eq_of_ne htaken nofun), htaken,
      State.hostRx_of_holder (ne_of_eq_of_ne hrtaken nofun), hrtaken⟩
  case refused =>
    refine handOver_of_not threshold mode (Bool.eq_false_iff.mpr fun hcan => ?_)
    obtain ⟨c, cin, cout, first, idle, owed, hc, hd, htx, hrx⟩ := canHandOver_machine hcan (List.mem_map_of_mem hm)
    rcases hbad c hc cin cout first idle owed hd with h | h
    · exact Bool.false_ne_true (h.symm.trans htx)
    · exact Bool.false_ne_true (h.symm.trans hrx)

end Sys2Proof.Machine
end

section
/-!
Booting a network (R143): the machines it loads, with their channels, and their enrolment.
-/
namespace Sys2Proof.Machine

/-! ### The machines loaded -/

/-- `t` is `s` with `n` instances of the program loaded, each on a Non-blocking-with-status device with two new
channels of its own; what was there is where it was. -/
structure MachinesLoaded (program : List Word) (n : Nat) (s t : State) : Prop where
  instancesLength : t.instances.length = s.instances.length + n
  chansLength : t.chans.length = s.chans.length + 2 * n
  instanceKept : ∀ (k : Nat) (c : CoreState), s.instances[k]? = some c → t.instances[k]? = some c
  chanKept : ∀ (k : Nat) (ch : Channel), s.chans[k]? = some ch → t.chans[k]? = some ch
  machine : ∀ i < n, t.instances[s.instances.length + i]? = some (CoreState.load program
    (.nonblocking (s.chans.length + 2 * i) (s.chans.length + 2 * i + 1) false .fresh none))
  input : ∀ i < n, t.chans[s.chans.length + 2 * i]? =
    some ⟨[], true, true, .host, .device (s.instances.length + i)⟩
  output : ∀ i < n, t.chans[s.chans.length + 2 * i + 1]? =
    some ⟨[], true, true, .device (s.instances.length + i), .host⟩

theorem MachinesLoaded.refl (program : List Word) (s : State) : MachinesLoaded program 0 s s :=
  ⟨rfl, rfl, fun _ _ h => h, fun _ _ h => h, nofun, nofun, nofun⟩

theorem State.chans_loadInstance_nonblocking (s : State) (program : List Word) :
    (s.loadInstance program .nonblocking).chans =
      s.chans ++
        [⟨[], true, true, .host, .device s.instances.length⟩,
          ⟨[], true, true, .device s.instances.length, .host⟩] :=
  (s.loadInstance_chans program .nonblocking).trans (attach_chans_channels s _ (.inr rfl))

/-- An entry of a list is where it was after others are appended. -/
theorem getElem?_append_of_some {α : Type} {l : List α} {k : Nat} {a : α} (h : l[k]? = some a) (r : List α) :
    (l ++ r)[k]? = some a := by
  rw [List.getElem?_append_left (List.getElem?_eq_some_iff.mp h).1, h]

/-- One load, then `n` more. -/
theorem MachinesLoaded.cons {program : List Word} {n : Nat} {s t : State}
    (h : MachinesLoaded program n (s.loadInstance program .nonblocking) t) :
    MachinesLoaded program (n + 1) s t := by
  have hinst := s.instances_loadInstance program .nonblocking
  have hchans := s.chans_loadInstance_nonblocking program
  have hilen : (s.loadInstance program .nonblocking).instances.length = s.instances.length + 1 := by
    rw [hinst, List.length_append, List.length_singleton]
  have hclen : (s.loadInstance program .nonblocking).chans.length = s.chans.length + 2 := by
    rw [hchans, List.length_append]
    rfl
  have hi : ∀ i, s.instances.length + (i + 1) = s.instances.length + 1 + i := fun i => by omega
  have hc : ∀ i, s.chans.length + 2 * (i + 1) = s.chans.length + 2 + 2 * i := fun i => by omega
  obtain ⟨hil, hcl, hinstKept, hchanKept, hmachine, hinput, houtput⟩ := h
  rw [hilen] at hil hmachine hinput houtput
  rw [hclen] at hcl hmachine hinput houtput
  refine ⟨by omega, by omega, fun k c hk => hinstKept k c ?_, fun k ch hk => hchanKept k ch ?_, fun i hlt => ?_,
    fun i hlt => ?_, fun i hlt => ?_⟩
  · rw [hinst]
    exact getElem?_append_of_some hk _
  · rw [hchans]
    exact getElem?_append_of_some hk _
  · cases i with
    | zero => exact hinstKept _ _ (by rw [hinst, Nat.add_zero, List.getElem?_concat_length]; rfl)
    | succ i => rw [hi, hc]; exact hmachine i (Nat.lt_of_succ_lt_succ hlt)
  · cases i with
    | zero => exact hchanKept _ _ (by rw [hchans, List.getElem?_append_right (by omega)]; simp)
    | succ i => rw [hi, hc]; exact hinput i (Nat.lt_of_succ_lt_succ hlt)
  · cases i with
    | zero => exact hchanKept _ _ (by rw [hchans, List.getElem?_append_right (by omega)]; simp)
    | succ i => rw [hi, hc]; exact houtput i (Nat.lt_of_succ_lt_succ hlt)

theorem machinesLoaded_loadMachines (s : State) (program : List Word) (n : Nat) :
    MachinesLoaded program n s (s.loadMachines program n) := by
  induction n generalizing s with
  | zero => exact .refl program s
  | succ n ih => exact (ih _).cons

/-! ### The network -/

theorem State.chan_of_getElem? {s : State} {k : Nat} {ch : Channel} (h : s.chans[k]? = some ch) :
    s.chan k = ch := by
  rw [State.chan, List.getD_eq_getElem?_getD, h, Option.getD_some]

theorem State.getElem?_chans {s : State} {k : Nat} (h : k < s.chans.length) : s.chans[k]? = some (s.chan k) := by
  rw [State.chan, List.getD_eq_getElem?_getD, List.getElem?_eq_getElem h, Option.getD_some]

/-- The orchestrator's records of the machines it boots. -/
def bootNodes (s : State) (n : Nat) : List NetNode :=
  (List.range n).map (bootNode s.instances.length s.chans.length)

theorem bootNodes_length (s : State) (n : Nat) : (bootNodes s n).length = n := by
  rw [bootNodes, List.length_map, List.length_range]

theorem bootNodes_getElem? (s : State) {i n : Nat} (hi : i < n) :
    (bootNodes s n)[i]? = some (bootNode s.instances.length s.chans.length i) := by
  rw [bootNodes, List.getElem?_map, List.getElem?_range hi, Option.map_some]

theorem bootNodes_inCh_nodup (s : State) (n : Nat) : ((bootNodes s n).map NetNode.inCh).Nodup := by
  rw [bootNodes, List.map_map]
  refine List.nodup_range.map fun i j hij => ?_
  simp only [Function.comp, bootNode] at hij
  omega

theorem mem_bootNodes_inCh {s : State} {n k : Nat} :
    k ∈ (bootNodes s n).map NetNode.inCh ↔ ∃ i < n, s.chans.length + 2 * i = k := by
  simp [bootNodes, bootNode]

theorem mem_bootNodes_outCh {s : State} {n k : Nat} :
    k ∈ (bootNodes s n).map NetNode.outCh ↔ ∃ i < n, s.chans.length + 2 * i + 1 = k := by
  simp [bootNodes, bootNode]

/-- A machine of a booted network: its instance run, its address queued, its far handles the orchestrator's. -/
theorem booted_machine (s : State) (program : List Word) {i n : Nat} (hi : i < n) :
    (enrolAll (s.loadMachines program n) 0 (bootNodes s n)).instances[s.instances.length + i]? =
        some (CoreState.load program
          (.nonblocking (s.chans.length + 2 * i) (s.chans.length + 2 * i + 1) false .fresh none)).start ∧
      (enrolAll (s.loadMachines program n) 0 (bootNodes s n)).chans[s.chans.length + 2 * i]? =
        some ⟨[BitVec.ofNat 64 i], true, true, .orchestrator, .device (s.instances.length + i)⟩ ∧
      (enrolAll (s.loadMachines program n) 0 (bootNodes s n)).chans[s.chans.length + 2 * i + 1]? =
        some ⟨[], true, true, .device (s.instances.length + i), .orchestrator⟩ := by
  have hload := machinesLoaded_loadMachines s program n
  have hnode := bootNodes_getElem? s hi
  have hlen := hload.chansLength
  have hin : s.chans.length + 2 * i < (s.loadMachines program n).chans.length := by omega
  have hout : s.chans.length + 2 * i + 1 < (s.loadMachines program n).chans.length := by omega
  have hmachine : s.instances.length + i ∈ (bootNodes s n).map NetNode.machine :=
    List.mem_map.mpr ⟨_, List.mem_of_getElem? hnode, rfl⟩
  have hinIn : s.chans.length + 2 * i ∈ (bootNodes s n).map NetNode.inCh :=
    mem_bootNodes_inCh.mpr ⟨i, hi, rfl⟩
  have hinOut : s.chans.length + 2 * i ∉ (bootNodes s n).map NetNode.outCh := fun h => by
    obtain ⟨j, -, hj⟩ := mem_bootNodes_outCh.mp h
    omega
  have houtIn : s.chans.length + 2 * i + 1 ∉ (bootNodes s n).map NetNode.inCh := fun h => by
    obtain ⟨j, -, hj⟩ := mem_bootNodes_inCh.mp h
    omega
  have houtOut : s.chans.length + 2 * i + 1 ∈ (bootNodes s n).map NetNode.outCh :=
    mem_bootNodes_outCh.mpr ⟨i, hi, rfl⟩
  have hsent : addressesSent (s.chans.length + 2 * i) 0 (bootNodes s n) = [BitVec.ofNat 64 (0 + i)] :=
    addressesSent_of_nodup (bootNodes_inCh_nodup s n) hnode 0
  refine ⟨?_, ?_, ?_⟩
  · rw [enrolAll_instance _ _ _ (hload.machine i hi), if_pos hmachine]
  · rw [State.getElem?_chans (by rw [enrolAll_chans_length]; exact hin), chan_enrolAll _ _ _ hin,
      State.chan_of_getElem? (hload.input i hi), hsent, if_pos hinIn, if_neg hinOut, Nat.zero_add]
    rfl
  · rw [State.getElem?_chans (by rw [enrolAll_chans_length]; exact hout), chan_enrolAll _ _ _ hout,
      State.chan_of_getElem? (hload.output i hi), addressesSent_of_not_mem houtIn, if_neg houtIn, if_pos houtOut]
    rfl

section
variable {s : State} {program : List Word} {n : Nat} {sentinel : Word} (threshold : Nat) (mode : NetMode)

theorem bootNetwork_of_fits (h : s.canOpen n sentinel = true) (hl : program.length ≤ s.params.memLimit) :
    bootNetwork s program n sentinel threshold mode =
      .next (openNetwork (s.loadMachines program n) (bootNodes s n) sentinel threshold mode) :=
  (if_pos h).trans (if_pos hl)

theorem bootNetwork_of_too_long (h : s.canOpen n sentinel = true) (hl : s.params.memLimit < program.length) :
    bootNetwork s program n sentinel threshold mode = .refused .loadRefused :=
  (if_pos h).trans (if_neg (Nat.not_le.mpr hl))

theorem bootNetwork_of_not (h : ¬ s.canOpen n sentinel = true) :
    bootNetwork s program n sentinel threshold mode = .refused .hostMisuse :=
  if_neg h

end

/-- Settles O51: the loads and the enrolments, and the two refusals. -/
theorem bootSendsEachAddress : Obligations.BootSendsEachAddress := by
  intro s program n sentinel threshold mode rest hs
  rw [step_host hs]
  have hopen := State.canOpen_iff { s with schedule := rest } n sentinel
  refine ⟨fun horch hpos hle hfits hsentinel => ?booted, fun hbad => ?misuse,
    fun horch hpos hle hlong hsentinel => ?tooLong⟩
  case booted =>
    refine ⟨_, _, bootNetwork_of_fits threshold mode (hopen.mpr ⟨horch, ⟨hpos, hle⟩, hsentinel⟩) hfits, rfl,
      bootNodes_length _ n, rfl, rfl, rfl, rfl, rfl, rfl, rfl, rfl, ?_, fun i hi => ?_⟩
    · rw [openNetwork_instances_eq, enrolAll_instances_length]
      exact (machinesLoaded_loadMachines { s with schedule := rest } program n).instancesLength
    · obtain ⟨hinst, hin, hout⟩ := booted_machine { s with schedule := rest } program hi
      exact ⟨_, _, bootNodes_getElem? _ hi, rfl, hinst, toInt_ofNat_address hi hle, hin, hout⟩
  case misuse =>
    refine bootNetwork_of_not threshold mode fun hcan => ?_
    obtain ⟨horch, ⟨hpos, hle⟩, hsentinel⟩ := hopen.mp hcan
    rcases hbad with h | h | h | ⟨h, h'⟩
    · exact h horch
    · omega
    · omega
    · omega
  case tooLong =>
    exact bootNetwork_of_too_long threshold mode (hopen.mpr ⟨horch, ⟨hpos, hle⟩, hsentinel⟩) hlong

end Sys2Proof.Machine
end
